-- ==== Sys2Proof/Word.lean ====
section
/-! DEFINITION. The word types of the eIODP core (spec/00_scope.md R9): every quantity is unsigned; bytes, 16-bit and 32-bit words. -/

namespace Sys2Proof

/-- A byte of a byte string (R9). -/
abbrev Byte := BitVec 8

/-- A `u16`: an address, a length field, a function code, a size, a type (R9). -/
abbrev U16 := BitVec 16

/-- A `u32`: a CRC value or a CRC table entry (R9). -/
abbrev U32 := BitVec 32

/-- An opaque reference the hardware stores and hands back and never computes with: the transport handle, its two
functions (R38), and a callback (R37). Its width is the model's (log entry 5). -/
abbrev Handle := BitVec 32

/-- The `NULL` callback of R281 (log entry 5). -/
def nullHandle : Handle := 0

end Sys2Proof
end

