-- ==== Sys2Proof/Config.lean ====
section
/-! DEFINITION. What an implementation of the core fixes: the parameters of spec/00_scope.md R7 as plain data, the
correlation classes, the constants of R8, and the free values (opaque constants with no body) that stand for what the spec leaves to the environment. -/

namespace Sys2Proof

/-- `SCHED` (R7, R307): the three scheduling models. `rtos` behaves as `preemptive`. -/
inductive Sched where
  | preemptive
  | cooperative
  | rtos
deriving DecidableEq, Repr

/-- `RX_ON_FULL` (R7, R302): what the RX agent does with a chunk the ring rejects. -/
inductive RxOnFull where
  | retry
  | drop
deriving DecidableEq, Repr

/-- A correlation class (spec/10_state.md R31 to R35). -/
inductive CClass where
  | read
  | func
deriving DecidableEq, Repr

/-- The parameters of R7. `COOP_BUDGET` is folded into `timeoutTicks` (R7) and `RESULT_CODE` is the enumeration
`Machine.Result` (R321). A value of this structure is a field of State, so that a claim about every state is a claim about
every choice of the open parameters (log entry 1). -/
structure Config where
  /-- `BUF_SIZE`: capacity of the ingress ring. -/
  bufSize : Nat
  /-- `MAX_FRAME`: size of the assembly buffer and bound on a frame. -/
  maxFrame : Nat
  /-- `MEM_SIZE`: size of the Memory Space. -/
  memSize : Nat
  /-- `TIMEOUT_TICKS`: initial value of a call's timeout counter. -/
  timeoutTicks : Nat
  /-- `MAX_RET`: longest return value of a callback. -/
  maxRet : Nat
  /-- `N_FUNC`: capacity of the registry. -/
  nFunc : Nat
  /-- `SCHED`. -/
  sched : Sched
  /-- `RX_CHUNK_MAX`: most bytes one receive step moves. -/
  rxChunkMax : Nat
  /-- `RX_ON_FULL`. -/
  rxOnFull : RxOnFull
deriving DecidableEq, Repr

/-- The constraints R7 and R302 put on the parameters. `MAX_RET <= MAX_FRAME - 15` is on exact naturals (R9), so it is
written as a sum. -/
abbrev configWf (c : Config) : Prop :=
  2 ≤ c.bufSize ∧ 11 ≤ c.maxFrame ∧ c.maxFrame ≤ 65539 ∧ 1 ≤ c.memSize ∧ c.memSize ≤ 65536 ∧
    c.maxRet + 15 ≤ c.maxFrame ∧ 1 ≤ c.nFunc ∧ 1 ≤ c.rxChunkMax ∧
    (c.rxOnFull = RxOnFull.retry → c.rxChunkMax ≤ c.bufSize - 1)

/-- The parameter values State.reset starts with: those of the header of spec/95_test_vectors.md, `TIMEOUT_TICKS` of its
program P4; `RX_CHUNK_MAX` is DESIGN CHOICE 32 (log entry 1). No statement rests on them. -/
def Config.standard : Config :=
  { bufSize := 2048, maxFrame := 1024, memSize := 512, timeoutTicks := 3, maxRet := 1009, nFunc := 4,
    sched := .preemptive, rxChunkMax := 32, rxOnFull := .retry }

/-- `SYNC1`, the first sync byte (R8, R91). -/
def sync1 : Byte := 0xEB

/-- `SYNC2`, the second sync byte (R8, R91). -/
def sync2 : Byte := 0x90

/-- The one wire error code the hardware sends (R8, R103, R329). -/
def wireErrorCode : Byte := 0x01

/-- FREE VALUE. The byte a cell of the Memory Space holds from reset until something writes it: "any value, fixed at reset"
(R46, R48). Indexed by the address, so that two reads of an unwritten cell agree (R67). Log entry 3. -/
opaque Config.memReset : Nat → Byte

/-- FREE VALUE. What the echo register of a class holds from reset until a call is issued: "any value of the register's type,
chosen once at reset" (R46). Log entry 32. -/
opaque Config.echoReset : CClass → U16

/-- FREE VALUE. The integer a transport read answers when the state scripts no answer (R301, R302: "the environment's
choice", any integer). Indexed by State's draw counter. Log entry 6. -/
opaque Config.readAnswer : Nat → Int

/-- FREE VALUE. The return bytes of a callback (handler, argument bytes, State's draw counter) when the state scripts no
answer (R286: an oracle). The meaning cuts them to `MAX_RET` bytes, which is the contract of R285. Log entry 7. -/
opaque Config.callbackReturn : Handle → List Byte → Nat → List Byte

/-- FREE VALUE. What a slot holds after CORR_DELIVER of a body longer than R31 lets a slot hold (the body, State's draw
counter): the spec states no result there. The meaning cuts it to `MAX_FRAME - 9` bytes, the bound of R31. Log entry 22. -/
opaque Config.longBody : List Byte → Nat → List Byte

/-- FREE VALUE. A number that names the permutation LIST_FUNCTIONS answers in (R289: "any permutation"). Indexed by State's
draw counter. Log entry 8. -/
opaque Config.listOrder : Nat → Nat

end Sys2Proof
end

