-- ==== Sys2Proof/Syntax.lean ====
section
/-! DEFINITION. The instructions of the core: one constructor of `Instr` per row of spec/opcode_table.json (7 wire frames, 6 host
commands, 22 unit operations: spec/30_encoding.md R100, R104, R106), and the acts of the host and of the environment that are
no row of that table (R266, R300). -/

namespace Sys2Proof

/-- Who performs a step: the four agents of R300 that are the hardware. -/
inductive Agent where
  | rx
  | parser
  | host
  | tick
deriving DecidableEq, Repr

/-- The fields of a frame that its mnemonic does not fix (R90, R93, R101): `hi` is type[14:8], which the receiver's routing
ignores; `size` is the size field, `crc` the trailer as it stands on the wire, right or wrong. -/
structure Frame where
  hi : BitVec 7
  size : U16
  payload : List Byte
  crc : U32
deriving DecidableEq, Repr

/-- One constructor per row of spec/opcode_table.json, in the table's order. -/
inductive Instr where
  -- the seven frame types (R100, R101), as the parser agent receives them
  | writeReq (f : Frame)
  | readReq (f : Frame)
  | funcReq (f : Frame)
  | readRsp (f : Frame)
  | funcRsp (f : Frame)
  | readErr (f : Frame)
  | funcErr (f : Frame)
  -- the six host commands (R104, R105)
  | initContext (handle readFn writeFn : Handle)
  | writeRemoteMemory (addr len : U16) (data : List Byte)
  | readRemoteMemory (addr len : U16)
  | registerFunction (code : U16) (callback : Handle)
  | callRemoteFunction (code : U16) (arg : List Byte)
  | listFunctions
  -- the unit operations (R106)
  | rbPut (b : List Byte)
  | rbGet (m : Nat)
  | rbSize
  | crcInit
  | crcChecksum (data : List Byte) (n : Nat)
  | crcStore (buf : List Byte) (total : Nat)
  | crcVerify (buf : List Byte) (total : Nat)
  | encodeFrame (ty : U16) (payload : List Byte)
  | parseSeekSync
  | parseReadLength
  | parseReadBody
  | parseRoute
  -- the operands `sub` and `body` of R198 are the low byte of `ty` and `ty ++ payload`
  | corrDeliver (ty : U16) (payload : List Byte)
  | corrWait (c : CClass)
  | corrTick
  | corrValidate (c : CClass) (r : List Byte)
  -- the operand `len` of R261 is the length of `data`
  | msWrite (addr : U16) (data : List Byte)
  | msRead (addr len : U16)
  | dispatch (code : U16) (arg : List Byte)
  | rxStep
  | tx (f : List Byte)
  | coopStep
deriving DecidableEq, Repr

/-- How a callback behaves when it is invoked (R286): it returns bytes and declares their length (U4 where the two differ),
never returns (U5), or uses the context that invoked it (U6). -/
inductive CbAnswer where
  | returns (declared : Nat) (ret : List Byte)
  | neverReturns
  | usesContext
deriving DecidableEq, Repr

/-- Acts that are no row of the opcode table: the host agent's local read of one byte (R266), and what the environment does
(R300): it appends to `rxq`, removes from `txq`, and chooses the answers of transport reads and of callbacks. `ringCaller`
says who performs the RB_PUT and RB_GET steps that follow: the agent R136 has for them (`none`), or a named one (U2). -/
inductive EnvAct where
  | hostRead (addr : U16)
  | rxAppend (b : List Byte)
  | txTake (n : Nat)
  | answerRead (k : Int)
  | answerCallback (a : CbAnswer)
  | ringCaller (a : Option Agent)
deriving DecidableEq, Repr

end Sys2Proof
end

