-- ==== Sys2Proof/Machine/Operands.lean ====
section
/-! DEFINITION. Operand forms: big-endian assembly (spec/00_scope.md R9, R61, R62, R96), the type field (R93), the bytes of a frame
(R90) and the payload builders (R173). -/

namespace Sys2Proof

/-- `be16(v)`: most significant byte first (R9). -/
def be16 (v : U16) : List Byte := [v.extractLsb' 8 8, v.extractLsb' 0 8]

/-- `be32(v)`: most significant byte first (R9, R62). -/
def be32 (v : U32) : List Byte :=
  [v.extractLsb' 24 8, v.extractLsb' 16 8, v.extractLsb' 8 8, v.extractLsb' 0 8]

/-- The byte at index `i` of a byte string. Every use reads inside the string (the rule that uses it checks the length first),
so the answer outside it is never looked at. -/
def byteAt (b : List Byte) (i : Nat) : Byte := b.getD i 0

/-- `u16be(b, i)` (R9). -/
def u16be (b : List Byte) (i : Nat) : U16 := byteAt b i ++ byteAt b (i + 1)

/-- `u32be(b, i)` (R9). -/
def u32be (b : List Byte) (i : Nat) : U32 :=
  byteAt b i ++ byteAt b (i + 1) ++ (byteAt b (i + 2) ++ byteAt b (i + 3))

/-- `b[i..j)` (R9). -/
def slice (b : List Byte) (i j : Nat) : List Byte := (b.take j).drop i

/-- `b[i .. i+len(r)) <- r`: a run of bytes written into a buffer. -/
def splice (b : List Byte) (i : Nat) (r : List Byte) : List Byte := b.take i ++ r ++ b.drop (i + r.length)

/-- The type field from its parts (R93): bit 15 `req`, bits 14:8, bits 7:0 `sub`. -/
def frameType (req : Bool) (hi : BitVec 7) (sub : Byte) : U16 := BitVec.ofBool req ++ hi ++ sub

/-- `req = type[15]` (R93, R101). -/
def typeReq (ty : U16) : Bool := ty.getLsbD 15

/-- `type[14:8]` (R93). -/
def typeHi (ty : U16) : BitVec 7 := ty.extractLsb' 8 7

/-- `sub = type[7:0]` (R93, R101). -/
def typeSub (ty : U16) : Byte := ty.extractLsb' 0 8

/-- The bytes of a frame before its trailer: sync, size, type, payload (R90). -/
def frameHead (ty : U16) (size : U16) (payload : List Byte) : List Byte :=
  [sync1, sync2] ++ be16 size ++ be16 ty ++ payload

/-- The bytes of a received frame in wire order (R90). -/
def frameBytes (ty : U16) (f : Frame) : List Byte := frameHead ty f.size f.payload ++ be32 f.crc

/-- `len(b)` as the `u16` a length field carries. Every use has a length below 65536, or builds a frame that is too large
to encode. -/
def len16 (b : List Byte) : U16 := BitVec.ofNat 16 b.length

/-- The payload `addr ++ len ++ data` of WRITE_REQ and READ_RSP (R98, R173), and `code ++ arglen ++ arg` of FUNC_REQ and
FUNC_RSP. -/
def keyedPayload (key : U16) (data : List Byte) : List Byte := be16 key ++ be16 (len16 data) ++ data

/-- The payload of READ_REQ (R98, R173). -/
def readReqPayload (addr len : U16) : List Byte := be16 addr ++ be16 len

/-- The payload of READ_ERR and FUNC_ERR (R98, R173). -/
def errPayload (e : Byte) : List Byte := [e]

end Sys2Proof
end

