-- ==== Sys2Proof/Machine/Crc.lean ====
section
/-! DEFINITION. The CRC32 function (spec/41_crc32.md): the table as CRC_INIT generates it (R151), the table-driven checksum (R153), the
bit-by-bit form (R155), and the two trailer operations on a byte buffer (R156, R157). No state: the unit is in CrcEngine.lean. -/

namespace Sys2Proof

/-- The polynomial `0x04C11DB7` with its 32 bits reversed (R150). -/
def crcPoly : U32 := 0xEDB88320

/-- The initial value and the final XOR (R8, R150). -/
def crcOnes : U32 := 0xFFFFFFFF

/-- One step of the reflected shift register: `c <- (c >> 1) ^ 0xEDB88320` if `c[0] = 1`, else `c >> 1` (R151, R155). -/
def crcShift (c : U32) : U32 := if c.getLsbD 0 then (c >>> 1) ^^^ crcPoly else c >>> 1

/-- Eight steps. -/
def crcShift8 (c : U32) : U32 :=
  crcShift (crcShift (crcShift (crcShift (crcShift (crcShift (crcShift (crcShift c)))))))

/-- Entry `i` of the table as the loop of R151 leaves it. -/
def crcTableEntry (i : Nat) : U32 := crcShift8 (BitVec.ofNat 32 i)

/-- The table CRC_INIT generates: 256 entries in index order (R151, R152). -/
def crcTableGen : List U32 := (List.range 256).map crcTableEntry

/-- The per-byte update of R153 over the table `tbl`. An index is below 256, so it is inside a table of 256 entries. -/
def crcUpdate (tbl : List U32) (acc : U32) (d : Byte) : U32 :=
  tbl.getD ((acc ^^^ d.setWidth 32) &&& 0xFF#32).toNat 0 ^^^ (acc >>> 8)

/-- The accumulator after the bytes `data`, started at `0xFFFFFFFF` (R153). -/
def crcAccumulate (tbl : List U32) (data : List Byte) : U32 := data.foldl (crcUpdate tbl) crcOnes

/-- `CRC_CHECKSUM(data, n)`: the checksum of the first `n` bytes (R153). -/
def crcChecksum (tbl : List U32) (data : List Byte) (n : Nat) : U32 := crcAccumulate tbl (data.take n) ^^^ crcOnes

/-- The same function bit by bit, without a table (R155). -/
def crcBitwise (data : List Byte) : U32 :=
  data.foldl (fun c d => crcShift8 (c ^^^ d.setWidth 32)) crcOnes ^^^ crcOnes

/-- `CRC_STORE(buf, T)` for `T >= 4`: the buffer with the checksum of its first `T - 4` bytes, most significant byte first,
at indices `T-4` to `T-1` (R156). -/
def crcStoreTrailer (tbl : List U32) (buf : List Byte) (total : Nat) : List Byte :=
  splice buf (total - 4) (be32 (crcChecksum tbl buf (total - 4)))

/-- `CRC_VERIFY(buf, T)` for `T >= 4` (R157). -/
def crcVerifyTrailer (tbl : List U32) (buf : List Byte) (total : Nat) : Bool :=
  crcChecksum tbl buf (total - 4) == u32be buf (total - 4)

/-- `ENCODE(type, payload)` (spec/42_frame_encoder.md R171): the frame, or `none` for `TOO_LARGE`. -/
def encodeWith (c : Config) (tbl : List U32) (ty : U16) (payload : List Byte) : Option (List Byte) :=
  if c.maxFrame ≤ payload.length + 6 + 4 then none
  else
    some (crcStoreTrailer tbl (frameHead ty (BitVec.ofNat 16 (payload.length + 6)) payload ++ [0, 0, 0, 0])
      (payload.length + 6 + 4))

end Sys2Proof
end

