-- ==== Sys2Proof/Machine/State.lean ====
section
/-! DEFINITION. The state of one Device Context (spec/10_state.md R20 to R46), the reasons a step can stop, and the state after reset. -/

namespace Sys2Proof.Machine

/-- The parser state register `ps` (R28). -/
inductive ParserState where
  | seekSync
  | readLength
  | readBody
  | route
deriving DecidableEq, Repr

/-- `cstate[c]` (R33). -/
inductive CallState where
  | idle
  | waiting
deriving DecidableEq, Repr

/-- The registers of one correlation class (R31 to R35). -/
structure ClassRegs where
  /-- `slot[c]`: the response body it holds (R31). -/
  slot : List Byte
  /-- `slot_len[c]` (R31). -/
  slotLen : Nat
  /-- `slot_valid[c]` (R31). -/
  slotValid : Bool
  /-- `pend[c]`, the wait primitive (R32). -/
  pend : Bool
  /-- `cstate[c]` (R33). -/
  cstate : CallState
  /-- `echo[c]` (R34). -/
  echo : U16
  /-- `tcnt[c]` (R35). -/
  tcnt : Nat
  /-- The model's own: a call has been issued, so `echo[c]` has been written (R48; log entry 32). -/
  echoSet : Bool
deriving DecidableEq, Repr

/-- One entry of the function registry: a code and a reference to an external handler (R37). -/
structure RegEntry where
  code : U16
  callback : Handle
deriving DecidableEq, Repr

/-- The events of the log (spec/60_exceptions.md R350), with what each records. -/
inductive Event where
  | badSync1 (b : Byte)
  | badSync2 (b : Byte)
  | oversize (size : U16)
  | undersize (size : U16)
  | crcFail (stored computed : U32)
  | unknownType (ty : U16)
  | malformed (sub : Byte)
  | writeOverflow (addr : U16) (len i : Nat)
  | rangeError (addr : U16)
  | unknownFunction (code : U16)
  | replyTooLarge (sub : Byte) (n : Nat)
  | rxOverrun (n : Nat)
deriving DecidableEq, Repr

/-- What a step answers whoever asked for it: `OK(values)` or one of the named outcomes of R321, the results `FRAME` and
`NOFRAME` of COOP_STEP (R310), a hold (R10), and two answers of the model's own: `done`, a step that returns no outcome, and
`issued`, a call that is now waiting and returns through CORR_WAIT (log entry 14). -/
inductive Result where
  | done
  | hold
  | issued
  | ok
  | okCount (n : Nat)
  | okBytes (b : List Byte)
  | okWord (w : U32)
  | okBool (b : Bool)
  | okData (len : U16) (data : List Byte)
  | okCodes (codes : List U16)
  | capacityExceeded
  | tooLarge
  | addressOverflow
  | addressRange
  | unknownFunction
  | duplicateCode
  | invalidParam
  | allocFailure
  | timeout
  | shortResponse
  | echoMismatch
  | lengthMismatch
  | peerError (code : Byte)
  | unexpectedType
  | frame
  | noFrame
deriving DecidableEq, Repr

/-- Why the machine stops with a fault. -/
inductive Fault where
  /-- Raised by the host's local read of a byte at `MEM_SIZE` or above (R266 gives the read for `0 <= a < MEM_SIZE` only:
  the address does not exist). Safe: no state follows. -/
  | noSuchAddress (addr : Nat)
deriving DecidableEq, Repr

/-- Why a step has no meaning: the preconditions the spec treats as `refuse` (spec/93_implementation_defined.md), and what the
decoder finds. Every one is safe: no state follows. -/
inductive Refusal where
  /-- An instruction with no meaning yet (none is left). -/
  | notModelled (mnemonic : String)
  /-- U3, R374: an operation of a context with `inited = 0`, by every operation but INITIALIZE and REGISTER_FUNCTION. -/
  | notInitialized
  /-- U13: INITIALIZE of a context that is already initialised. -/
  | alreadyInitialized
  /-- U8, R372: a checksum, or INITIALIZE, with `crc_init = 0`. -/
  | crcNotReady
  /-- R153, R156, R157: a checksum over more bytes than the buffer holds, by the CRC operations. -/
  | beyondBuffer
  /-- U9: CRC_STORE or CRC_VERIFY with a total length below 4. -/
  | noTrailer
  /-- U1, R224, R380: a call on a class that has a call outstanding. -/
  | classBusy (c : CClass)
  /-- U12, R221: WRITE_REMOTE_MEMORY with `len` different from `len(data)`. -/
  | lengthOperand
  /-- U4, R285: a callback that returns more than `MAX_RET` bytes or declares another length than it returns. -/
  | callbackContract
  /-- U6, R286: a callback that uses the context that invoked it. -/
  | callbackReentry
  /-- R228: CORR_WAIT of a class that is not waiting. -/
  | classNotWaiting (c : CClass)
  /-- R192 to R195: a parser step that does not belong to the current `ps`. -/
  | otherParserState (ps : ParserState)
  /-- U2, R136: RB_PUT by an agent that is not the producer of the ring. -/
  | secondProducer (caller : Agent)
  /-- U2, R136: RB_GET by an agent that is not the consumer of the ring. -/
  | secondConsumer (caller : Agent)
  /-- R310: COOP_STEP with `SCHED` other than `COOPERATIVE`. -/
  | notCooperative
  /-- The port does not hold all the operands of the host command, unit operation or act it starts with. -/
  | truncatedInstruction
  /-- The port starts with a byte that selects nothing. -/
  | unknownSelect (b : Byte)
  /-- An operand names no correlation class. -/
  | notAClass (b : Byte)
  /-- The act that names a caller of the ring names no agent. -/
  | notAnAgent (b : Byte)
deriving DecidableEq, Repr

/-- The Memory Space as a list of the bytes written so far, in one canonical form (`memWf`). -/
abbrev Mem := List Host.Cell

/-- Everything the spec gives one Device Context, the process-wide CRC table, the two streams of the transport, and the
model's own fields at the end. -/
structure State where
  /-- The configuration parameters of R7; no step changes them (R40, R42; log entry 1). -/
  cfg : Config
  /-- `rbuf[0 .. BUF_SIZE-1]` (R21). -/
  rbuf : List Byte
  /-- `rin` (R22). -/
  rin : Nat
  /-- `rout` (R23). -/
  rout : Nat
  /-- `crc_table[0 .. 255]` (R25). -/
  crcTable : List U32
  /-- `crc_init` (R26). -/
  crcInit : Bool
  /-- `crc_acc` (R27; log entry 15). -/
  crcAcc : U32
  /-- `ps` (R28). -/
  ps : ParserState
  /-- `abuf[0 .. MAX_FRAME-1]` (R29). -/
  abuf : List Byte
  /-- `acnt` (R29). -/
  acnt : Nat
  /-- `asize` (R30). -/
  asize : U16
  /-- The registers of class `READ` (R31 to R35). -/
  readCls : ClassRegs
  /-- The registers of class `FUNC` (R31 to R35). -/
  funcCls : ClassRegs
  /-- `mem[0 .. MEM_SIZE-1]` (R36). -/
  mem : Mem
  /-- `reg[0 .. reg_count-1]` (R37); `reg_count` is its length. -/
  reg : List RegEntry
  /-- `handle` (R38). -/
  handle : Handle
  /-- `read_fn` (R38). -/
  readFn : Handle
  /-- `write_fn` (R38). -/
  writeFn : Handle
  /-- `rxq`, the bytes the transport will deliver, in order (R39). -/
  rxq : List Byte
  /-- `rx_hold` (R39). -/
  rxHold : List Byte
  /-- `txq` (R39). -/
  txq : List Byte
  /-- `inited` (R40). -/
  inited : Bool
  /-- `log` (R41, R350). -/
  log : List Event
  /-- The parser agent is inside a callback that never returns (U5, R286, R382). -/
  parserStuck : Bool
  /-- The model's own: the steps still to be made, as encoded instructions and acts: the interleaving of R11 (log entry 10). -/
  port : List Byte
  /-- The model's own: what the last step answered (R321, R40; log entry 14). -/
  res : Result
  /-- The model's own: who performs the RB_PUT and RB_GET instructions: the agent R136 has for them, or a named one (U2; log
  entry 24). -/
  ringCaller : Option Agent
  /-- The model's own: the environment's answers to the next transport reads (R301; log entry 6). -/
  readScript : List Int
  /-- The model's own: how the next callbacks behave (R286; log entry 7). -/
  cbScript : List CbAnswer
  /-- The model's own: how many free values have been drawn (log entry 6). -/
  draws : Nat
deriving DecidableEq, Repr

/-- The class registers after INITIALIZE (R46): empty slot, no signal, `IDLE`. The registers R46 leaves unspecified are zero
(log entry 9); what `echo` holds is a free value until a call writes it (log entry 32). -/
def ClassRegs.reset : ClassRegs :=
  { slot := [], slotLen := 0, slotValid := false, pend := false, cstate := .idle, echo := 0, tcnt := 0
    echoSet := false }

/-- The machine before its two reset events (R46, R47, R370): `crc_init = 0`, `inited = 0`. Every register is unspecified
there and holds the value of log entry 9. `rxq` is the environment's, and R46 has no row for it: it starts empty (log entry
33). -/
def State.powerUp : State :=
  { cfg := Config.standard
    rbuf := List.replicate Config.standard.bufSize 0, rin := 0, rout := 0
    crcTable := List.replicate 256 0, crcInit := false, crcAcc := 0
    ps := .seekSync, abuf := List.replicate Config.standard.maxFrame 0, acnt := 0, asize := 0
    readCls := ClassRegs.reset, funcCls := ClassRegs.reset
    mem := [], reg := []
    handle := 0, readFn := 0, writeFn := 0
    rxq := [], rxHold := [], txq := []
    inited := false, log := []
    parserStuck := false, port := [], res := .done, ringCaller := none, readScript := [], cbScript := [], draws := 0 }

/-- The machine right after reset: CRC_INIT and INITIALIZE have run ("The state after step 2 is the reset state", R371;
table of R46; log entry 2). Values R46 leaves unspecified: log entry 9; the parameters: log entry 1. -/
def State.reset : State :=
  { State.powerUp with crcTable := crcTableGen, crcInit := true, inited := true, res := .ok }

end Sys2Proof.Machine
end

