-- ==== Sys2Proof/Machine/Flags.lean ====
section
/-! DEFINITION. The flags (spec/00_scope.md R5: the `pend` bits, the `cstate` registers, `inited`, `crc_init`) and how each is set and
cleared, per correlation class (spec/10_state.md R31 to R35). The two classes share nothing (R43). -/

namespace Sys2Proof.Machine

/-- The registers of class `c`. -/
def classRegs (c : CClass) (s : State) : ClassRegs :=
  match c with
  | .read => s.readCls
  | .func => s.funcCls

/-- The state with other registers for class `c`. -/
def setClass (c : CClass) (r : ClassRegs) (s : State) : State :=
  match c with
  | .read => { s with readCls := r }
  | .func => { s with funcCls := r }

/-- The signal: the body goes into the slot, `slot_len`, `slot_valid <- 1` and `pend <- 1`, in one action (R198, R77). -/
def signalBody (body : List Byte) (r : ClassRegs) : ClassRegs :=
  { r with slot := body, slotLen := body.length, slotValid := true, pend := true }

/-- The body a take reads: `slot[c][0 .. slot_len[c])` (R228). -/
def slotBody (r : ClassRegs) : List Byte := r.slot.take r.slotLen

/-- The take: `slot_valid <- 0`, `pend <- 0`, `cstate <- IDLE` (R228). -/
def takeBody (r : ClassRegs) : ClassRegs := { r with slotValid := false, pend := false, cstate := .idle }

/-- The registers a call writes when it is issued: `echo`, `tcnt`, `cstate`; `pend` and the slot stay (R225). -/
def issueRegs (echo : U16) (ticks : Nat) (r : ClassRegs) : ClassRegs :=
  { r with echo := echo, echoSet := true, tcnt := ticks, cstate := .waiting }

/-- What a read of `echo[c]` gives: what the last call of the class wrote, and where no call has been issued the free value of
R46 (log entry 32). -/
def echoValue (c : CClass) (s : State) : U16 :=
  if (classRegs c s).echoSet then (classRegs c s).echo else Config.echoReset c

/-- One tick of a class: counts a waiting class down, not below 0 (R227). -/
def tickRegs (r : ClassRegs) : ClassRegs :=
  if r.cstate = .waiting ∧ 0 < r.tcnt then { r with tcnt := r.tcnt - 1 } else r

/-- The flags INITIALIZE clears (R308); the other registers of the class keep their values. -/
def clearClassFlags (r : ClassRegs) : ClassRegs := { r with slotValid := false, pend := false, cstate := .idle }

/-- Some class waits with its counter at 0 (R310). -/
def someTimedOut (s : State) : Bool :=
  (decide (s.readCls.cstate = .waiting) && decide (s.readCls.tcnt = 0)) ||
    (decide (s.funcCls.cstate = .waiting) && decide (s.funcCls.tcnt = 0))

/-- No class waits (R310). -/
def noneWaiting (s : State) : Bool :=
  decide (s.readCls.cstate = .idle) && decide (s.funcCls.cstate = .idle)

end Sys2Proof.Machine
end

