-- ==== Sys2Proof/Machine/Ops.lean ====
section
/-! DEFINITION. The named operations the units share: outcomes and preconditions, taking an exception (`raise`, spec/00_scope.md R10,
spec/60_exceptions.md R334, R350), the Memory Space (spec/20_memory.md R65, R68), the ring (spec/40_ring_buffer.md), the
transport (spec/47_ingress_pump.md R301, R305), the encoder, and the draws from the environment. -/

namespace Sys2Proof.Machine

/-- What a step of the machine comes to. -/
abbrev Out := Host.Outcome State Fault Refusal

/-- The next state of an operation handed to the operation after it. -/
def andThen (o : Out) (k : State → Out) : Out :=
  match o with
  | .next s => k s
  | .fault r => .fault r
  | .refused r => .refused r

/-- The precondition `inited = 1` (R374, U3). -/
def requireInited (s : State) (k : Out) : Out := if s.inited then k else .refused .notInitialized

/-- The precondition `crc_init = 1` (R372, U8). -/
def requireCrc (s : State) (k : Out) : Out := if s.crcInit then k else .refused .crcNotReady

/-- The one agent that puts into the ring: the RX agent (R136, R44); with `SCHED = COOPERATIVE` the host agent performs its
steps (R307). -/
def ringProducer (c : Config) : Agent := if c.sched = .cooperative then .host else .rx

/-- The one agent that gets from the ring: the parser agent (R136, R44); with `SCHED = COOPERATIVE` the host agent performs
its steps (R307). -/
def ringConsumer (c : Config) : Agent := if c.sched = .cooperative then .host else .parser

/-- A second producer is refused (R136, U2). -/
def requireProducer (s : State) (k : Out) : Out :=
  match s.ringCaller with
  | none => k
  | some a => if a = ringProducer s.cfg then k else .refused (.secondProducer a)

/-- A second consumer is refused (R136, U2). -/
def requireConsumer (s : State) (k : Out) : Out :=
  match s.ringCaller with
  | none => k
  | some a => if a = ringConsumer s.cfg then k else .refused (.secondConsumer a)

/-- A step of the RX agent or of the parser agent on its own: with `SCHED = COOPERATIVE` neither makes one, their steps being
made inside COOP_STEP alone (R307, R389), so the step holds (log entry 17). -/
def onItsOwn (s : State) (k : Out) : Out :=
  if s.cfg.sched = .cooperative then .next { s with res := .hold } else k

/-- A step of the parser agent: while it is inside a callback that never returns it makes none, so the step holds (U5, R286,
R382; log entry 16). -/
def parserAgent (s : State) (k : Out) : Out :=
  if s.parserStuck then .next { s with res := .hold } else k

/-- An operation answers its caller (R9, R321). -/
def answer (r : Result) (s : State) : State := { s with res := r }

/-! ### Taking an exception -/

/-- `raise E(args)`: TAKING AN EXCEPTION. The event goes to the end of the log and nothing else happens (R350): nothing is
saved, control goes nowhere, the step that detects the condition finishes with the recovery its rule names, and the agent
goes on (R10, R334). RETURN FROM AN EXCEPTION: there is none; no handler runs, so there is nothing to return from (R335). -/
def raise (e : Event) (s : State) : State := { s with log := s.log ++ [e] }

/-! ### The Memory Space -/

/-- The byte written last at address `a`, if any was written since reset. -/
def memFind : Mem → Nat → Option Byte
  | [], _ => none
  | (k, v) :: rest, a => if a = k then some v else memFind rest a

/-- `mem[a]`: the byte written last, and where nothing was written the free value of R48. An unlisted address has no value
of its own here, so no entry of the list can equal what an unlisted address reads as (log entry 3). -/
def memRead (m : Mem) (a : Nat) : Byte := (memFind m a).getD (Config.memReset a)

/-- `mem[a] <- v`, keeping the addresses strictly rising. -/
def memWrite : Mem → Nat → Byte → Mem
  | [], a, v => [(a, v)]
  | (k, w) :: rest, a, v =>
    if a < k then (a, v) :: (k, w) :: rest
    else if a = k then (a, v) :: rest
    else (k, w) :: memWrite rest a v

/-- Every address of the list is above `lo`, and they rise strictly. -/
def memSorted : Nat → Mem → Bool
  | _, [] => true
  | lo, (k, _) :: rest => decide (lo ≤ k) && memSorted (k + 1) rest

/-- The canonical form of the Memory Space: addresses strictly rising (R36, log entry 3). -/
def memWf (m : Mem) : Bool := memSorted 0 m

/-- Every address of the list is below `size` (R68). -/
def memBelow (size : Nat) (m : Mem) : Bool := m.all fun c => decide (c.1 < size)

/-- `MemRead(addr, n)` (R10): `n` bytes in ascending address order. -/
def memReadBytes (m : Mem) (addr n : Nat) : List Byte := (List.range n).map fun j => memRead m (addr + j)

/-! ### The ring -/

/-- `(rin - rout) mod BUF_SIZE` (R24, R135). -/
def ringOcc (s : State) : Nat := (s.rin + s.cfg.bufSize - s.rout) % s.cfg.bufSize

/-- `rbuf[(i + k) mod BUF_SIZE] <- b[k]` for every byte of `b` in order (R131). -/
def ringStore (size : Nat) : List Byte → Nat → List Byte → List Byte
  | buf, _, [] => buf
  | buf, i, b :: bs => ringStore size (buf.set (i % size) b) (i + 1) bs

/-- `[rbuf[(rout + j) mod BUF_SIZE] for j in 0 .. k-1]` (R133). -/
def ringPeek (s : State) (k : Nat) : List Byte :=
  (List.range k).map fun j => byteAt s.rbuf ((s.rout + j) % s.cfg.bufSize)

/-- The live bytes of the ring, oldest first (R21, R72). -/
def ringLive (s : State) : List Byte := ringPeek s (ringOcc s)

/-- `RB_PUT(b)`: all the bytes or none (R131); `none` is `CAPACITY_EXCEEDED`. -/
def ringPut (b : List Byte) (s : State) : Option State :=
  if s.cfg.bufSize ≤ b.length + ringOcc s then none
  else some { s with rbuf := ringStore s.cfg.bufSize s.rbuf s.rin b, rin := (s.rin + b.length) % s.cfg.bufSize }

/-- `RB_GET(m)`: up to `m` of the oldest bytes leave the ring (R133). -/
def ringGet (m : Nat) (s : State) : List Byte × State :=
  let k := min m (ringOcc s)
  (ringPeek s k, { s with rout := (s.rout + k) % s.cfg.bufSize })

/-! ### The transport and the encoder -/

/-- `TX(f)`: the whole frame is appended in one step (R305; log entry 20). -/
def transmit (f : List Byte) (s : State) : State := { s with txq := s.txq ++ f }

/-- `ENCODE(type, payload)` with the CRC table and the `MAX_FRAME` of the state (R171). -/
def encodeIn (s : State) (ty : U16) (payload : List Byte) : Option (List Byte) :=
  encodeWith s.cfg s.crcTable ty payload

/-- `CRC_CHECKSUM(data, n)` with the table of the state (R153). -/
def checksumIn (s : State) (data : List Byte) (n : Nat) : U32 := crcChecksum s.crcTable data n

/-- The integer the environment answers a transport read with (R301): the next one scripted, else a free value. -/
def drawRead (s : State) : Int × State :=
  match s.readScript with
  | k :: rest => (k, { s with readScript := rest })
  | [] => (Config.readAnswer s.draws, { s with draws := s.draws + 1 })

/-- A transport read with `max_len = RX_CHUNK_MAX` that yields `k` bytes if there are so many: at most `RX_CHUNK_MAX` leave the
front of `rxq`, in order (R301). An empty stream delivers nothing whatever `k` is. -/
def transportTake (k : Nat) (s : State) : List Byte × State :=
  match s.rxq with
  | [] => ([], s)
  | b :: rest =>
    let n := min k (min s.cfg.rxChunkMax (b :: rest).length)
    ((b :: rest).take n, { s with rxq := (b :: rest).drop n })

/-- A transport read whose size the environment chooses: nothing for an answer that is not positive (R301). -/
def transportRead (s : State) : List Byte × State :=
  let p := drawRead s
  transportTake p.1.toNat p.2

/-- A transport read that yields at once what there is, up to the free space of an empty ring: one of the answers the
environment may give (R301; log entry 11). -/
def promptRead (s : State) : List Byte × State := transportTake (s.cfg.bufSize - 1) s

/-- How the handler `cb` behaves on the argument bytes `arg` (R286): as scripted, else it returns a free value within the
contract of R285. -/
def drawCallback (cb : Handle) (arg : List Byte) (s : State) : CbAnswer × State :=
  match s.cbScript with
  | a :: rest => (a, { s with cbScript := rest })
  | [] =>
    let ret := (Config.callbackReturn cb arg s.draws).take s.cfg.maxRet
    (.returns ret.length ret, { s with draws := s.draws + 1 })

/-- What a slot comes to hold of a body: the body; and of one longer than R31 lets a slot hold, where the spec states no
result, a free value of at most `MAX_FRAME - 9` bytes (log entry 22). -/
def drawBody (body : List Byte) (s : State) : List Byte × State :=
  if body.length + 9 ≤ s.cfg.maxFrame then (body, s)
  else ((Config.longBody body s.draws).take (s.cfg.maxFrame - 9), { s with draws := s.draws + 1 })

/-- The elements of a list in the order a number names: the number's remainder picks the next one, its quotient the rest.
Every permutation is named by some number (log entry 8). -/
def pickOrder {α : Type} : Nat → Nat → List α → List α
  | 0, _, l => l
  | fuel + 1, n, l =>
    match l[n % l.length]? with
    | none => l
    | some x => x :: pickOrder fuel (n / l.length) (l.eraseIdx (n % l.length))

end Sys2Proof.Machine
end

