-- ==== Sys2Proof/Machine/CrcEngine.lean ====
section
/-! DEFINITION. CRC32 Engine operations (spec/41_crc32.md): CRC_INIT, CRC_CHECKSUM, CRC_STORE, CRC_VERIFY. The engine is process-wide
(R25), so none of them asks for an initialised context. -/

namespace Sys2Proof.Machine

/-- CRC_INIT (R151): the table and `crc_init <- 1`; run again it writes the same values (R47). -/
def execCrcInit (s : State) : Out := .next (answer .done { s with crcTable := crcTableGen, crcInit := true })

/-- CRC_CHECKSUM (R153), for `n <= len(data)`; its accumulator is `crc_acc` (R27; log entry 15). -/
def execCrcChecksum (data : List Byte) (n : Nat) (s : State) : Out :=
  requireCrc s <|
    if n ≤ data.length then
      .next (answer (.okWord (checksumIn s data n)) { s with crcAcc := crcAccumulate s.crcTable (data.take n) })
    else .refused .beyondBuffer

/-- The contract of CRC_STORE and CRC_VERIFY: `4 <= T` (U9) and a buffer of at least `T` bytes (R156). -/
def requireTrailer (buf : List Byte) (total : Nat) (k : Out) : Out :=
  if total < 4 then .refused .noTrailer else if buf.length < total then .refused .beyondBuffer else k

/-- CRC_STORE (R156): answers the buffer with its trailer. -/
def execCrcStore (buf : List Byte) (total : Nat) (s : State) : Out :=
  requireCrc s <| requireTrailer buf total <|
    .next (answer (.okBytes (crcStoreTrailer s.crcTable buf total)) s)

/-- CRC_VERIFY (R157): a mismatch is the answer `false`, no error. -/
def execCrcVerify (buf : List Byte) (total : Nat) (s : State) : Out :=
  requireCrc s <| requireTrailer buf total <|
    .next (answer (.okBool (crcVerifyTrailer s.crcTable buf total)) s)

end Sys2Proof.Machine
end

