-- ==== Sys2Proof/Machine/FrameEncoder.lean ====
section
/-! DEFINITION. The frame encoder (spec/42_frame_encoder.md): ENCODE. It keeps no state between uses. -/

namespace Sys2Proof.Machine

/-- ENCODE (R171): `OK(f)` or `TOO_LARGE`. Nothing but the CRC table is read, so no context need be initialised. -/
def execEncodeFrame (ty : U16) (payload : List Byte) (s : State) : Out :=
  requireCrc s <|
    match encodeIn s ty payload with
    | some f => .next (answer (.okBytes f) s)
    | none => .next (answer .tooLarge s)

end Sys2Proof.Machine
end

