-- ==== Sys2Proof/Machine/Correlation.lean ====
section
/-! DEFINITION. The Correlation Engine and the master-side host commands (spec/44_correlation.md): WRITE_REMOTE_MEMORY,
READ_REMOTE_MEMORY, CALL_REMOTE_FUNCTION, CORR_DELIVER, CORR_WAIT, CORR_TICK, CORR_VALIDATE. -/

namespace Sys2Proof.Machine

/-- The class a response belongs to, by the low byte of its type alone (R101, R198). -/
def responseClass (sub : Byte) : Option CClass :=
  match sub.toNat with
  | 2 => some .read
  | 3 => some .func
  | _ => none

/-- `route_response` (R198): the body goes into the slot of its class, over whatever it held, with the signal; a low byte of no
class is dropped with a log entry. The parser delivers no body longer than a slot holds (R31, R193); for one, `drawBody`. -/
def corrDeliver (ty : U16) (body : List Byte) (s : State) : State :=
  match responseClass (typeSub ty) with
  | some c =>
    let p := drawBody body s
    answer .done (setClass c (signalBody p.1 (classRegs c s)) p.2)
  | none => answer .done (raise (.unknownType ty) s)

/-- The success type of a class (R230). -/
def okType : CClass → U16
  | .read => 0x6C02
  | .func => 0x6C03

/-- The error type of a class (R230). -/
def errType : CClass → U16
  | .read => 0x2C02
  | .func => 0x2C03

/-- `CORR_VALIDATE(c, r)` against the echo register (R230): length, type, then length, echo and declared length of a success
body; the first check that fails is the outcome (R333). -/
def validateBody (c : CClass) (echo : U16) (r : List Byte) : Result :=
  if r.length < 3 then .shortResponse
  else if u16be r 0 = errType c then .peerError (byteAt r 2)
  else if u16be r 0 = okType c then
    if r.length < 6 then .shortResponse
    else if u16be r 2 ≠ echo then .echoMismatch
    else if (u16be r 4).toNat ≠ r.length - 6 then .lengthMismatch
    else .okData (u16be r 4) (slice r 6 r.length)
  else .unexpectedType

/-- `issue(c, type, payload, echo)` (R225), one atomic step: refused on a class that is waiting (U1, R224); `TOO_LARGE` leaves
the class idle; else the class waits and the request is transmitted. `pend` and the slot are not cleared. -/
def issueCall (c : CClass) (ty : U16) (payload : List Byte) (echo : U16) (s : State) : Out :=
  if (classRegs c s).cstate = .waiting then .refused (.classBusy c)
  else
    match encodeIn s ty payload with
    | none => .next (answer .tooLarge s)
    | some f =>
      .next (answer .issued
        (transmit f (setClass c (issueRegs echo s.cfg.timeoutTicks (classRegs c s)) s)))

/-- WRITE_REMOTE_MEMORY (R221): fire and forget; touches no class. -/
def execWriteRemoteMemory (addr len : U16) (data : List Byte) (s : State) : Out :=
  requireInited s <| requireCrc s <|
    if len.toNat ≠ data.length then .refused .lengthOperand
    else
      match encodeIn s 0xEC01 (be16 addr ++ be16 len ++ data) with
      | none => .next (answer .tooLarge s)
      | some f => .next (answer .ok (transmit f s))

/-- READ_REMOTE_MEMORY (R222): the issuing step; the outcome comes from CORR_WAIT. -/
def execReadRemoteMemory (addr len : U16) (s : State) : Out :=
  requireInited s <| requireCrc s <| issueCall .read 0xEC02 (readReqPayload addr len) addr s

/-- CALL_REMOTE_FUNCTION (R223): the issuing step; the outcome comes from CORR_WAIT. -/
def execCallRemoteFunction (code : U16) (arg : List Byte) (s : State) : Out :=
  requireInited s <| requireCrc s <| issueCall .func 0xEC03 (keyedPayload code arg) code s

/-- CORR_DELIVER as an operation of its own: its operand `sub` is the low byte of `ty`, its operand `body` is `ty ++ payload`
(R198). -/
def execCorrDeliver (ty : U16) (payload : List Byte) (s : State) : Out :=
  requireInited s <| parserAgent s <| .next (corrDeliver ty (be16 ty ++ payload) s)

/-- CORR_WAIT (R228): a signalled body is taken and judged, before the timeout is looked at; then the timeout; else a hold. -/
def execCorrWait (c : CClass) (s : State) : Out :=
  requireInited s <|
    let r := classRegs c s
    if r.cstate ≠ .waiting then .refused (.classNotWaiting c)
    else if r.pend then .next (answer (validateBody c (echoValue c s) (slotBody r)) (setClass c (takeBody r) s))
    else if r.tcnt = 0 then .next (answer .timeout (setClass c { r with cstate := .idle } s))
    else .next (answer .hold s)

/-- CORR_TICK (R227): both classes. -/
def execCorrTick (s : State) : Out :=
  requireInited s <|
    .next (answer .done { s with readCls := tickRegs s.readCls, funcCls := tickRegs s.funcCls })

/-- CORR_VALIDATE (R230): writes no state. -/
def execCorrValidate (c : CClass) (r : List Byte) (s : State) : Out :=
  requireInited s <| .next (answer (validateBody c (echoValue c s) r) s)

end Sys2Proof.Machine
end

