-- ==== Sys2Proof/Machine/MemoryService.lean ====
section
/-! DEFINITION. Memory Service (spec/45_memory_service.md): MS_WRITE, MS_READ. The shared operations `msWrite` and `msRead` are what the
parser's ROUTE step calls too (R197). -/

namespace Sys2Proof.Machine

/-- The loop of R261 from index `i` on: the memory it leaves, and the first index that ran past the end. Partial writes
stay (R262). -/
def msWriteLoop (memSize addr : Nat) : Nat → List Byte → Mem → Mem × Option Nat
  | _, [], m => (m, none)
  | i, d :: ds, m =>
    if memSize ≤ addr + i then (m, some i) else msWriteLoop memSize addr (i + 1) ds (memWrite m (addr + i) d)

/-- `MS_WRITE(addr, len(data), data)` (R261): sends nothing; an overflow goes no further than the log. -/
def msWrite (addr : U16) (data : List Byte) (s : State) : State :=
  let r := msWriteLoop s.cfg.memSize addr.toNat 0 data s.mem
  match r.2 with
  | none => answer .ok { s with mem := r.1 }
  | some i => answer .addressOverflow (raise (.writeOverflow addr data.length i) { s with mem := r.1 })

/-- The length a read is clamped to (R263). -/
def msReadLen (memSize : Nat) (addr len : U16) : Nat :=
  if memSize < addr.toNat + len.toNat then memSize - addr.toNat else len.toNat

/-- `TX(ENCODE(..))` of an error reply. Its size is 7, and R7 leaves no `MAX_FRAME` under which that is too large. -/
def transmitReply (f : Option (List Byte)) (s : State) : State :=
  match f with
  | some f => transmit f s
  | none => s

/-- `MS_READ(addr, len)` (R263): READ_ERR for an address outside the memory, else READ_RSP with the clamped length; a reply
that does not fit a frame is not sent (R265). -/
def msRead (addr len : U16) (s : State) : State :=
  if s.cfg.memSize ≤ addr.toNat then
    answer .addressRange
      (transmitReply (encodeIn s 0x2C02 (errPayload wireErrorCode)) (raise (.rangeError addr) s))
  else
    let data := memReadBytes s.mem addr.toNat (msReadLen s.cfg.memSize addr len)
    match encodeIn s 0x6C02 (keyedPayload addr data) with
    | none => answer .tooLarge (raise (.replyTooLarge 0x02 data.length) s)
    | some f => answer .ok (transmit f s)

/-- MS_WRITE as an operation of its own. -/
def execMsWrite (addr : U16) (data : List Byte) (s : State) : Out :=
  requireInited s <| parserAgent s <| .next (msWrite addr data s)

/-- MS_READ as an operation of its own; its reply is encoded, so the CRC table must be ready (R372). -/
def execMsRead (addr len : U16) (s : State) : Out :=
  requireInited s <| requireCrc s <| parserAgent s <| .next (msRead addr len s)

end Sys2Proof.Machine
end

