-- ==== Sys2Proof/Machine/Registry.lean ====
section
/-! DEFINITION. Function Registry and Dispatcher (spec/46_function_registry.md): REGISTER_FUNCTION, LIST_FUNCTIONS, DISPATCH. -/

namespace Sys2Proof.Machine

/-- `lookup(code)` (R283): the callback of the entry with that code. -/
def lookup (code : U16) : List RegEntry → Option Handle
  | [] => none
  | e :: rest => if e.code = code then some e.callback else lookup code rest

/-- REGISTER_FUNCTION (R281): tests in the order invalid parameter, duplicate, allocation (R333). It alone has an answer on
a context that is not initialised (R374). The first registration of an empty registry tests nothing more. -/
def execRegisterFunction (code : U16) (callback : Handle) (s : State) : Out :=
  if s.inited = false ∨ callback = nullHandle then .next (answer .invalidParam s)
  else
    match s.reg with
    | [] => .next (answer .ok { s with reg := [⟨code, callback⟩] })
    | e :: rest =>
      if (lookup code (e :: rest)).isSome then .next (answer .duplicateCode s)
      else if (e :: rest).length = s.cfg.nFunc then .next (answer .allocFailure s)
      else .next (answer .ok { s with reg := (e :: rest) ++ [⟨code, callback⟩] })

/-- LIST_FUNCTIONS (R289): the registered codes, each once, in an order that is a free value (log entry 8). -/
def execListFunctions (s : State) : Out :=
  requireInited s <|
    .next (answer (.okCodes (pickOrder s.reg.length (Config.listOrder s.draws) (s.reg.map RegEntry.code)))
      { s with draws := s.draws + 1 })

/-- The reply to a call whose callback has returned `ret` (R284). -/
def dispatchReply (code : U16) (ret : List Byte) (s : State) : State :=
  match encodeIn s 0x6C03 (keyedPayload code ret) with
  | none => answer .tooLarge (raise (.replyTooLarge 0x03 ret.length) s)
  | some f => answer .ok (transmit f s)

/-- `DISPATCH(code, arg)` (R284). A callback outside its contract is refused (U4, U6); one that never returns leaves the
parser agent inside it for ever (U5, R286). -/
def dispatchCall (code : U16) (arg : List Byte) (s : State) : Out :=
  match lookup code s.reg with
  | none =>
    .next (answer .unknownFunction
      (transmitReply (encodeIn s 0x2C03 (errPayload wireErrorCode)) (raise (.unknownFunction code) s)))
  | some cb =>
    match drawCallback cb arg s with
    | (.returns declared ret, t) =>
      if declared = ret.length ∧ ret.length ≤ s.cfg.maxRet then .next (dispatchReply code ret t)
      else .refused .callbackContract
    | (.neverReturns, t) => .next (answer .hold { t with parserStuck := true })
    | (.usesContext, _) => .refused .callbackReentry

/-- DISPATCH as an operation of its own. -/
def execDispatch (code : U16) (arg : List Byte) (s : State) : Out :=
  requireInited s <| requireCrc s <| parserAgent s <| dispatchCall code arg s

end Sys2Proof.Machine
end

