-- ==== Sys2Proof/Machine/FrameParser.lean ====
section
/-! DEFINITION. The frame parser (spec/43_frame_parser.md): PARSE_SEEK_SYNC, PARSE_READ_LENGTH, PARSE_READ_BODY, PARSE_ROUTE. What each
step does is a shared operation, so that the PARSE instructions, COOP_STEP and the arrival of a frame (Frames.lean) run one
and the same machine. With `SCHED = COOPERATIVE` the host agent performs these steps, inside COOP_STEP alone (R307, R389). -/

namespace Sys2Proof.Machine

/-- `abuf[acnt .. acnt+len(r)) <- r ; acnt <- acnt + len(r)` (R193, R194). -/
def assemble (r : List Byte) (s : State) : State :=
  { s with abuf := splice s.abuf s.acnt r, acnt := s.acnt + r.length }

/-- `acnt <- 0 ; ps <- SEEK_SYNC` (R193, R195). -/
def resync (s : State) : State := { s with acnt := 0, ps := .seekSync }

/-- SEEK_SYNC on the bytes obtained (R192). -/
def seekSyncOn (r : List Byte) (s : State) : State :=
  match r with
  | [] => answer .hold s
  | b :: _ =>
    if b ≠ sync1 then answer .done (raise (.badSync1 b) s)
    else answer .done { s with abuf := splice s.abuf 0 [sync1], acnt := 1, ps := .readLength }

/-- The checks of READ_LENGTH once four bytes are assembled, in the order of R193: second sync byte, oversize, undersize. -/
def checkHeader (s : State) : State :=
  let size := u16be s.abuf 2
  if byteAt s.abuf 1 ≠ sync2 then resync (raise (.badSync2 (byteAt s.abuf 1)) s)
  else if s.cfg.maxFrame ≤ size.toNat + 4 then resync (raise (.oversize size) s)
  else if size.toNat < 6 then resync (raise (.undersize size) s)
  else { s with asize := size, ps := .readBody }

/-- READ_LENGTH on the bytes obtained (R193). -/
def readLengthOn (r : List Byte) (s : State) : State :=
  let t := assemble r s
  if t.acnt < 4 then (if r = [] then answer .hold s else answer .done t)
  else answer .done (checkHeader t)

/-- READ_BODY on the bytes obtained (R194). -/
def readBodyOn (r : List Byte) (s : State) : State :=
  let t := assemble r s
  if t.acnt = s.asize.toNat + 4 then answer .done { t with ps := .route }
  else if r = [] then answer .hold s
  else answer .done t

/-- The bytes a step asks for in the current state (R192 to R194); ROUTE asks for none. -/
def wanted (s : State) : Nat :=
  match s.ps with
  | .seekSync => 1
  | .readLength => 4 - s.acnt
  | .readBody => s.asize.toNat + 4 - s.acnt
  | .route => 0

/-- The step of SEEK_SYNC, READ_LENGTH or READ_BODY on the bytes obtained (R190). -/
def collectOn (r : List Byte) (s : State) : State :=
  match s.ps with
  | .seekSync => seekSyncOn r s
  | .readLength => readLengthOn r s
  | .readBody => readBodyOn r s
  | .route => s

/-- The same step with the bytes taken from the ring. -/
def collectStep (s : State) : State :=
  let g := ringGet (wanted s) s
  collectOn g.1 g.2

/-- `route_request(sub, payload)` (R197): the payload's own length field must agree with its length, else the request is
dropped as `Malformed`, without a reply. -/
def routeRequest (ty : U16) (payload : List Byte) (s : State) : Out :=
  let sub := typeSub ty
  let key := u16be payload 0
  let len := u16be payload 2
  let p := payload.length
  match sub.toNat with
  | 1 =>
    if p < 4 ∨ p ≠ 4 + len.toNat then .next (answer .done (raise (.malformed sub) s))
    else .next (msWrite key (payload.drop 4) s)
  | 2 =>
    if p ≠ 4 then .next (answer .done (raise (.malformed sub) s))
    else .next (msRead key len s)
  | 3 =>
    if p < 4 ∨ p ≠ 4 + len.toNat then .next (answer .done (raise (.malformed sub) s))
    else dispatchCall key (payload.drop 4) s
  | _ => .next (answer .done (raise (.unknownType ty) s))

/-- The end of a ROUTE step: `acnt <- 0 ; ps <- SEEK_SYNC`, always (R195), but for a parser agent that never comes back from
a callback (U5). -/
def routeEnd (s : State) : State := if s.parserStuck then s else resync s

/-- ROUTE (R195): the integrity check before anything else, then request or response by bit 15 of the type. -/
def routeStep (s : State) : Out :=
  let total := s.asize.toNat + 4
  let ty := u16be s.abuf 4
  let o :=
    if crcVerifyTrailer s.crcTable s.abuf total = false then
      .next (answer .done (raise (.crcFail (u32be s.abuf (total - 4)) (checksumIn s s.abuf (total - 4))) s))
    else if typeReq ty then routeRequest ty (slice s.abuf 6 (total - 4)) s
    else .next (corrDeliver ty (slice s.abuf 4 (total - 4)) s)
  andThen o fun t => .next (routeEnd t)

/-- A parser step belongs to one value of `ps` (R190). -/
def requireParser (p : ParserState) (s : State) (k : Out) : Out :=
  if s.ps = p then k else .refused (.otherParserState s.ps)

/-- PARSE_SEEK_SYNC (R192). -/
def execParseSeekSync (s : State) : Out :=
  requireInited s <| onItsOwn s <| parserAgent s <| requireParser .seekSync s <| .next (collectStep s)

/-- PARSE_READ_LENGTH (R193). -/
def execParseReadLength (s : State) : Out :=
  requireInited s <| onItsOwn s <| parserAgent s <| requireParser .readLength s <| .next (collectStep s)

/-- PARSE_READ_BODY (R194). -/
def execParseReadBody (s : State) : Out :=
  requireInited s <| onItsOwn s <| parserAgent s <| requireParser .readBody s <| .next (collectStep s)

/-- PARSE_ROUTE (R195). -/
def execParseRoute (s : State) : Out :=
  requireInited s <| requireCrc s <| onItsOwn s <| parserAgent s <| requireParser .route s <| routeStep s

end Sys2Proof.Machine
end

