-- ==== Sys2Proof/Machine/IngressPump.lean ====
section
/-! DEFINITION. The Ingress Pump (spec/47_ingress_pump.md): INITIALIZE, RX_STEP, TX, COOP_STEP. -/

namespace Sys2Proof.Machine

/-- INITIALIZE (R308, and R46 for `txq`): everything it does not write keeps the value it has (R46). The CRC table must be ready (R372) and the
context new (U13). -/
def execInitContext (handle readFn writeFn : Handle) (s : State) : Out :=
  requireCrc s <|
    if s.inited then .refused .alreadyInitialized
    else
      .next (answer .ok
        { s with
          handle := handle, readFn := readFn, writeFn := writeFn
          rin := 0, rout := 0
          ps := .seekSync, acnt := 0
          readCls := clearClassFlags s.readCls, funcCls := clearClassFlags s.funcCls
          reg := []
          rxHold := [], txq := [], log := []
          parserStuck := false
          inited := true })

/-- A chunk goes into the ring, or is held or dropped where the ring rejects it (R302). -/
def rxDeliver (chunk : List Byte) (s : State) : State :=
  match ringPut chunk s with
  | some t => { t with rxHold := [] }
  | none =>
    match s.cfg.rxOnFull with
    | .retry => { s with rxHold := chunk }
    | .drop => raise (.rxOverrun chunk.length) { s with rxHold := [] }

/-- RX_STEP over a transport read (R302): the held chunk first; else one read, of which a non-positive answer ends the
step. -/
def rxStepBy (read : State → List Byte × State) (s : State) : State :=
  match s.rxHold with
  | b :: rest => answer .done (rxDeliver (b :: rest) s)
  | [] =>
    match read s with
    | ([], t) => answer .done t
    | (b :: rest, t) => answer .done (rxDeliver (b :: rest) t)

/-- RX_STEP with the read the environment chooses. -/
def rxStep (s : State) : State := rxStepBy transportRead s

/-- RX_STEP (R302), by the RX agent on its own. -/
def execRxStep (s : State) : Out := requireInited s <| onItsOwn s <| .next (rxStep s)

/-- TX (R305). -/
def execTx (f : List Byte) (s : State) : Out := requireInited s <| .next (answer .ok (transmit f s))

/-- Parser steps until one holds or one ROUTE step has been completed (R310). Every other step takes a byte from the ring, so
`fuel` above the occupancy is enough. -/
def coopParse : Nat → State → Out
  | 0, s => .next (answer .hold s)
  | fuel + 1, s =>
    if s.ps = .route then
      andThen (routeStep s) fun t => .next (answer (if t.parserStuck then .hold else .frame) t)
    else
      let t := collectStep s
      if t.res = .hold then .next t else coopParse fuel t

/-- How one pass of the loop of R310 ends: `FRAME`, `NOFRAME`, or the loop goes round again, which is a hold of the host agent
until its next COOP_STEP (log entry 13). -/
def coopEnd (s : State) : State :=
  if s.res = .frame ∨ s.parserStuck then s
  else if someTimedOut s ∨ noneWaiting s then answer .noFrame s
  else answer .hold s

/-- COOP_STEP (R310), one pass of its loop: RX_STEP, then parser steps. -/
def execCoopStep (s : State) : Out :=
  requireInited s <| requireCrc s <|
    if s.cfg.sched ≠ .cooperative then .refused .notCooperative
    else parserAgent s <|
      let t := rxStep s
      andThen (coopParse (ringOcc t + 2) t) fun u => .next (coopEnd u)

end Sys2Proof.Machine
end

