-- ==== Sys2Proof/Machine/Frames.lean ====
section
/-! DEFINITION. The seven wire frames as instructions (spec/30_encoding.md R100, R101): a frame arrives in `rxq`, the RX
agent moves its bytes into the ring (spec/47_ingress_pump.md R302), and the parser agent takes them through the four parser
states and routes it (spec/43_frame_parser.md R192 to R198). -/

namespace Sys2Proof.Machine

/-- The RX agent and the parser agent step in turn until no byte is on its way to the parser and no ROUTE step is due, or a
callback never returns: the parser takes what is in the ring, and when the ring is empty the RX agent moves on what is held
back or waits in `rxq`. Every byte goes through the ring, by R302 and R190 alone, so bytes are parsed in the order they
arrived (R71). A step moves a byte out of `rxq` or `rx_hold`, takes one out of the ring, or is a ROUTE step, so `fuel` of
three times the bytes and two is enough; less would stop the run of steps early, which is a run too. -/
def pump : Nat → State → Out
  | 0, s => .next s
  | fuel + 1, s =>
    if s.parserStuck then .next s
    else if s.ps = .route then andThen (routeStep s) (pump fuel)
    else if s.rin ≠ s.rout then pump fuel (collectStep s)
    else if s.rxHold.isEmpty && s.rxq.isEmpty then .next s
    else pump fuel (rxStepBy promptRead s)

/-- The arrival of bytes: the environment appends them to `rxq` (R300), behind all that arrived before, and the RX agent and
the parser agent make their steps until all is parsed (log entry 11). With `SCHED = COOPERATIVE` neither steps on its own: the
bytes wait in `rxq` for the host agent (R307, R389), as they do for a parser agent that never comes back from a callback
(R382). -/
def receiveBytes (bs : List Byte) (s : State) : Out :=
  requireInited s <| requireCrc s <|
    let t := { s with rxq := s.rxq ++ bs }
    if s.cfg.sched = .cooperative then .next (answer .hold t)
    else parserAgent t <| pump (3 * (ringOcc t + t.rxHold.length + t.rxq.length) + 2) (answer .done t)

/-- A received frame of type `ty` (R90). -/
def receiveFrame (ty : U16) (f : Frame) (s : State) : Out := receiveBytes (frameBytes ty f) s

/-- WRITE_REQ (R100, R197, R261): a good frame stores its data; nothing is sent. -/
def execWriteReq (f : Frame) (s : State) : Out := receiveFrame (frameType true f.hi 0x01) f s

/-- READ_REQ (R100, R197, R263): a good frame is answered by READ_RSP or READ_ERR. -/
def execReadReq (f : Frame) (s : State) : Out := receiveFrame (frameType true f.hi 0x02) f s

/-- FUNC_REQ (R100, R197, R284): a good frame is answered by FUNC_RSP or FUNC_ERR. -/
def execFuncReq (f : Frame) (s : State) : Out := receiveFrame (frameType true f.hi 0x03) f s

/-- READ_RSP (R100, R198): a good frame's body goes into `slot[READ]`; CORR_WAIT judges it (R230). -/
def execReadRsp (f : Frame) (s : State) : Out := receiveFrame (frameType false f.hi 0x02) f s

/-- FUNC_RSP (R100, R198): a good frame's body goes into `slot[FUNC]`; CORR_WAIT judges it (R230). -/
def execFuncRsp (f : Frame) (s : State) : Out := receiveFrame (frameType false f.hi 0x03) f s

/-- READ_ERR (R100, R103, R198): its body goes into `slot[READ]`; CORR_WAIT answers `PEER_ERROR` (R230). -/
def execReadErr (f : Frame) (s : State) : Out := receiveFrame (frameType false f.hi 0x02) f s

/-- FUNC_ERR (R100, R103, R198): its body goes into `slot[FUNC]`; CORR_WAIT answers `PEER_ERROR` (R230). -/
def execFuncErr (f : Frame) (s : State) : Out := receiveFrame (frameType false f.hi 0x03) f s

end Sys2Proof.Machine
end

