-- ==== Sys2Proof/Machine/RingBuffer.lean ====
section
/-! DEFINITION. Ring Buffer operations (spec/40_ring_buffer.md): RB_PUT, RB_GET, RB_SIZE. None ever holds of itself (R130). -/

namespace Sys2Proof.Machine

/-- RB_PUT (R131) by the producer (R136): `OK(n)`, or `CAPACITY_EXCEEDED` with nothing stored. -/
def execRbPut (b : List Byte) (s : State) : Out :=
  requireInited s <| requireProducer s <|
    match ringPut b s with
    | some t => .next (answer (.okCount b.length) t)
    | none => .next (answer .capacityExceeded s)

/-- RB_GET (R133) by the consumer (R136): `OK(r)` with `len(r) = min(m, occupancy)`. -/
def execRbGet (m : Nat) (s : State) : Out :=
  requireInited s <| requireConsumer s <| parserAgent s <| .next (answer (.okBytes (ringGet m s).1) (ringGet m s).2)

/-- RB_SIZE (R135). -/
def execRbSize (s : State) : Out := requireInited s <| .next (answer (.okCount (ringOcc s)) s)

end Sys2Proof.Machine
end

