-- ==== Sys2Proof/Machine/Dispatch.lean ====
section
/-! DEFINITION. The one arm per instruction of spec/opcode_table.json. -/

namespace Sys2Proof.Machine

def exec (i : Instr) (s : State) : Host.Outcome State Fault Refusal :=
  match i with
  | .writeReq f => Sys2Proof.Machine.execWriteReq f s
  | .readReq f => Sys2Proof.Machine.execReadReq f s
  | .funcReq f => Sys2Proof.Machine.execFuncReq f s
  | .readRsp f => Sys2Proof.Machine.execReadRsp f s
  | .funcRsp f => Sys2Proof.Machine.execFuncRsp f s
  | .readErr f => Sys2Proof.Machine.execReadErr f s
  | .funcErr f => Sys2Proof.Machine.execFuncErr f s
  | .initContext handle readFn writeFn => Sys2Proof.Machine.execInitContext handle readFn writeFn s
  | .writeRemoteMemory addr len data => Sys2Proof.Machine.execWriteRemoteMemory addr len data s
  | .readRemoteMemory addr len => Sys2Proof.Machine.execReadRemoteMemory addr len s
  | .registerFunction code callback => Sys2Proof.Machine.execRegisterFunction code callback s
  | .callRemoteFunction code arg => Sys2Proof.Machine.execCallRemoteFunction code arg s
  | .listFunctions => Sys2Proof.Machine.execListFunctions s
  | .rbPut b => Sys2Proof.Machine.execRbPut b s
  | .rbGet m => Sys2Proof.Machine.execRbGet m s
  | .rbSize => Sys2Proof.Machine.execRbSize s
  | .crcInit => Sys2Proof.Machine.execCrcInit s
  | .crcChecksum data n => Sys2Proof.Machine.execCrcChecksum data n s
  | .crcStore buf total => Sys2Proof.Machine.execCrcStore buf total s
  | .crcVerify buf total => Sys2Proof.Machine.execCrcVerify buf total s
  | .encodeFrame ty payload => Sys2Proof.Machine.execEncodeFrame ty payload s
  | .parseSeekSync => Sys2Proof.Machine.execParseSeekSync s
  | .parseReadLength => Sys2Proof.Machine.execParseReadLength s
  | .parseReadBody => Sys2Proof.Machine.execParseReadBody s
  | .parseRoute => Sys2Proof.Machine.execParseRoute s
  | .corrDeliver ty payload => Sys2Proof.Machine.execCorrDeliver ty payload s
  | .corrWait c => Sys2Proof.Machine.execCorrWait c s
  | .corrTick => Sys2Proof.Machine.execCorrTick s
  | .corrValidate c r => Sys2Proof.Machine.execCorrValidate c r s
  | .msWrite addr data => Sys2Proof.Machine.execMsWrite addr data s
  | .msRead addr len => Sys2Proof.Machine.execMsRead addr len s
  | .dispatch code arg => Sys2Proof.Machine.execDispatch code arg s
  | .rxStep => Sys2Proof.Machine.execRxStep s
  | .tx f => Sys2Proof.Machine.execTx f s
  | .coopStep => Sys2Proof.Machine.execCoopStep s

end Sys2Proof.Machine
end

