-- ==== Sys2Proof/WellFormed.lean ====
section
/-! DEFINITION. Which terms of `Instr` stand for an instruction: the lengths fit the encoding (spec/30_encoding.md R90, R92, R101,
R105; the operand layout of host commands and unit operations is log entry 4). -/

namespace Sys2Proof

/-- A byte string whose length fits the 32-bit length of the operand layout. -/
abbrev strWf (b : List Byte) : Bool := decide (b.length < 4294967296)

/-- A natural number that fits 32 bits of the operand layout. -/
abbrev natWf (n : Nat) : Bool := decide (n < 4294967296)

/-- The size field counts type, payload and trailer (R92): the payload is `size - 6` bytes. A size field below 6, which the
parser rejects as `Undersize`, has no payload. -/
abbrev frameWf (f : Frame) : Bool := decide (f.payload.length = f.size.toNat - 6)

/-- type[14:8] of the two error responses (R93). -/
def errHi : BitVec 7 := 0x2C

/-- Well-formedness of an instruction. A success response is told from an error response of its class by type[14:8]
(R100, R101): `2C` is the error response, anything else is read as the success row. -/
def Instr.wf : Instr → Bool
  | .writeReq f => frameWf f
  | .readReq f => frameWf f
  | .funcReq f => frameWf f
  | .readRsp f => frameWf f && decide (f.hi ≠ errHi)
  | .funcRsp f => frameWf f && decide (f.hi ≠ errHi)
  | .readErr f => frameWf f && decide (f.hi = errHi)
  | .funcErr f => frameWf f && decide (f.hi = errHi)
  | .initContext _ _ _ => true
  | .writeRemoteMemory _ _ data => strWf data
  | .readRemoteMemory _ _ => true
  | .registerFunction _ _ => true
  | .callRemoteFunction _ arg => strWf arg
  | .listFunctions => true
  | .rbPut b => strWf b
  | .rbGet m => natWf m
  | .rbSize => true
  | .crcInit => true
  | .crcChecksum data n => strWf data && natWf n
  | .crcStore buf total => strWf buf && natWf total
  | .crcVerify buf total => strWf buf && natWf total
  | .encodeFrame _ payload => strWf payload
  | .parseSeekSync => true
  | .parseReadLength => true
  | .parseReadBody => true
  | .parseRoute => true
  | .corrDeliver _ payload => strWf payload
  | .corrWait _ => true
  | .corrTick => true
  | .corrValidate _ r => strWf r
  | .msWrite _ data => decide (data.length < 65536)
  | .msRead _ _ => true
  | .dispatch _ arg => strWf arg
  | .rxStep => true
  | .tx f => strWf f
  | .coopStep => true

end Sys2Proof
end

