-- ==== Sys2Proof/Decode.lean ====
section
/-! DEFINITION. The decoder and the encoder. A frame is laid out as spec/30_encoding.md R90 has it and classified by the receiver's
match of R101; a host command or unit operation starts with the select code of R104 or R106, and its operands, to which the
spec gives no encoding, follow in the layout of log entry 4: a u16 in two bytes, a natural number or a handle in four, a byte
string as its length in four bytes and then its bytes, everything most significant byte first. -/

namespace Sys2Proof

/-- Why a byte string does not start with an instruction. -/
inductive DecodeError where
  /-- No byte is left. -/
  | empty
  /-- The operands of a host command or unit operation are not all there. -/
  | truncated
  /-- The bytes of a frame are not all there: `bs` is what there is of it. -/
  | truncatedFrame (bs : List Byte)
  /-- The first byte is neither `SYNC1` nor a select code of R104 or R106. -/
  | unknownSelect (b : Byte) (rest : List Byte)
  /-- `SYNC1` is not followed by `SYNC2`: no frame, but a false start, which costs the parser the four bytes `bs` (R193,
  R200). -/
  | falseStart (bs rest : List Byte)
  /-- A frame whose type R102 calls illegal: no row of the table. -/
  | unknownType (ty : U16) (f : Frame) (rest : List Byte)
  /-- The class operand names no correlation class. -/
  | badClass (b : Byte)
deriving DecidableEq, Repr

/-! ### Reading operands -/

/-- One byte. -/
def getU8 : List Byte → Option (Byte × List Byte)
  | [] => none
  | b :: rest => some (b, rest)

/-- A u16 operand. -/
def getU16 (bs : List Byte) : Option (U16 × List Byte) :=
  if 2 ≤ bs.length then some (u16be bs 0, bs.drop 2) else none

/-- A u32 operand. -/
def getU32 (bs : List Byte) : Option (U32 × List Byte) :=
  if 4 ≤ bs.length then some (u32be bs 0, bs.drop 4) else none

/-- A natural number operand. -/
def getNat (bs : List Byte) : Option (Nat × List Byte) :=
  (getU32 bs).map fun p => (p.1.toNat, p.2)

/-- `n` bytes as they stand. -/
def getBytes (n : Nat) (bs : List Byte) : Option (List Byte × List Byte) :=
  if n ≤ bs.length then some (bs.take n, bs.drop n) else none

/-- A byte string operand. -/
def getStr (bs : List Byte) : Option (List Byte × List Byte) :=
  (getNat bs).bind fun p => getBytes p.1 p.2

/-- The data of MS_WRITE, whose length is the u16 operand `len` of R261. -/
def getStr16 (bs : List Byte) : Option (List Byte × List Byte) :=
  (getU16 bs).bind fun p => getBytes p.1.toNat p.2

/-- The class operand of CORR_WAIT and CORR_VALIDATE. -/
def classOf (b : Byte) : Option CClass :=
  match b.toNat with
  | 0 => some .read
  | 1 => some .func
  | _ => none

/-- One instruction built from operands that were read, or `truncated`. -/
def decoded {α : Type} (p : Option (α × List Byte)) (mk : α → Instr) : Except DecodeError (Instr × List Byte) :=
  match p with
  | some (a, rest) => .ok (mk a, rest)
  | none => .error .truncated

/-- Two operands read one after the other. -/
def get2 {α β : Type} (ga : List Byte → Option (α × List Byte)) (gb : List Byte → Option (β × List Byte))
    (bs : List Byte) : Option ((α × β) × List Byte) :=
  (ga bs).bind fun p => (gb p.2).map fun q => ((p.1, q.1), q.2)

/-- A class operand and then, for CORR_VALIDATE, the body. -/
def decodeClass (bs : List Byte) (k : CClass → List Byte → Except DecodeError (Instr × List Byte)) :
    Except DecodeError (Instr × List Byte) :=
  match bs with
  | [] => .error .truncated
  | b :: rest =>
    match classOf b with
    | some c => k c rest
    | none => .error (.badClass b)

/-! ### Frames -/

/-- The row of the table a received frame belongs to, by the receiver's match and mask of R101: bit 15 and the low byte; an
error response is told from a success response of its class by type[14:8]. `none` where R102 calls the type illegal. -/
def frameInstr (ty : U16) (f : Frame) : Option Instr :=
  if typeReq ty then
    match (typeSub ty).toNat with
    | 1 => some (.writeReq f)
    | 2 => some (.readReq f)
    | 3 => some (.funcReq f)
    | _ => none
  else
    match (typeSub ty).toNat with
    | 2 => some (if f.hi = errHi then .readErr f else .readRsp f)
    | 3 => some (if f.hi = errHi then .funcErr f else .funcRsp f)
    | _ => none

/-- A frame, its first sync byte already taken: sync2, size, type, `size - 6` bytes of payload, trailer (R90, R95). -/
def decodeFrame (bs : List Byte) : Except DecodeError (Instr × List Byte) :=
  if bs ≠ [] ∧ byteAt bs 0 ≠ sync2 then .error (.falseStart (sync1 :: bs.take 3) (bs.drop 3))
  else if bs.length < 5 then .error (.truncatedFrame (sync1 :: bs))
  else
    let size := u16be bs 1
    let ty := u16be bs 3
    let n := size.toNat - 6
    let tail := bs.drop 5
    if tail.length < n + 4 then .error (.truncatedFrame (sync1 :: bs))
    else
      let f : Frame := { hi := typeHi ty, size := size, payload := tail.take n, crc := u32be tail n }
      match frameInstr ty f with
      | some i => .ok (i, tail.drop (n + 4))
      | none => .error (.unknownType ty f (tail.drop (n + 4)))

/-! ### Host commands and unit operations -/

/-- The instruction a select code starts (R104, R106). -/
def decodeSelect (b : Byte) (bs : List Byte) : Except DecodeError (Instr × List Byte) :=
  match b.toNat with
  | 0x40 => decoded (get2 getU32 (get2 getU32 getU32) bs) fun p => .initContext p.1 p.2.1 p.2.2
  | 0x41 => decoded (get2 getU16 (get2 getU16 getStr) bs) fun p => .writeRemoteMemory p.1 p.2.1 p.2.2
  | 0x42 => decoded (get2 getU16 getU16 bs) fun p => .readRemoteMemory p.1 p.2
  | 0x43 => decoded (get2 getU16 getU32 bs) fun p => .registerFunction p.1 p.2
  | 0x44 => decoded (get2 getU16 getStr bs) fun p => .callRemoteFunction p.1 p.2
  | 0x45 => .ok (.listFunctions, bs)
  | 0x10 => decoded (getStr bs) .rbPut
  | 0x11 => decoded (getNat bs) .rbGet
  | 0x12 => .ok (.rbSize, bs)
  | 0x20 => .ok (.crcInit, bs)
  | 0x21 => decoded (get2 getStr getNat bs) fun p => .crcChecksum p.1 p.2
  | 0x22 => decoded (get2 getStr getNat bs) fun p => .crcStore p.1 p.2
  | 0x23 => decoded (get2 getStr getNat bs) fun p => .crcVerify p.1 p.2
  | 0x30 => decoded (get2 getU16 getStr bs) fun p => .encodeFrame p.1 p.2
  | 0x31 => .ok (.parseSeekSync, bs)
  | 0x32 => .ok (.parseReadLength, bs)
  | 0x33 => .ok (.parseReadBody, bs)
  | 0x34 => .ok (.parseRoute, bs)
  | 0x50 => decoded (get2 getU16 getStr bs) fun p => .corrDeliver p.1 p.2
  | 0x51 => decodeClass bs fun c rest => .ok (.corrWait c, rest)
  | 0x52 => .ok (.corrTick, bs)
  | 0x53 => decodeClass bs fun c rest => decoded (getStr rest) (.corrValidate c)
  | 0x60 => decoded (get2 getU16 getStr16 bs) fun p => .msWrite p.1 p.2
  | 0x61 => decoded (get2 getU16 getU16 bs) fun p => .msRead p.1 p.2
  | 0x70 => decoded (get2 getU16 getStr bs) fun p => .dispatch p.1 p.2
  | 0x80 => .ok (.rxStep, bs)
  | 0x81 => decoded (getStr bs) .tx
  | 0x82 => .ok (.coopStep, bs)
  | _ => .error (.unknownSelect b bs)

/-- The instruction at the front of a byte string and the bytes after it, or the reason there is none. No select code is
`SYNC1`, so the first byte decides. -/
def decode : List Byte → Except DecodeError (Instr × List Byte)
  | [] => .error .empty
  | b :: bs => if b = sync1 then decodeFrame bs else decodeSelect b bs

/-! ### The encoder -/

/-- A natural number operand. -/
def putNat (n : Nat) : List Byte := be32 (BitVec.ofNat 32 n)

/-- A byte string operand. -/
def putStr (b : List Byte) : List Byte := putNat b.length ++ b

/-- The class operand. -/
def putClass : CClass → List Byte
  | .read => [0]
  | .func => [1]

/-- The 16-bit type a frame row stands for, with type[14:8] as the frame has it (R93, R101). -/
def frameInstrType : Instr → U16
  | .writeReq f => frameType true f.hi 0x01
  | .readReq f => frameType true f.hi 0x02
  | .funcReq f => frameType true f.hi 0x03
  | .readRsp f => frameType false f.hi 0x02
  | .funcRsp f => frameType false f.hi 0x03
  | .readErr f => frameType false f.hi 0x02
  | .funcErr f => frameType false f.hi 0x03
  | _ => 0

/-- The bytes of an instruction: the frame itself (R90), or the select code (R104, R106) and the operands (log entry 4). -/
def encode (i : Instr) : List Byte :=
  match i with
  | .writeReq f => frameBytes (frameInstrType i) f
  | .readReq f => frameBytes (frameInstrType i) f
  | .funcReq f => frameBytes (frameInstrType i) f
  | .readRsp f => frameBytes (frameInstrType i) f
  | .funcRsp f => frameBytes (frameInstrType i) f
  | .readErr f => frameBytes (frameInstrType i) f
  | .funcErr f => frameBytes (frameInstrType i) f
  | .initContext h r w => 0x40 :: (be32 h ++ be32 r ++ be32 w)
  | .writeRemoteMemory addr len data => 0x41 :: (be16 addr ++ be16 len ++ putStr data)
  | .readRemoteMemory addr len => 0x42 :: (be16 addr ++ be16 len)
  | .registerFunction code cb => 0x43 :: (be16 code ++ be32 cb)
  | .callRemoteFunction code arg => 0x44 :: (be16 code ++ putStr arg)
  | .listFunctions => [0x45]
  | .rbPut b => 0x10 :: putStr b
  | .rbGet m => 0x11 :: putNat m
  | .rbSize => [0x12]
  | .crcInit => [0x20]
  | .crcChecksum data n => 0x21 :: (putStr data ++ putNat n)
  | .crcStore buf total => 0x22 :: (putStr buf ++ putNat total)
  | .crcVerify buf total => 0x23 :: (putStr buf ++ putNat total)
  | .encodeFrame ty payload => 0x30 :: (be16 ty ++ putStr payload)
  | .parseSeekSync => [0x31]
  | .parseReadLength => [0x32]
  | .parseReadBody => [0x33]
  | .parseRoute => [0x34]
  | .corrDeliver ty payload => 0x50 :: (be16 ty ++ putStr payload)
  | .corrWait c => 0x51 :: putClass c
  | .corrTick => [0x52]
  | .corrValidate c r => 0x53 :: (putClass c ++ putStr r)
  | .msWrite addr data => 0x60 :: (be16 addr ++ (be16 (len16 data) ++ data))
  | .msRead addr len => 0x61 :: (be16 addr ++ be16 len)
  | .dispatch code arg => 0x70 :: (be16 code ++ putStr arg)
  | .rxStep => [0x80]
  | .tx f => 0x81 :: putStr f
  | .coopStep => [0x82]

/-! ### The opcode table's words -/

/-- `n` bytes of a number, the lowest 8 bits last (big-endian). -/
def bytesBE : Nat → Nat → List Byte
  | 0, _ => []
  | n + 1, w => bytesBE n (w / 256) ++ [BitVec.ofNat 8 w]

/-- Zero bytes that complete any instruction whose operands are all zero. -/
def operandZeros : List Byte := List.replicate 16 0

/-- The bytes an opcode-table word stands for. The table numbers a frame's pattern over bytes 0 to 5 "read as one 48-bit
big-endian number" (R100, R107), so bits 47:40 are the first byte on the wire; where the sync word stands at the other end,
the word numbers byte by byte, its first byte in bits 7:0 (log entry 12). A host command or unit operation is its select
code. Every bit above `nbits` is zero. -/
def tableWordBytes (nbits w : Nat) : List Byte :=
  let bytes := bytesBE (nbits / 8) w
  (if nbits = 48 ∧ bytes.take 2 ≠ [sync1, sync2] then bytes.reverse else bytes) ++ operandZeros

/-- The instruction the decoder reads from a word of the opcode table. -/
def decodeTableWord (nbits w : Nat) : Option Instr :=
  match decode (tableWordBytes nbits w) with
  | .ok (i, _) => some i
  | .error _ => none

end Sys2Proof
end

