-- ==== Sys2Proof/Machine/Fetch.lean ====
section
/-! DEFINITION. What the port holds besides instructions: the acts of the host and of the environment that are no row of the opcode
table (spec/45_memory_service.md R266, spec/47_ingress_pump.md R300, R301; select codes F0 to F5 are the model's, log entry
23), a frame of an illegal type (R102), a false start or a part of a frame (R200, R386), and bytes that start
nothing. Then what puts an opcode-table word where the next step
takes its instruction (log entries 10, 18). -/

namespace Sys2Proof.Machine

/-- The bytes of an act. -/
def encodeAct : EnvAct → List Byte
  | .hostRead addr => 0xF0 :: be16 addr
  | .rxAppend b => 0xF1 :: putStr b
  | .txTake n => 0xF2 :: putNat n
  | .answerRead k => 0xF3 :: be32 (BitVec.ofInt 32 k)
  | .answerCallback (.returns declared ret) => 0xF4 :: 0 :: (putNat declared ++ putStr ret)
  | .answerCallback .neverReturns => [0xF4, 1]
  | .answerCallback .usesContext => [0xF4, 2]
  | .ringCaller none => [0xF5, 0]
  | .ringCaller (some .rx) => [0xF5, 1]
  | .ringCaller (some .parser) => [0xF5, 2]
  | .ringCaller (some .host) => [0xF5, 3]
  | .ringCaller (some .tick) => [0xF5, 4]

/-- An act built from operands that were read. -/
def decodedAct {α : Type} (p : Option (α × List Byte)) (mk : α → EnvAct) : Except Refusal (EnvAct × List Byte) :=
  match p with
  | some (a, rest) => .ok (mk a, rest)
  | none => .error .truncatedInstruction

/-- How a scripted callback behaves: 0 returns, 1 never returns, 2 uses its context. -/
def decodeCallbackAct (bs : List Byte) : Except Refusal (EnvAct × List Byte) :=
  match bs with
  | [] => .error .truncatedInstruction
  | tag :: rest =>
    match tag.toNat with
    | 0 => decodedAct (get2 getNat getStr rest) fun p => .answerCallback (.returns p.1 p.2)
    | 1 => .ok (.answerCallback .neverReturns, rest)
    | 2 => .ok (.answerCallback .usesContext, rest)
    | _ => .error (.unknownSelect tag)

/-- Who performs the ring operations: 0 the agent R136 has for them, else one of the four agents of R300. -/
def decodeRingCaller (bs : List Byte) : Except Refusal (EnvAct × List Byte) :=
  match bs with
  | [] => .error .truncatedInstruction
  | tag :: rest =>
    match tag.toNat with
    | 0 => .ok (.ringCaller none, rest)
    | 1 => .ok (.ringCaller (some .rx), rest)
    | 2 => .ok (.ringCaller (some .parser), rest)
    | 3 => .ok (.ringCaller (some .host), rest)
    | 4 => .ok (.ringCaller (some .tick), rest)
    | _ => .error (.notAnAgent tag)

/-- The act a byte selects. -/
def decodeAct (b : Byte) (bs : List Byte) : Except Refusal (EnvAct × List Byte) :=
  match b.toNat with
  | 0xF0 => decodedAct (getU16 bs) .hostRead
  | 0xF1 => decodedAct (getStr bs) .rxAppend
  | 0xF2 => decodedAct (getNat bs) .txTake
  | 0xF3 => decodedAct (getU32 bs) fun k => .answerRead k.toInt
  | 0xF4 => decodeCallbackAct bs
  | 0xF5 => decodeRingCaller bs
  | _ => .error (.unknownSelect b)

/-- What an act does. The host's local read takes one byte and changes nothing (R266, R67); an address outside the Memory
Space does not exist. The environment appends to `rxq`, takes from the front of `txq`, and settles the answers to come. -/
def execAct (a : EnvAct) (s : State) : Out :=
  match a with
  | .hostRead addr =>
    requireInited s <|
      if s.cfg.memSize ≤ addr.toNat then .fault (.noSuchAddress addr.toNat)
      else .next (answer (.okBytes [memRead s.mem addr.toNat]) s)
  | .rxAppend b => .next { s with rxq := s.rxq ++ b }
  | .txTake n => .next { s with txq := s.txq.drop n }
  | .answerRead k => .next { s with readScript := s.readScript ++ [k] }
  | .answerCallback b => .next { s with cbScript := s.cbScript ++ [b] }
  | .ringCaller a => .next { s with ringCaller := a }

/-- A step whose port does not start with an instruction. Nothing scheduled is no step of anybody (R346; log entry 28); a
frame of an illegal type is received like any other, and the parser drops it with a log entry (R102); so are the bytes of a
false start, which the parser takes and drops (R193, R200), and the first bytes of a frame whose rest is not there, on which
the parser waits (R386). -/
def stepOther (e : DecodeError) (s : State) : Out :=
  match e with
  | .empty => .next s
  | .truncated => .refused .truncatedInstruction
  | .truncatedFrame bs => receiveBytes bs { s with port := [] }
  | .falseStart bs rest => receiveBytes bs { s with port := rest }
  | .badClass b => .refused (.notAClass b)
  | .unknownType ty f rest => receiveFrame ty f { s with port := rest }
  | .unknownSelect b rest =>
    match decodeAct b rest with
    | .ok (a, rest') => execAct a { s with port := rest' }
    | .error r => .refused r

/-- The sequencing state (`ps` with `acnt`, what this hardware has in place of a program counter, R28) a parser step starts
from, with the shortest frame begun where the state must hold one (R29, R30); other instructions need nothing set. -/
def placeParser (i : Option Instr) (s : State) : State :=
  match i with
  | some .parseSeekSync => if s.ps = .seekSync then s else { s with ps := .seekSync, acnt := 0 }
  | some .parseReadLength =>
    if s.ps = .readLength then s else { s with ps := .readLength, acnt := 1, abuf := splice s.abuf 0 [sync1] }
  | some .parseReadBody =>
    if s.ps = .readBody then s
    else { s with ps := .readBody, acnt := 4, asize := 6, abuf := splice s.abuf 0 [sync1, sync2, 0, 6] }
  | some .parseRoute =>
    if s.ps = .route then s
    else { s with ps := .route, acnt := 10, asize := 6, abuf := splice s.abuf 0 [sync1, sync2, 0, 6] }
  | _ => s

end Sys2Proof.Machine
end

