-- ==== Sys2Proof/Machine/Step.lean ====
section
/-! DEFINITION. One step of the machine: the first instruction or act of the port is taken off it and performed. -/

namespace Sys2Proof.Machine

/-- One atomic step of one agent (spec/00_scope.md R11): whose step it is and which, the port says (log entry 10). -/
def step (s : State) : Host.Outcome State Fault Refusal :=
  match decode s.port with
  | .ok (i, rest) => exec i { s with port := rest }
  | .error e => stepOther e s

/-- The state with one opcode-table word as the next thing the port holds, and, for a parser step, the parser in the state
that step belongs to. -/
def State.withFetchWord (s : State) (nbits w : Nat) : State :=
  { placeParser (decodeTableWord nbits w) s with port := tableWordBytes nbits w }

end Sys2Proof.Machine
end

