-- ==== Sys2Proof/Safety.lean ====
section
/-! DEFINITION. What the spec says of every reachable state, as one decidable invariant (spec/10_state.md R22 to R37, spec/40_ring_buffer.md
R138, spec/46_function_registry.md R290), and the terms claims use: a state ready for an operation, a good frame. -/

namespace Sys2Proof.Machine

/-- The ring registers are in range (R21 to R23, R138). -/
abbrev RingInv (s : State) : Prop :=
  s.rbuf.length = s.cfg.bufSize ∧ s.rin < s.cfg.bufSize ∧ s.rout < s.cfg.bufSize

/-- The size field of the frame being assembled is one READ_LENGTH accepts (R30). -/
abbrev SizeInv (s : State) : Prop := 6 ≤ s.asize.toNat ∧ s.asize.toNat + 5 ≤ s.cfg.maxFrame

/-- The parser registers agree with `ps` (R29, R30). -/
abbrev ParserInv (s : State) : Prop :=
  s.abuf.length = s.cfg.maxFrame ∧ (s.ps = .seekSync → s.acnt = 0) ∧ (s.ps = .readLength → 1 ≤ s.acnt ∧ s.acnt ≤ 3) ∧
    (s.ps = .readBody → SizeInv s ∧ 4 ≤ s.acnt ∧ s.acnt < s.asize.toNat + 4) ∧
    (s.ps = .route → SizeInv s ∧ s.acnt = s.asize.toNat + 4)

/-- The registers of a class agree (R31, R32, R35): the slot holds `slot_len` bytes, at most `MAX_FRAME - 9`; it is valid exactly
when it is signalled; the counter is at most `TIMEOUT_TICKS`; a class that waits has had its echo register written (R225,
R48). -/
abbrev ClassInv (c : Config) (r : ClassRegs) : Prop :=
  r.slot.length = r.slotLen ∧ r.slotLen + 9 ≤ c.maxFrame ∧ r.slotValid = r.pend ∧ r.tcnt ≤ c.timeoutTicks ∧
    (r.cstate = .waiting → r.echoSet = true)

/-- The registry: codes pairwise different, at most `N_FUNC` entries, no null handler (R37, R281, R290). -/
abbrev RegistryInv (s : State) : Prop :=
  (s.reg.map RegEntry.code).Nodup ∧ s.reg.length ≤ s.cfg.nFunc ∧ ∀ e ∈ s.reg, e.callback ≠ nullHandle

/-- The chunk held back is at most a chunk, and there is none where a rejected chunk is dropped (R39, R302). -/
abbrev HoldInv (s : State) : Prop :=
  s.rxHold.length ≤ s.cfg.rxChunkMax ∧ (s.cfg.rxOnFull = .drop → s.rxHold = [])

/-- The CRC engine: an initialised context has its table (R372), and a table that is ready is the generated one (R47). -/
abbrev CrcInv (s : State) : Prop :=
  (s.inited = true → s.crcInit = true) ∧ (s.crcInit = true → s.crcTable = crcTableGen)

/-- The Memory Space is in canonical form and holds no address outside it (R36, R68). -/
abbrev MemInv (s : State) : Prop := memWf s.mem = true ∧ memBelow s.cfg.memSize s.mem = true

/-- Everything the spec says of a reachable state. -/
structure Inv (s : State) : Prop where
  cfg : configWf s.cfg
  ring : RingInv s
  parser : ParserInv s
  readCls : ClassInv s.cfg s.readCls
  funcCls : ClassInv s.cfg s.funcCls
  registry : RegistryInv s
  hold : HoldInv s
  crc : CrcInv s
  mem : MemInv s

/-- The CRC engine is ready: `CRC_INIT` has run, and the table is the one it generates (R47, R372). -/
abbrev Engine (s : State) : Prop := s.crcInit = true ∧ s.crcTable = crcTableGen

/-- RB_PUT is performed by the one producer of the ring (R136). -/
abbrev ProducerCalls (s : State) : Prop := s.ringCaller = none ∨ s.ringCaller = some (ringProducer s.cfg)

/-- RB_GET is performed by the one consumer of the ring (R136). -/
abbrev ConsumerCalls (s : State) : Prop := s.ringCaller = none ∨ s.ringCaller = some (ringConsumer s.cfg)

/-- The context is initialised and the engine ready: what every operation that encodes or checks a frame asks for (R372,
R374). -/
abbrev Running (s : State) : Prop := s.inited = true ∧ Engine s

/-- The RX agent and the parser agent step on their own (R307). -/
abbrev AgentsRun (s : State) : Prop := s.cfg.sched ≠ .cooperative

/-- The parser agent can step: on its own (R307), and in no callback that never returns (U5). -/
abbrev ParserRuns (s : State) : Prop := AgentsRun s ∧ s.parserStuck = false

/-- The parser is between frames and no byte is on its way to it: the next byte it takes is the first of the next frame
(R45, R71). -/
abbrev InStep (s : State) : Prop :=
  s.ps = .seekSync ∧ s.acnt = 0 ∧ s.rin = s.rout ∧ s.rxHold = [] ∧ s.rxq = []

/-- A state that receives the next frame whole: the parameters are legal, the ring indices in range, and the RX agent and the
parser agent step on their own (R307). -/
abbrev Receiving (s : State) : Prop :=
  Running s ∧ ParserRuns s ∧ InStep s ∧ configWf s.cfg ∧ RingInv s

/-- The state with `n` bytes gone through the ring since it was empty: both indices advanced by `n`, as `n` bytes put and `n`
bytes got leave them (R131, R133), over some storage, which is dead (R21). -/
def State.ringPassed (s : State) (n : Nat) (storage : List Byte) : State :=
  { s with rbuf := storage, rin := (s.rin + n) % s.cfg.bufSize, rout := (s.rin + n) % s.cfg.bufSize }

/-- The state with another scheduling model (R307). -/
def State.scheduled (s : State) (m : Sched) : State := { s with cfg := { s.cfg with sched := m } }

/-- A frame of type `ty` that passes the parser's checks (R193, R195): its size field agrees with its payload (R92) and is in
range, and its trailer is the checksum, bit by bit (R155), of the bytes before it (R94). -/
abbrev GoodFrame (s : State) (ty : U16) (f : Frame) : Prop :=
  f.size.toNat + 4 < s.cfg.maxFrame ∧ f.payload.length + 6 = f.size.toNat ∧
    f.crc = crcBitwise (frameHead ty f.size f.payload)

/-- A payload short enough for a frame: `p + 6 < MAX_FRAME - 4` (R171). -/
abbrev Fits (s : State) (payload : List Byte) : Prop := payload.length + 10 < s.cfg.maxFrame

/-- The bytes R171 gives ENCODE(type, payload), with the checksum bit by bit (R155). -/
def wireFrame (ty : U16) (payload : List Byte) : List Byte :=
  let head := [0xEB, 0x90] ++ be16 (BitVec.ofNat 16 (payload.length + 6)) ++ be16 ty ++ payload
  head ++ be32 (crcBitwise head)

/-- A frame as R306 describes one: sync, size the length less 4, trailer the CRC32 of the rest. -/
abbrev FrameShape (f : List Byte) : Prop :=
  10 ≤ f.length ∧ f.take 2 = [0xEB, 0x90] ∧ (u16be f 2).toNat + 4 = f.length ∧
    u32be f (f.length - 4) = crcBitwise (f.take (f.length - 4))

/-- The first byte of an instruction's encoding: the select code of R104 or R106, or the first sync byte (R90). -/
abbrev Selects (i : Instr) (code : Byte) : Prop := (encode i).head? = some code

/-- A callback inside its contract (R285, R286): it returns, at most `MAX_RET` bytes, and declares their number. -/
def callbackKeepsContract (c : Config) : CbAnswer → Bool
  | .returns declared ret => decide (declared = ret.length) && decide (ret.length ≤ c.maxRet)
  | .neverReturns => false
  | .usesContext => false

/-- What successive RB_GET instructions return, put together, and the state after them; `none` if one does not answer. -/
def successiveGets : List Nat → State → Option (List Byte × State)
  | [], s => some ([], s)
  | m :: ms, s =>
    match exec (.rbGet m) s with
    | .next t =>
      match t.res with
      | .okBytes r => (successiveGets ms t).map fun p => (r ++ p.1, p.2)
      | _ => none
    | _ => none

/-- The PARSE instruction of the parser's current state (R190). -/
def parseStep (s : State) : Out :=
  match s.ps with
  | .seekSync => exec .parseSeekSync s
  | .readLength => exec .parseReadLength s
  | .readBody => exec .parseReadBody s
  | .route => exec .parseRoute s

/-- The parser agent's PARSE instructions one after the other, until one holds or a ROUTE step has been made (R310); `n` bounds
their number. -/
def parserSteps : Nat → State → Out
  | 0, s => .next { s with res := .hold }
  | n + 1, s =>
    andThen (parseStep s) fun t => if s.ps = .route ∨ t.res = .hold then .next t else parserSteps n t

/-- At most `n` PARSE instructions one after the other, as long as the ring is not empty and a frame is not complete. -/
def parseWhileBytes : Nat → State → Out
  | 0, s => .next s
  | n + 1, s => if s.ps = .route ∨ s.rin = s.rout then .next s else andThen (parseStep s) (parseWhileBytes n)

/-- Bytes that reach the parser in pieces: each is put into the ring, and the parser takes what is there
before the next one comes (R174, R385). -/
def parsePieces : List (List Byte) → State → Out
  | [], s => .next s
  | p :: ps, s =>
    andThen (exec (.rbPut p) s) fun t => andThen (parseWhileBytes p.length t) (parsePieces ps)

/-- `n` CORR_TICK instructions one after the other. -/
def tickTimes : Nat → State → Out
  | 0, s => .next s
  | n + 1, s => andThen (exec .corrTick s) (tickTimes n)

/-- What becomes of a chunk the RX agent has (R302): nothing for none; else it is stored, or held back or dropped where the
ring rejects it. -/
def Delivered (chunk : List Byte) (s t : State) : Prop :=
  if chunk = [] then t = { s with res := .done }
  else if chunk.length + ringOcc s < s.cfg.bufSize then
    t = { s with rbuf := t.rbuf, rin := (s.rin + chunk.length) % s.cfg.bufSize, rxHold := [], res := .done } ∧
      ringLive t = ringLive s ++ chunk
  else
    match s.cfg.rxOnFull with
    | .retry => t = { s with rxHold := chunk, res := .done }
    | .drop => t = { s with log := s.log ++ [.rxOverrun chunk.length], rxHold := [], res := .done }

/-- The instructions a step of which may write the Memory Space: those that perform a ROUTE step, and MS_WRITE (R36, R44). -/
def mayWriteMemory : Instr → Bool
  | .writeReq _ | .readReq _ | .funcReq _ | .readRsp _ | .funcRsp _ | .readErr _ | .funcErr _ => true
  | .parseRoute | .msWrite _ _ | .coopStep => true
  | .initContext _ _ _ | .writeRemoteMemory _ _ _ | .readRemoteMemory _ _ | .registerFunction _ _ => false
  | .callRemoteFunction _ _ | .listFunctions | .rbPut _ | .rbGet _ | .rbSize => false
  | .crcInit | .crcChecksum _ _ | .crcStore _ _ | .crcVerify _ _ | .encodeFrame _ _ => false
  | .parseSeekSync | .parseReadLength | .parseReadBody | .corrDeliver _ _ | .corrWait _ | .corrTick => false
  | .corrValidate _ _ | .msRead _ _ | .dispatch _ _ | .rxStep | .tx _ => false

/-- The instructions R374 asks `inited = 1` of, with no answer otherwise: all that act on a Device Context, but INITIALIZE
and REGISTER_FUNCTION. The CRC engine is process-wide (R25) and the encoder has no state (R171). -/
def needsContext : Instr → Bool
  | .writeReq _ | .readReq _ | .funcReq _ | .readRsp _ | .funcRsp _ | .readErr _ | .funcErr _ => true
  | .initContext _ _ _ | .registerFunction _ _ => false
  | .writeRemoteMemory _ _ _ | .readRemoteMemory _ _ | .callRemoteFunction _ _ | .listFunctions => true
  | .rbPut _ | .rbGet _ | .rbSize => true
  | .crcInit | .crcChecksum _ _ | .crcStore _ _ | .crcVerify _ _ | .encodeFrame _ _ => false
  | .parseSeekSync | .parseReadLength | .parseReadBody | .parseRoute => true
  | .corrDeliver _ _ | .corrWait _ | .corrTick | .corrValidate _ _ | .msWrite _ _ | .msRead _ _ => true
  | .dispatch _ _ | .rxStep | .tx _ | .coopStep => true

/-- The instructions that are one step of the parser agent (R44, R300) or, with `SCHED = COOPERATIVE`, of the host agent in its
place (R307, R310). -/
def parserAgentStep (c : Config) : Instr → Bool
  | .parseSeekSync | .parseReadLength | .parseReadBody | .parseRoute => true
  | .rbGet _ | .corrDeliver _ _ | .msWrite _ _ | .msRead _ _ | .dispatch _ _ => true
  | .coopStep => decide (c.sched = .cooperative)
  | .writeReq _ | .readReq _ | .funcReq _ | .readRsp _ | .funcRsp _ | .readErr _ | .funcErr _ => false
  | .initContext _ _ _ | .writeRemoteMemory _ _ _ | .readRemoteMemory _ _ | .registerFunction _ _ => false
  | .callRemoteFunction _ _ | .listFunctions | .rbPut _ | .rbSize => false
  | .crcInit | .crcChecksum _ _ | .crcStore _ _ | .crcVerify _ _ | .encodeFrame _ _ => false
  | .corrWait _ | .corrTick | .corrValidate _ _ | .rxStep | .tx _ => false

/-- The wire frames (R100). -/
def isFrame : Instr → Bool
  | .writeReq _ | .readReq _ | .funcReq _ | .readRsp _ | .funcRsp _ | .readErr _ | .funcErr _ => true
  | .initContext _ _ _ | .writeRemoteMemory _ _ _ | .readRemoteMemory _ _ | .registerFunction _ _ => false
  | .callRemoteFunction _ _ | .listFunctions | .rbPut _ | .rbGet _ | .rbSize => false
  | .crcInit | .crcChecksum _ _ | .crcStore _ _ | .crcVerify _ _ | .encodeFrame _ _ => false
  | .parseSeekSync | .parseReadLength | .parseReadBody | .parseRoute => false
  | .corrDeliver _ _ | .corrWait _ | .corrTick | .corrValidate _ _ | .msWrite _ _ | .msRead _ _ => false
  | .dispatch _ _ | .rxStep | .tx _ | .coopStep => false

end Sys2Proof.Machine
end

