-- ==== Sys2Proof/Certificates/Slice0/Obligations.lean ====
section
/-! DEFINITION. The statements for the provers. Each docstring names the rules of spec/ the statement formalises. In a next
state `{ s with … }` every field that is not named keeps its value: that is the statement's frame, and it covers every byte
of the Memory Space wherever `mem` is not named. The field `res`, what the step answers its caller (R9, R321), is the model's
own (log entry 14): every instruction writes it. -/

open Sys2Proof Sys2Proof.Machine

/-! ### Encoding -/

/-- Decode and encode agree: every well-formed instruction, with every operand at every value, is read back from its own
bytes, whatever follows them (R90, R92, R95, R100, R101, R104, R106; the operand layout of host commands and unit operations
is the model's, log entry 4). -/
def Obligations.DecodeEncode : Prop :=
  ∀ (i : Instr) (rest : List Byte), i.wf = true → decode (encode i ++ rest) = .ok (i, rest)

/-- What the decoder reads is well-formed, and its encoding is the bytes that were read: no bit is dropped and no two byte
strings are read as one instruction (R90, R92, R101; log entry 4). -/
def Obligations.DecodedIsEncoded : Prop :=
  ∀ (bs : List Byte) (i : Instr) (rest : List Byte), decode bs = .ok (i, rest) → i.wf = true ∧ bs = encode i ++ rest

/-- Words written out from the spec: the frame of R110, the frames of the examples of R171 and R198, an error response of the
example of R263, a type of R101 with loose bits, and select codes of R104 and R106. -/
def Obligations.SpecWordsDecode : Prop :=
  decode [0xEB, 0x90, 0x00, 0x0E, 0xEC, 0x01, 0x00, 0x00, 0x00, 0x04, 0x00, 0x01, 0x02, 0x03, 0xB2, 0xEE, 0x8C, 0x59] =
      .ok (.writeReq ⟨0x6C, 14, [0x00, 0x00, 0x00, 0x04, 0x00, 0x01, 0x02, 0x03], 0xB2EE8C59⟩, []) ∧
    decode [0xEB, 0x90, 0x00, 0x0A, 0xEC, 0x02, 0x00, 0x00, 0x00, 0x04, 0x5E, 0x46, 0xCF, 0x00] =
      .ok (.readReq ⟨0x6C, 10, [0x00, 0x00, 0x00, 0x04], 0x5E46CF00⟩, []) ∧
    decode [0xEB, 0x90, 0x00, 0x07, 0x2C, 0x02, 0x01, 0x68, 0x1C, 0xEE, 0xF9] =
      .ok (.readErr ⟨0x2C, 7, [0x01], 0x681CEEF9⟩, []) ∧
    decode [0xEB, 0x90, 0x00, 0x06, 0x80, 0x01, 0x01, 0x02, 0x03, 0x04] = .ok (.writeReq ⟨0x00, 6, [], 0x01020304⟩, []) ∧
    decode [0x12] = .ok (.rbSize, []) ∧ decode [0x20] = .ok (.crcInit, []) ∧ decode [0x45] = .ok (.listFunctions, []) ∧
    decode [0x82] = .ok (.coopStep, [])

/-! ### The step, reset and what every step keeps -/

/-- A step runs the instruction its port starts with, at the state whose port is what follows; the port is the model's
schedule of agent steps (R11, R300; log entry 10). -/
def Obligations.StepRunsDecoded : Prop :=
  ∀ (s : State) (i : Instr) (rest : List Byte), decode s.port = .ok (i, rest) → step s = exec i { s with port := rest }

/-- Two arrivals that the parser drops with a log event and no other effect, but on its dead buffer and on the ring, through
which their bytes have passed: a frame whose checks pass and whose type R102 calls illegal, with UnknownType (R102, R197,
R198, R323); and a false start, a first sync byte that another byte than the second follows, with BadSync2, at the cost of four
bytes (R193, R200). That a step is the whole arrival is the model's choice (log entry 11). -/
def Obligations.IllegalTypeDropped : Prop :=
  ∀ (s : State), Receiving s →
    (∀ (ty : U16) (f : Frame) (rest : List Byte), GoodFrame s ty f → decode s.port = .error (.unknownType ty f rest) →
      ∃ t, step s = .next t ∧
        t = { s.ringPassed (f.size.toNat + 4) t.rbuf with
          port := rest, abuf := t.abuf, asize := f.size, log := s.log ++ [.unknownType ty], res := .done }) ∧
    (∀ (b c d : Byte) (rest : List Byte), b ≠ 0x90 → s.port = 0xEB :: b :: c :: d :: rest →
      ∃ t, step s = .next t ∧
        t = { s.ringPassed 4 t.rbuf with
          port := rest, abuf := t.abuf, log := s.log ++ [.badSync2 b], res := .done })

/-- The values the spec gives for reset (R46, R47): ring empty, parser in SEEK_SYNC, both classes idle with empty slots,
registry, held chunk, transmit stream and log empty, the context initialised and the CRC table generated. -/
def Obligations.ResetValues : Prop :=
  State.reset.rin = 0 ∧ State.reset.rout = 0 ∧ State.reset.ps = .seekSync ∧ State.reset.acnt = 0 ∧
    (∀ c, (classRegs c State.reset).slotValid = false ∧ (classRegs c State.reset).pend = false ∧
      (classRegs c State.reset).cstate = .idle) ∧
    State.reset.reg = [] ∧ State.reset.rxHold = [] ∧ State.reset.txq = [] ∧ State.reset.inited = true ∧
    State.reset.log = [] ∧ State.reset.crcInit = true ∧ State.reset.crcTable = crcTableGen

/-- The invariant holds after reset. It rests on the model's parameter values (log entry 1) and on the values the model names
for the registers R46 leaves unspecified (log entry 9), of which it asks lengths and ranges only. -/
def Obligations.ResetInv : Prop := Inv State.reset

/-- Every step keeps the invariant: ring indices in range (R22, R23, R138), parser registers as `ps` has them (R28, R29, R30),
slots, flags and counters of both classes and the echo register of a waiting one (R31, R32, R35, R225), codes pairwise
different and at most `N_FUNC` (R37, R290), the held chunk (R39), the CRC table (R25, R47), and the canonical Memory Space
inside `MEM_SIZE` (R36). -/
def Obligations.InvStep : Prop := ∀ (s t : State), Inv s → step s = .next t → Inv t

/-- What no step ever undoes: the configuration is fixed (R40); a context stays initialised and keeps its transport (R309,
R38); registrations are never removed or changed, and a code once found stays found with the same callback (R288, R290); the
log only grows (R350). -/
def Obligations.ContextOnlyGrows : Prop :=
  ∀ (s t : State), step s = .next t →
    t.cfg = s.cfg ∧
      (s.inited = true →
        t.inited = true ∧ t.handle = s.handle ∧ t.readFn = s.readFn ∧ t.writeFn = s.writeFn ∧
          s.reg <+: t.reg ∧ s.log <+: t.log ∧
          ∀ (code : U16) (cb : Handle), lookup code s.reg = some cb → lookup code t.reg = some cb)

/-- The log is output only: a step does the same whatever the log holds, in every field but the log (R41, R350). -/
def Obligations.LogIsNeverRead : Prop :=
  ∀ (s : State) (l : List Event),
    match step s with
    | .next t => ∃ l', step { s with log := l } = .next { t with log := l' }
    | .fault r => step { s with log := l } = .fault r
    | .refused r => step { s with log := l } = .refused r

/-- The Memory Space is written only by instructions that perform a ROUTE step, and by MS_WRITE itself (R36, R44, R75). -/
def Obligations.OnlyRoutingWritesMemory : Prop :=
  ∀ (s t : State) (i : Instr), exec i s = .next t → mayWriteMemory i = false → t.mem = s.mem

/-- Every instruction but TX, whose operand is its caller's (log entry 19), and INITIALIZE appends whole frames of the shape
of R306 to the transmit stream, and nothing else. -/
def Obligations.TransmitsWholeFrames : Prop :=
  ∀ (s t : State) (i : Instr), Inv s → exec i s = .next t → (∀ f, i ≠ .tx f) → (∀ h r w, i ≠ .initContext h r w) →
    ∃ fs : List (List Byte), t.txq = s.txq ++ fs.flatten ∧ ∀ f ∈ fs, FrameShape f

/-- The host's local read of one byte answers it and changes nothing; there is no byte outside the Memory Space (R266, R67;
the act's select code `F0` is the model's, log entry 23). -/
def Obligations.HostReadsOneByte : Prop :=
  ∀ (s : State) (addr : U16) (rest : List Byte), s.inited = true → s.port = 0xF0 :: (be16 addr ++ rest) →
    (addr.toNat < s.cfg.memSize →
      step s = .next { s with port := rest, res := .okBytes [memRead s.mem addr.toNat] }) ∧
    (s.cfg.memSize ≤ addr.toNat → step s = .fault (.noSuchAddress addr.toNat))

/-! ### The ring -/

/-- RB_PUT (R131) by the ring's producer (R136): a string that would close the reserved slot is rejected with nothing stored;
any other is stored, byte `k` at index `(rin + k) mod BUF_SIZE`, no other byte of the ring changes, and `rin` advances. -/
def Obligations.RbPutAllOrNothing : Prop :=
  ∀ (s : State) (b : List Byte), s.inited = true → ProducerCalls s → RingInv s →
    Selects (.rbPut b) 0x10 ∧
    (s.cfg.bufSize ≤ b.length + ringOcc s → exec (.rbPut b) s = .next { s with res := .capacityExceeded }) ∧
    (b.length + ringOcc s < s.cfg.bufSize →
      ∃ t, exec (.rbPut b) s = .next t ∧
        t = { s with rbuf := t.rbuf, rin := (s.rin + b.length) % s.cfg.bufSize, res := .okCount b.length } ∧
        t.rbuf.length = s.rbuf.length ∧
        (∀ k < b.length, byteAt t.rbuf ((s.rin + k) % s.cfg.bufSize) = byteAt b k) ∧
        ∀ j, (∀ k < b.length, (s.rin + k) % s.cfg.bufSize ≠ j) → byteAt t.rbuf j = byteAt s.rbuf j)

/-- RB_GET (R133) by the ring's consumer (R136): `min(m, occupancy)` bytes, from index `rout` on; `rout` advances past them. -/
def Obligations.RbGetOldestBytes : Prop :=
  ∀ (s : State) (m : Nat), s.inited = true → s.parserStuck = false → ConsumerCalls s → RingInv s →
    Selects (.rbGet m) 0x11 ∧
    ∃ r, r.length = min m (ringOcc s) ∧
      (∀ j < r.length, byteAt r j = byteAt s.rbuf ((s.rout + j) % s.cfg.bufSize)) ∧
      exec (.rbGet m) s = .next { s with rout := (s.rout + r.length) % s.cfg.bufSize, res := .okBytes r }

/-- RB_SIZE (R135): the occupancy from the two indices, 0 exactly when they are equal, never `BUF_SIZE`. -/
def Obligations.RbSizeIsOccupancy : Prop :=
  ∀ (s : State), s.inited = true → RingInv s →
    Selects .rbSize 0x12 ∧
    ∃ n, exec .rbSize s = .next { s with res := .okCount n } ∧
      n = (if s.rout ≤ s.rin then s.rin - s.rout else s.rin + s.cfg.bufSize - s.rout) ∧
      (n = 0 ↔ s.rin = s.rout) ∧ n ≤ s.cfg.bufSize - 1

/-- First in, first out (R137): after a put that fits, any RB_GET instructions together return the bytes that were live
before it, then the bytes put, and leave the rest. -/
def Obligations.RingIsFifo : Prop :=
  ∀ (s : State) (b : List Byte) (ms : List Nat), s.inited = true → s.parserStuck = false →
    ProducerCalls s → ConsumerCalls s → RingInv s →
    b.length + ringOcc s < s.cfg.bufSize →
    ∃ t u, exec (.rbPut b) s = .next t ∧
      successiveGets ms t = some ((ringLive s ++ b).take ms.sum, u) ∧ ringLive u = (ringLive s ++ b).drop ms.sum

/-! ### The CRC engine and the encoder -/

/-- CRC_INIT (R151): entry `i` is `i` after eight steps of the shift register, `crc_init` is set, and running it again
changes nothing. -/
def Obligations.CrcInitTable : Prop :=
  ∀ (s : State),
    Selects .crcInit 0x20 ∧
    ∃ t, exec .crcInit s = .next t ∧ t = { s with crcTable := t.crcTable, crcInit := true, res := .done } ∧
      t.crcTable.length = 256 ∧
      (∀ i < 256, t.crcTable[i]? =
        some ((fun c : U32 => if c.getLsbD 0 then (c >>> 1) ^^^ 0xEDB88320 else c >>> 1)^[8] (BitVec.ofNat 32 i))) ∧
      exec .crcInit t = .next t

/-- The table-driven CRC_CHECKSUM gives what the bit-by-bit definition gives, for every string and every length (R155); its
accumulator is all it writes (R153). That the register keeps the accumulator's last value is the model's choice (log entry
15). -/
def Obligations.ChecksumIsBitwise : Prop :=
  ∀ (s : State) (data : List Byte) (n : Nat), Engine s → n ≤ data.length →
    Selects (.crcChecksum data n) 0x21 ∧
    exec (.crcChecksum data n) s =
      .next { s with crcAcc := crcBitwise (data.take n) ^^^ 0xFFFFFFFF, res := .okWord (crcBitwise (data.take n)) }

/-- CRC_STORE (R156): the checksum of the bytes before the trailer, most significant byte first, at the last four of the `T`
indices; every other byte of the buffer as it was. -/
def Obligations.CrcStoreWritesTrailer : Prop :=
  ∀ (s : State) (buf : List Byte) (total : Nat), Engine s → 4 ≤ total → total ≤ buf.length →
    Selects (.crcStore buf total) 0x22 ∧
    exec (.crcStore buf total) s =
      .next { s with
        res := .okBytes (buf.take (total - 4) ++ be32 (crcBitwise (buf.take (total - 4))) ++ buf.drop total) }

/-- CRC_VERIFY (R157): whether the trailer is the checksum of the bytes before it; and it answers true of what CRC_STORE has
just stored (R158, its law (a)). -/
def Obligations.CrcVerifyJudgesTrailer : Prop :=
  ∀ (s : State) (buf : List Byte) (total : Nat), Engine s → 4 ≤ total → total ≤ buf.length →
    Selects (.crcVerify buf total) 0x23 ∧
    exec (.crcVerify buf total) s =
      .next { s with res := .okBool (decide (crcBitwise (buf.take (total - 4)) = u32be buf (total - 4))) } ∧
    ∃ t stored, exec (.crcStore buf total) s = .next t ∧ t.res = .okBytes stored ∧
      exec (.crcVerify stored total) t = .next { t with res := .okBool true }

/-- Where the CRC engine and the encoder are refused: before CRC_INIT (R372, U8), over more bytes than the buffer holds
(R153, R156), and with no room for a trailer (U9). -/
def Obligations.CrcPreconditions : Prop :=
  ∀ (s : State) (buf : List Byte) (n : Nat) (ty : U16) (h r w : Handle),
    (s.crcInit = false →
      exec (.crcChecksum buf n) s = .refused .crcNotReady ∧ exec (.crcStore buf n) s = .refused .crcNotReady ∧
      exec (.crcVerify buf n) s = .refused .crcNotReady ∧ exec (.encodeFrame ty buf) s = .refused .crcNotReady ∧
      exec (.initContext h r w) s = .refused .crcNotReady) ∧
    (s.crcInit = true → buf.length < n → exec (.crcChecksum buf n) s = .refused .beyondBuffer) ∧
    (s.crcInit = true → n < 4 →
      exec (.crcStore buf n) s = .refused .noTrailer ∧ exec (.crcVerify buf n) s = .refused .noTrailer) ∧
    (s.crcInit = true → 4 ≤ n → buf.length < n →
      exec (.crcStore buf n) s = .refused .beyondBuffer ∧ exec (.crcVerify buf n) s = .refused .beyondBuffer)

/-- ENCODE (R171): TOO_LARGE, or the frame: sync word, size, type, payload, and the CRC32 of all of that; no state written. -/
def Obligations.EncodeBuildsFrame : Prop :=
  ∀ (s : State) (ty : U16) (payload : List Byte), Engine s →
    Selects (.encodeFrame ty payload) 0x30 ∧
    (s.cfg.maxFrame ≤ payload.length + 10 → exec (.encodeFrame ty payload) s = .next { s with res := .tooLarge }) ∧
    (Fits s payload → exec (.encodeFrame ty payload) s = .next { s with res := .okBytes (wireFrame ty payload) })

/-! ### The parser -/

/-- Round trip (R174): a parser in SEEK_SYNC whose agent steps on its own (R307), fed the bytes of a frame, reaches ROUTE with
exactly those bytes assembled; they pass the integrity check and give back the type and the payload. First with the whole
frame in the ring: three steps, and what follows the frame stays in the ring. Then with the frame cut into pieces in any way
(R385), a frame longer than the ring among them: each piece is put into the ring and taken before the next one comes. With
`SCHED = COOPERATIVE` the same steps are made inside COOP_STEP: CoopStepServesResponse. -/
def Obligations.FrameRoundTrip : Prop :=
  ∀ (s : State) (ty : U16) (payload : List Byte), Running s → ParserRuns s → Inv s → s.ps = .seekSync → Fits s payload →
    (∀ rest : List Byte, ringLive s = wireFrame ty payload ++ rest →
      ∃ t u v, exec .parseSeekSync s = .next t ∧ exec .parseReadLength t = .next u ∧ exec .parseReadBody u = .next v ∧
        v.ps = .route ∧ v.asize.toNat = payload.length + 6 ∧ v.acnt = v.asize.toNat + 4 ∧
        v.abuf.take v.acnt = wireFrame ty payload ∧
        exec (.crcVerify v.abuf v.acnt) v = .next { v with res := .okBool true } ∧
        u16be v.abuf 4 = ty ∧ slice v.abuf 6 v.asize.toNat = payload ∧ ringLive v = rest) ∧
    (∀ pieces : List (List Byte), ProducerCalls s → s.rin = s.rout → (∀ p ∈ pieces, p.length < s.cfg.bufSize) →
      pieces.flatten = wireFrame ty payload →
      ∃ v, parsePieces pieces s = .next v ∧
        v.ps = .route ∧ v.asize.toNat = payload.length + 6 ∧ v.acnt = v.asize.toNat + 4 ∧
        v.abuf.take v.acnt = wireFrame ty payload ∧
        exec (.crcVerify v.abuf v.acnt) v = .next { v with res := .okBool true } ∧
        u16be v.abuf 4 = ty ∧ slice v.abuf 6 v.asize.toNat = payload ∧ ringLive v = [])

/-- PARSE_SEEK_SYNC (R192) by an agent that steps on its own: a hold on an empty ring; one byte taken otherwise, logged and
lost unless it is `EB`, which starts a frame. -/
def Obligations.SeekSyncTakesOneByte : Prop :=
  ∀ (s : State), s.inited = true → ParserRuns s → Inv s → s.ps = .seekSync →
    Selects .parseSeekSync 0x31 ∧
    (ringLive s = [] → exec .parseSeekSync s = .next { s with res := .hold }) ∧
    (∀ (b : Byte) (rest : List Byte), ringLive s = b :: rest → b ≠ 0xEB →
      exec .parseSeekSync s =
        .next { s with rout := (s.rout + 1) % s.cfg.bufSize, log := s.log ++ [.badSync1 b], res := .done }) ∧
    (∀ rest : List Byte, ringLive s = 0xEB :: rest →
      exec .parseSeekSync s =
        .next { s with
          rout := (s.rout + 1) % s.cfg.bufSize, abuf := 0xEB :: s.abuf.drop 1, acnt := 1, ps := .readLength,
          res := .done })

/-- PARSE_READ_LENGTH (R193) by an agent that steps on its own, with `b` the bytes assembled so far and the bytes taken: a
hold; progress; or, of four bytes, the first of the checks second sync byte, oversize, undersize that fails, or the size
accepted. -/
def Obligations.ReadLengthChecksHeader : Prop :=
  ∀ (s : State) (r b : List Byte), s.inited = true → ParserRuns s → Inv s → s.ps = .readLength →
    r = (ringLive s).take (4 - s.acnt) → b = s.abuf.take s.acnt ++ r →
    Selects .parseReadLength 0x32 ∧
    (r = [] → exec .parseReadLength s = .next { s with res := .hold }) ∧
    ∃ t, t = { s with rout := (s.rout + r.length) % s.cfg.bufSize, abuf := b ++ s.abuf.drop b.length, res := .done } ∧
      (r ≠ [] → b.length < 4 → exec .parseReadLength s = .next { t with acnt := b.length }) ∧
      (b.length = 4 → byteAt b 1 ≠ 0x90 →
        exec .parseReadLength s =
          .next { t with log := s.log ++ [.badSync2 (byteAt b 1)], acnt := 0, ps := .seekSync }) ∧
      (b.length = 4 → byteAt b 1 = 0x90 → s.cfg.maxFrame ≤ (u16be b 2).toNat + 4 →
        exec .parseReadLength s = .next { t with log := s.log ++ [.oversize (u16be b 2)], acnt := 0, ps := .seekSync }) ∧
      (b.length = 4 → byteAt b 1 = 0x90 → (u16be b 2).toNat + 4 < s.cfg.maxFrame → (u16be b 2).toNat < 6 →
        exec .parseReadLength s = .next { t with log := s.log ++ [.undersize (u16be b 2)], acnt := 0, ps := .seekSync }) ∧
      (b.length = 4 → byteAt b 1 = 0x90 → (u16be b 2).toNat + 4 < s.cfg.maxFrame → 6 ≤ (u16be b 2).toNat →
        exec .parseReadLength s = .next { t with acnt := 4, asize := u16be b 2, ps := .readBody })

/-- PARSE_READ_BODY (R194) by an agent that steps on its own: takes no more than the frame needs; ROUTE when `size + 4` bytes
are assembled. -/
def Obligations.ReadBodyCollects : Prop :=
  ∀ (s : State) (r : List Byte), s.inited = true → ParserRuns s → Inv s → s.ps = .readBody →
    r = (ringLive s).take (s.asize.toNat + 4 - s.acnt) →
    Selects .parseReadBody 0x33 ∧
    (r = [] → exec .parseReadBody s = .next { s with res := .hold }) ∧
    (r ≠ [] →
      exec .parseReadBody s =
        .next { s with
          rout := (s.rout + r.length) % s.cfg.bufSize
          abuf := s.abuf.take s.acnt ++ r ++ s.abuf.drop (s.acnt + r.length)
          acnt := s.acnt + r.length
          ps := if s.acnt + r.length = s.asize.toNat + 4 then .route else .readBody
          res := .done })

/-- An integrity error (R324, R195): a frame whose trailer is not the checksum of the bytes before it is consumed; the stored
and the computed value are logged and nothing else happens. -/
def Obligations.RouteDropsBadTrailer : Prop :=
  ∀ (s : State), Running s → ParserRuns s → s.ps = .route →
    u32be s.abuf s.asize.toNat ≠ crcBitwise (s.abuf.take s.asize.toNat) →
    exec .parseRoute s =
      .next { s with
        log := s.log ++ [.crcFail (u32be s.abuf s.asize.toNat) (crcBitwise (s.abuf.take s.asize.toNat))]
        acnt := 0, ps := .seekSync, res := .done }

/-- PARSE_ROUTE of a request whose trailer is good (R195, R197), with `p` its payload: a payload that disagrees with its own
length field is dropped as Malformed without a reply; else the step has the effect of MS_WRITE, MS_READ or DISPATCH on the
fields; an unknown low byte is dropped. In every case the parser goes back to SEEK_SYNC, unless a callback never returned: that
the step then ends, with `ps` kept and the agent stuck, is log entry 16 (U5). Where the DISPATCH is refused, for a callback
outside its contract (U4, U6), so is the step. -/
def Obligations.RouteServesRequests : Prop :=
  ∀ (s : State) (ty : U16) (p : List Byte), Running s → ParserRuns s → s.ps = .route →
    u32be s.abuf s.asize.toNat = crcBitwise (s.abuf.take s.asize.toNat) →
    ty = u16be s.abuf 4 → p = slice s.abuf 6 s.asize.toNat → ty.getLsbD 15 = true →
    Selects .parseRoute 0x34 ∧
    (∀ e : Event,
      (typeSub ty = 0x01 ∧ (p.length < 4 ∨ p.length ≠ 4 + (u16be p 2).toNat) ∧ e = .malformed 0x01) ∨
        (typeSub ty = 0x02 ∧ p.length ≠ 4 ∧ e = .malformed 0x02) ∨
        (typeSub ty = 0x03 ∧ (p.length < 4 ∨ p.length ≠ 4 + (u16be p 2).toNat) ∧ e = .malformed 0x03) ∨
        (typeSub ty ≠ 0x01 ∧ typeSub ty ≠ 0x02 ∧ typeSub ty ≠ 0x03 ∧ e = .unknownType ty) →
      exec .parseRoute s = .next { s with log := s.log ++ [e], acnt := 0, ps := .seekSync, res := .done }) ∧
    (typeSub ty = 0x01 → 4 ≤ p.length → p.length = 4 + (u16be p 2).toNat →
      ∃ t, exec (.msWrite (u16be p 0) (p.drop 4)) s = .next t ∧
        exec .parseRoute s = .next { t with acnt := 0, ps := .seekSync }) ∧
    (typeSub ty = 0x02 → p.length = 4 →
      ∃ t, exec (.msRead (u16be p 0) (u16be p 2)) s = .next t ∧
        exec .parseRoute s = .next { t with acnt := 0, ps := .seekSync }) ∧
    (typeSub ty = 0x03 → 4 ≤ p.length → p.length = 4 + (u16be p 2).toNat →
      (∀ t, exec (.dispatch (u16be p 0) (p.drop 4)) s = .next t → t.parserStuck = false →
        exec .parseRoute s = .next { t with acnt := 0, ps := .seekSync }) ∧
      (∀ t, exec (.dispatch (u16be p 0) (p.drop 4)) s = .next t → t.parserStuck = true →
        exec .parseRoute s = .next t) ∧
      (∀ r, exec (.dispatch (u16be p 0) (p.drop 4)) s = .refused r → exec .parseRoute s = .refused r))

/-- PARSE_ROUTE of a response whose trailer is good (R198): its body, type and payload, goes into the slot of the class its
low byte names, over whatever it held, with the signal; a low byte of no class is dropped with a log event. -/
def Obligations.RouteStoresResponses : Prop :=
  ∀ (s : State) (ty : U16) (body : List Byte), Running s → ParserRuns s → Inv s → s.ps = .route →
    u32be s.abuf s.asize.toNat = crcBitwise (s.abuf.take s.asize.toNat) →
    ty = u16be s.abuf 4 → body = slice s.abuf 4 s.asize.toNat → ty.getLsbD 15 = false →
    body.length + 4 = s.asize.toNat ∧
    (typeSub ty = 0x02 →
      exec .parseRoute s =
        .next { s with
          readCls := { s.readCls with slot := body, slotLen := s.asize.toNat - 4, slotValid := true, pend := true }
          acnt := 0, ps := .seekSync, res := .done }) ∧
    (typeSub ty = 0x03 →
      exec .parseRoute s =
        .next { s with
          funcCls := { s.funcCls with slot := body, slotLen := s.asize.toNat - 4, slotValid := true, pend := true }
          acnt := 0, ps := .seekSync, res := .done }) ∧
    (typeSub ty ≠ 0x02 → typeSub ty ≠ 0x03 →
      exec .parseRoute s =
        .next { s with log := s.log ++ [.unknownType ty], acnt := 0, ps := .seekSync, res := .done })

/-! ### The seven frames, received whole -/

/-- WRITE_REQ (R100, R101, R197, R261): a good frame stores `data` at `addr`, as far as the Memory Space goes; nothing is
sent; the other bits of the type are not looked at. The bytes of the frame have passed through the ring; that the step is the
whole arrival is the model's choice (log entry 11). -/
def Obligations.WriteReqStoresData : Prop :=
  ∀ (s : State) (f : Frame) (addr : U16) (data : List Byte), Receiving s →
    GoodFrame s (frameType true f.hi 0x01) f → f.payload = be16 addr ++ be16 (BitVec.ofNat 16 data.length) ++ data →
    ∃ t, exec (.writeReq f) s = .next t ∧
      (∀ a, memRead t.mem a =
        if addr.toNat ≤ a ∧ a < addr.toNat + data.length ∧ a < s.cfg.memSize then byteAt data (a - addr.toNat)
        else memRead s.mem a) ∧
      (data = [] ∨ addr.toNat + data.length ≤ s.cfg.memSize →
        t = { s.ringPassed (f.size.toNat + 4) t.rbuf with mem := t.mem, abuf := t.abuf, asize := f.size, res := .ok }) ∧
      (data ≠ [] → s.cfg.memSize < addr.toNat + data.length →
        t = { s.ringPassed (f.size.toNat + 4) t.rbuf with
          mem := t.mem, abuf := t.abuf, asize := f.size, res := .addressOverflow
          log := s.log ++ [.writeOverflow addr data.length (s.cfg.memSize - addr.toNat)] })

/-- READ_REQ (R100, R101, R197, R263): a good frame is answered by one frame, READ_ERR for an address outside the Memory
Space, else READ_RSP with the length clamped silently; a reply too large for a frame is not sent (R265). The bytes of the
frame have passed through the ring; that the step is the whole arrival is the model's choice (log entry 11). -/
def Obligations.ReadReqIsAnswered : Prop :=
  ∀ (s : State) (f : Frame) (addr len : U16), Receiving s →
    GoodFrame s (frameType true f.hi 0x02) f → f.payload = be16 addr ++ be16 len →
    ∃ t, exec (.readReq f) s = .next t ∧
      (s.cfg.memSize ≤ addr.toNat →
        t = { s.ringPassed (f.size.toNat + 4) t.rbuf with
          abuf := t.abuf, asize := f.size, log := s.log ++ [.rangeError addr]
          txq := s.txq ++ wireFrame 0x2C02 [0x01], res := .addressRange }) ∧
      (addr.toNat < s.cfg.memSize →
        ∃ data : List Byte, data.length = min len.toNat (s.cfg.memSize - addr.toNat) ∧
          (∀ j < data.length, byteAt data j = memRead s.mem (addr.toNat + j)) ∧
          (data.length + 15 ≤ s.cfg.maxFrame →
            t = { s.ringPassed (f.size.toNat + 4) t.rbuf with
              abuf := t.abuf, asize := f.size, res := .ok
              txq := s.txq ++ wireFrame 0x6C02 (be16 addr ++ be16 (BitVec.ofNat 16 data.length) ++ data) }) ∧
          (s.cfg.maxFrame < data.length + 15 →
            t = { s.ringPassed (f.size.toNat + 4) t.rbuf with
              abuf := t.abuf, asize := f.size, log := s.log ++ [.replyTooLarge 0x02 data.length], res := .tooLarge }))

/-- FUNC_REQ (R100, R101, R197, R284): a good frame is answered by one frame: FUNC_ERR for a code that is not registered, else
FUNC_RSP with the code, the length of what the callback returns, and what it returns: as the environment settled it, or, where
it settled nothing, a free value of at most `MAX_RET` bytes (R286; log entry 7); a callback outside its contract is the
statement CallbackContract. The bytes of the frame have passed through the ring; that the step is the whole arrival is the
model's choice (log entry 11). -/
def Obligations.FuncReqIsAnswered : Prop :=
  ∀ (s : State) (f : Frame) (code : U16) (arg : List Byte), Receiving s →
    GoodFrame s (frameType true f.hi 0x03) f → f.payload = be16 code ++ be16 (BitVec.ofNat 16 arg.length) ++ arg →
    ((∀ e ∈ s.reg, e.code ≠ code) →
      ∃ t, exec (.funcReq f) s = .next t ∧
        t = { s.ringPassed (f.size.toNat + 4) t.rbuf with
          abuf := t.abuf, asize := f.size, log := s.log ++ [.unknownFunction code]
          txq := s.txq ++ wireFrame 0x2C03 [0x01], res := .unknownFunction }) ∧
    ((∃ e ∈ s.reg, e.code = code) →
      (∀ (ret : List Byte) (later : List CbAnswer), s.cbScript = .returns ret.length ret :: later →
        ret.length ≤ s.cfg.maxRet →
        ∃ t, exec (.funcReq f) s = .next t ∧
          t = { s.ringPassed (f.size.toNat + 4) t.rbuf with
            abuf := t.abuf, asize := f.size, cbScript := later, res := .ok
            txq := s.txq ++ wireFrame 0x6C03 (be16 code ++ be16 (BitVec.ofNat 16 ret.length) ++ ret) }) ∧
      (s.cbScript = [] →
        ∃ t ret, exec (.funcReq f) s = .next t ∧ ret.length ≤ s.cfg.maxRet ∧
          t = { s.ringPassed (f.size.toNat + 4) t.rbuf with
            abuf := t.abuf, asize := f.size, draws := s.draws + 1, res := .ok
            txq := s.txq ++ wireFrame 0x6C03 (be16 code ++ be16 (BitVec.ofNat 16 ret.length) ++ ret) }))

/-- READ_RSP, READ_ERR, FUNC_RSP and FUNC_ERR (R100, R101, R198): a good frame of any of the four puts its type and payload
into the slot of its class and signals it, whether or not a call waits; nothing is sent, and no byte of the Memory Space
changes. The bytes of the frame have passed through the ring; that the step is the whole arrival is the model's choice (log
entry 11). -/
def Obligations.ResponsesAreStored : Prop :=
  ∀ (s : State) (f : Frame), Receiving s →
    (GoodFrame s (frameType false f.hi 0x02) f →
      ∃ t, exec (.readRsp f) s = .next t ∧ exec (.readErr f) s = .next t ∧
        t = { s.ringPassed (f.size.toNat + 4) t.rbuf with
          abuf := t.abuf, asize := f.size, res := .done
          readCls := { s.readCls with
            slot := be16 (frameType false f.hi 0x02) ++ f.payload
            slotLen := f.payload.length + 2, slotValid := true, pend := true } }) ∧
    (GoodFrame s (frameType false f.hi 0x03) f →
      ∃ t, exec (.funcRsp f) s = .next t ∧ exec (.funcErr f) s = .next t ∧
        t = { s.ringPassed (f.size.toNat + 4) t.rbuf with
          abuf := t.abuf, asize := f.size, res := .done
          funcCls := { s.funcCls with
            slot := be16 (frameType false f.hi 0x03) ++ f.payload
            slotLen := f.payload.length + 2, slotValid := true, pend := true } })

/-! ### The calls of the host -/

/-- WRITE_REMOTE_MEMORY (R221): TOO_LARGE with nothing sent, or one WRITE_REQ frame appended to the transmit stream and OK; no
class register is touched. A `len` that is not the length of the data is refused (U12). -/
def Obligations.WriteRemoteMemorySends : Prop :=
  ∀ (s : State) (addr len : U16) (data : List Byte), Running s →
    Selects (.writeRemoteMemory addr len data) 0x41 ∧
    (len.toNat = data.length → s.cfg.maxFrame < data.length + 15 →
      exec (.writeRemoteMemory addr len data) s = .next { s with res := .tooLarge }) ∧
    (len.toNat = data.length → data.length + 15 ≤ s.cfg.maxFrame →
      exec (.writeRemoteMemory addr len data) s =
        .next { s with txq := s.txq ++ wireFrame 0xEC01 (be16 addr ++ be16 len ++ data), res := .ok }) ∧
    (len.toNat ≠ data.length → exec (.writeRemoteMemory addr len data) s = .refused .lengthOperand)

/-- The issuing step of READ_REMOTE_MEMORY and CALL_REMOTE_FUNCTION on an idle class (R222, R223, R225): TOO_LARGE with the
class still idle and nothing sent; or the echo register, the timeout counter and the class state written and the request
transmitted, in one step, with `pend` and the slot left as they are. The answer `issued` is the model's (log entry 21), and so
is `echoSet`, which marks the echo register as written (log entry 32). -/
def Obligations.CallsAreIssued : Prop :=
  ∀ (s : State) (key len : U16) (arg : List Byte), Running s →
    Selects (.readRemoteMemory key len) 0x42 ∧ Selects (.callRemoteFunction key arg) 0x44 ∧
    (s.readCls.cstate = .idle →
      (s.cfg.maxFrame ≤ 14 → exec (.readRemoteMemory key len) s = .next { s with res := .tooLarge }) ∧
      (14 < s.cfg.maxFrame →
        exec (.readRemoteMemory key len) s =
          .next { s with
            readCls := { s.readCls with echo := key, echoSet := true, tcnt := s.cfg.timeoutTicks, cstate := .waiting }
            txq := s.txq ++ wireFrame 0xEC02 (be16 key ++ be16 len), res := .issued })) ∧
    (s.funcCls.cstate = .idle →
      (s.cfg.maxFrame < arg.length + 15 → exec (.callRemoteFunction key arg) s = .next { s with res := .tooLarge }) ∧
      (arg.length + 15 ≤ s.cfg.maxFrame →
        exec (.callRemoteFunction key arg) s =
          .next { s with
            funcCls := { s.funcCls with echo := key, echoSet := true, tcnt := s.cfg.timeoutTicks, cstate := .waiting }
            txq := s.txq ++ wireFrame 0xEC03 (be16 key ++ be16 (BitVec.ofNat 16 arg.length) ++ arg)
            res := .issued }))

/-- One call of a class at a time (R224, R380, U1), and no waiting step for a class that does not wait (R228): each is
refused. A busy class stops neither a call of the other class, whichever of the two it is, nor, with both busy, a write; and
neither touches the registers of the busy one (R43, R224). -/
def Obligations.ClassPreconditions : Prop :=
  ∀ (s : State) (key len : U16) (arg : List Byte) (c : CClass), Running s →
    (s.readCls.cstate = .waiting → exec (.readRemoteMemory key len) s = .refused (.classBusy .read)) ∧
    (s.funcCls.cstate = .waiting → exec (.callRemoteFunction key arg) s = .refused (.classBusy .func)) ∧
    ((classRegs c s).cstate = .idle → exec (.corrWait c) s = .refused (.classNotWaiting c)) ∧
    (s.readCls.cstate = .waiting → s.funcCls.cstate = .idle →
      ∃ t, exec (.callRemoteFunction key arg) s = .next t ∧ t.readCls = s.readCls) ∧
    (s.funcCls.cstate = .waiting → s.readCls.cstate = .idle →
      ∃ t, exec (.readRemoteMemory key len) s = .next t ∧ t.funcCls = s.funcCls) ∧
    (s.readCls.cstate = .waiting → s.funcCls.cstate = .waiting → len.toNat = arg.length →
      ∃ t, exec (.writeRemoteMemory key len arg) s = .next t ∧ t.readCls = s.readCls ∧ t.funcCls = s.funcCls)

/-- CORR_DELIVER (R198) as an operation of its own: the body, type and payload, goes into the slot of its class with the
signal; a low byte of no class is logged. A body longer than R31 lets a slot hold, which the parser never delivers, signals its
class all the same; what the slot then holds is a free value of a length R31 allows, the model's choice (log entry 22). -/
def Obligations.CorrDeliverSignals : Prop :=
  ∀ (s : State) (ty : U16) (payload : List Byte), s.inited = true → s.parserStuck = false →
    Selects (.corrDeliver ty payload) 0x50 ∧
    (payload.length + 11 ≤ s.cfg.maxFrame →
      (typeSub ty = 0x02 →
        exec (.corrDeliver ty payload) s =
          .next { s with
            res := .done
            readCls := { s.readCls with
              slot := be16 ty ++ payload, slotLen := payload.length + 2, slotValid := true, pend := true } }) ∧
      (typeSub ty = 0x03 →
        exec (.corrDeliver ty payload) s =
          .next { s with
            res := .done
            funcCls := { s.funcCls with
              slot := be16 ty ++ payload, slotLen := payload.length + 2, slotValid := true, pend := true } })) ∧
    (s.cfg.maxFrame < payload.length + 11 →
      (typeSub ty = 0x02 →
        ∃ b : List Byte, b.length ≤ s.cfg.maxFrame - 9 ∧
          exec (.corrDeliver ty payload) s =
            .next { s with
              draws := s.draws + 1, res := .done
              readCls := { s.readCls with slot := b, slotLen := b.length, slotValid := true, pend := true } }) ∧
      (typeSub ty = 0x03 →
        ∃ b : List Byte, b.length ≤ s.cfg.maxFrame - 9 ∧
          exec (.corrDeliver ty payload) s =
            .next { s with
              draws := s.draws + 1, res := .done
              funcCls := { s.funcCls with slot := b, slotLen := b.length, slotValid := true, pend := true } })) ∧
    (typeSub ty ≠ 0x02 → typeSub ty ≠ 0x03 →
      exec (.corrDeliver ty payload) s = .next { s with log := s.log ++ [.unknownType ty], res := .done })

/-- CORR_WAIT on a waiting class (R228): a signalled body is taken, the class goes idle and the answer is CORR_VALIDATE's of
that body, even with the counter at 0; with no signal and the counter at 0 the call times out and only the class state
changes; else a hold. -/
def Obligations.CorrWaitTakesOrTimesOut : Prop :=
  ∀ (s : State) (c : CClass), s.inited = true → (classRegs c s).cstate = .waiting →
    Selects (.corrWait c) 0x51 ∧
    ((classRegs c s).pend = true →
      ∃ o : Result,
        exec (.corrValidate c ((classRegs c s).slot.take (classRegs c s).slotLen)) s = .next { s with res := o } ∧
        exec (.corrWait c) s =
          .next { setClass c { classRegs c s with slotValid := false, pend := false, cstate := .idle } s with res := o }) ∧
    ((classRegs c s).pend = false → (classRegs c s).tcnt = 0 →
      exec (.corrWait c) s = .next { setClass c { classRegs c s with cstate := .idle } s with res := .timeout }) ∧
    ((classRegs c s).pend = false → 0 < (classRegs c s).tcnt → exec (.corrWait c) s = .next { s with res := .hold })

/-- CORR_TICK (R227): the counter of a waiting class goes down by one, not below 0; the counter of an idle class stays. -/
def Obligations.CorrTickCountsDown : Prop :=
  ∀ (s : State), s.inited = true →
    Selects .corrTick 0x52 ∧
    exec .corrTick s =
      .next { s with
        readCls := { s.readCls with
          tcnt := if s.readCls.cstate = .waiting then s.readCls.tcnt - 1 else s.readCls.tcnt }
        funcCls := { s.funcCls with
          tcnt := if s.funcCls.cstate = .waiting then s.funcCls.tcnt - 1 else s.funcCls.tcnt }
        res := .done }

/-- CORR_VALIDATE (R230): the outcome of each case, in the order of the rule, with `okTy` and `errTy` the two types of the
class and `e` the echo register: what the last call of the class wrote there, or, where no call has been issued, a free value
(R46, R48; log entry 32); no state is written. -/
def Obligations.CorrValidateJudges : Prop :=
  ∀ (s : State) (c : CClass), s.inited = true →
    ∃ e : U16, ((classRegs c s).echoSet = true → e = (classRegs c s).echo) ∧
    ∀ (r : List Byte) (okTy errTy : U16),
      (c = .read ∧ okTy = 0x6C02 ∧ errTy = 0x2C02) ∨ (c = .func ∧ okTy = 0x6C03 ∧ errTy = 0x2C03) →
      Selects (.corrValidate c r) 0x53 ∧
      ∃ o : Result, exec (.corrValidate c r) s = .next { s with res := o } ∧
        (r.length < 3 → o = .shortResponse) ∧
        (3 ≤ r.length → u16be r 0 = errTy → o = .peerError (byteAt r 2)) ∧
        (3 ≤ r.length → u16be r 0 = okTy → r.length < 6 → o = .shortResponse) ∧
        (6 ≤ r.length → u16be r 0 = okTy → u16be r 2 ≠ e → o = .echoMismatch) ∧
        (6 ≤ r.length → u16be r 0 = okTy → u16be r 2 = e → (u16be r 4).toNat ≠ r.length - 6 → o = .lengthMismatch) ∧
        (6 ≤ r.length → u16be r 0 = okTy → u16be r 2 = e → (u16be r 4).toNat = r.length - 6 →
          o = .okData (u16be r 4) (r.drop 6)) ∧
        (3 ≤ r.length → u16be r 0 ≠ okTy → u16be r 0 ≠ errTy → o = .unexpectedType)

/-- A waiting call that no response reaches ends (R77, R227, R228, R229): after any number of ticks it holds, as long as they
are fewer than its counter; after at least as many it times out, with the class idle, the slot empty as before, and nothing
transmitted. -/
def Obligations.UnansweredCallTimesOut : Prop :=
  ∀ (s : State) (c : CClass) (n : Nat), s.inited = true → (classRegs c s).cstate = .waiting →
    (classRegs c s).pend = false →
    ∃ t, tickTimes n s = .next t ∧
      (n < (classRegs c s).tcnt → exec (.corrWait c) t = .next { t with res := .hold }) ∧
      ((classRegs c s).tcnt ≤ n →
        ∃ u, exec (.corrWait c) t = .next u ∧ u.res = .timeout ∧
          classRegs c u = { classRegs c s with cstate := .idle, tcnt := 0 } ∧
          u.txq = s.txq ∧ u.mem = s.mem ∧ u.log = s.log)

/-- A late body poisons the next call (R232, R225, R390): a read call issued while a stale body is signalled takes that body
at its first waiting step: an error body of any peer is its PEER_ERROR, a success body that echoes the same address and
agrees with its own length is accepted as its answer. -/
def Obligations.StaleBodyIsTaken : Prop :=
  ∀ (s : State) (addr len : U16) (e : Byte) (data : List Byte), Running s → Inv s → s.readCls.cstate = .idle →
    s.readCls.pend = true →
    ∃ t u, exec (.readRemoteMemory addr len) s = .next t ∧ exec (.corrWait .read) t = .next u ∧
      u.readCls.cstate = .idle ∧ u.readCls.pend = false ∧ u.readCls.slotValid = false ∧
      (s.readCls.slot = be16 0x2C02 ++ [e] → u.res = .peerError e) ∧
      (s.readCls.slot = be16 0x6C02 ++ be16 addr ++ be16 (BitVec.ofNat 16 data.length) ++ data →
        data.length < 65536 → u.res = .okData (BitVec.ofNat 16 data.length) data)

/-! ### Memory Service -/

/-- MS_WRITE (R261): byte `i` of the data is stored at `addr + i` as long as that is below `MEM_SIZE`, and no other byte
changes; past the end the event WriteOverflow with the first index that does not fit; nothing is sent. -/
def Obligations.MsWriteStoresWhatFits : Prop :=
  ∀ (s : State) (addr : U16) (data : List Byte), s.inited = true → s.parserStuck = false →
    Selects (.msWrite addr data) 0x60 ∧
    ∃ t, exec (.msWrite addr data) s = .next t ∧
      (∀ a, memRead t.mem a =
        if addr.toNat ≤ a ∧ a < addr.toNat + data.length ∧ a < s.cfg.memSize then byteAt data (a - addr.toNat)
        else memRead s.mem a) ∧
      (data = [] ∨ addr.toNat + data.length ≤ s.cfg.memSize → t = { s with mem := t.mem, res := .ok }) ∧
      (data ≠ [] → s.cfg.memSize < addr.toNat + data.length →
        t = { s with
          mem := t.mem, res := .addressOverflow
          log := s.log ++ [.writeOverflow addr data.length (s.cfg.memSize - addr.toNat)] })

/-- MS_READ (R263): an address outside the Memory Space is answered by READ_ERR and logged; any other by READ_RSP with the
address, the clamped length and the bytes read; a reply that does not fit a frame is logged and not sent (R265); `mem` is
not changed. -/
def Obligations.MsReadReplies : Prop :=
  ∀ (s : State) (addr len : U16), Running s → s.parserStuck = false → configWf s.cfg →
    Selects (.msRead addr len) 0x61 ∧
    (s.cfg.memSize ≤ addr.toNat →
      exec (.msRead addr len) s =
        .next { s with
          log := s.log ++ [.rangeError addr], txq := s.txq ++ wireFrame 0x2C02 [0x01], res := .addressRange }) ∧
    (addr.toNat < s.cfg.memSize →
      ∃ data : List Byte, data.length = min len.toNat (s.cfg.memSize - addr.toNat) ∧
        (∀ j < data.length, byteAt data j = memRead s.mem (addr.toNat + j)) ∧
        (data.length + 15 ≤ s.cfg.maxFrame →
          exec (.msRead addr len) s =
            .next { s with
              txq := s.txq ++ wireFrame 0x6C02 (be16 addr ++ be16 (BitVec.ofNat 16 data.length) ++ data), res := .ok }) ∧
        (s.cfg.maxFrame < data.length + 15 →
          exec (.msRead addr len) s =
            .next { s with log := s.log ++ [.replyTooLarge 0x02 data.length], res := .tooLarge }))

/-- Write then read (R267, its first law, and R74): a write inside the Memory Space is OK, and a read of the same range then
transmits READ_RSP with that address, that length and the data written. -/
def Obligations.WriteThenRead : Prop :=
  ∀ (s : State) (addr len : U16) (data : List Byte), Running s → s.parserStuck = false → configWf s.cfg →
    s.cfg.memSize + 15 ≤ s.cfg.maxFrame → len.toNat = data.length → addr.toNat < s.cfg.memSize →
    addr.toNat + data.length ≤ s.cfg.memSize →
    ∃ t u, exec (.msWrite addr data) s = .next t ∧ t.res = .ok ∧ t.txq = s.txq ∧
      exec (.msRead addr len) t = .next u ∧ u.mem = t.mem ∧
      u.txq = s.txq ++ wireFrame 0x6C02 (be16 addr ++ be16 len ++ data)

/-! ### The registry and the dispatcher -/

/-- REGISTER_FUNCTION (R281): INVALID_PARAM, then OK into an empty registry, then DUPLICATE_CODE, then ALLOC_FAILURE, then OK
with the entry added at the end; a failed registration changes nothing. -/
def Obligations.RegisterFunctionAdds : Prop :=
  ∀ (s : State) (code : U16) (cb : Handle),
    Selects (.registerFunction code cb) 0x43 ∧
    (s.inited = false ∨ cb = nullHandle →
      exec (.registerFunction code cb) s = .next { s with res := .invalidParam }) ∧
    (s.inited = true → cb ≠ nullHandle →
      (s.reg = [] → exec (.registerFunction code cb) s = .next { s with reg := [⟨code, cb⟩], res := .ok }) ∧
      ((∃ e ∈ s.reg, e.code = code) → exec (.registerFunction code cb) s = .next { s with res := .duplicateCode }) ∧
      (s.reg ≠ [] → (∀ e ∈ s.reg, e.code ≠ code) → s.reg.length = s.cfg.nFunc →
        exec (.registerFunction code cb) s = .next { s with res := .allocFailure }) ∧
      (s.reg ≠ [] → (∀ e ∈ s.reg, e.code ≠ code) → s.reg.length ≠ s.cfg.nFunc →
        exec (.registerFunction code cb) s = .next { s with reg := s.reg ++ [⟨code, cb⟩], res := .ok }))

/-- LIST_FUNCTIONS (R289): every registered code, each as often as it is registered, in some order (which one is a free
value, log entry 8). -/
def Obligations.ListFunctionsPermutes : Prop :=
  ∀ (s : State), s.inited = true →
    Selects .listFunctions 0x45 ∧
    ∃ codes : List U16, codes.Perm (s.reg.map RegEntry.code) ∧
      exec .listFunctions s = .next { s with draws := s.draws + 1, res := .okCodes codes }

/-- DISPATCH (R284): FUNC_ERR and the event for a code that is not registered; else FUNC_RSP with the code, the number of
return bytes and the return bytes, as the environment settled them, or, where it settled nothing, a free value of at most
`MAX_RET` bytes (R286; log entry 7). -/
def Obligations.DispatchReplies : Prop :=
  ∀ (s : State) (code : U16) (arg : List Byte), Running s → s.parserStuck = false → configWf s.cfg →
    Selects (.dispatch code arg) 0x70 ∧
    ((∀ e ∈ s.reg, e.code ≠ code) →
      exec (.dispatch code arg) s =
        .next { s with
          log := s.log ++ [.unknownFunction code], txq := s.txq ++ wireFrame 0x2C03 [0x01], res := .unknownFunction }) ∧
    ((∃ e ∈ s.reg, e.code = code) →
      (∀ (ret : List Byte) (later : List CbAnswer), s.cbScript = .returns ret.length ret :: later →
        ret.length ≤ s.cfg.maxRet →
        exec (.dispatch code arg) s =
          .next { s with
            cbScript := later, res := .ok
            txq := s.txq ++ wireFrame 0x6C03 (be16 code ++ be16 (BitVec.ofNat 16 ret.length) ++ ret) }) ∧
      (s.cbScript = [] →
        ∃ ret : List Byte, ret.length ≤ s.cfg.maxRet ∧
          exec (.dispatch code arg) s =
            .next { s with
              draws := s.draws + 1, res := .ok
              txq := s.txq ++ wireFrame 0x6C03 (be16 code ++ be16 (BitVec.ofNat 16 ret.length) ++ ret) }))

/-- Callbacks outside their contract (R285, R286, R382): one that returns too much or declares another length is refused
(U4); one that uses its context is refused (U6); one that never returns leaves the parser agent stuck inside it, with nothing
transmitted (U5). From then on every step of the parser agent is a hold that changes nothing, COOP_STEP among them, which the
host agent performs in its place (R310), and a frame that arrives waits in `rxq`: how the model records the stuck agent is log
entry 16. -/
def Obligations.CallbackContract : Prop :=
  ∀ (s : State) (code : U16) (arg ret : List Byte) (declared : Nat) (later : List CbAnswer),
    Running s →
    (s.parserStuck = false → (∃ e ∈ s.reg, e.code = code) →
      (s.cbScript = .returns declared ret :: later → declared ≠ ret.length ∨ s.cfg.maxRet < ret.length →
        exec (.dispatch code arg) s = .refused .callbackContract) ∧
      (s.cbScript = .usesContext :: later → exec (.dispatch code arg) s = .refused .callbackReentry) ∧
      (s.cbScript = .neverReturns :: later →
        exec (.dispatch code arg) s = .next { s with cbScript := later, parserStuck := true, res := .hold })) ∧
    (s.parserStuck = true →
      ∀ i : Instr,
        (parserAgentStep s.cfg i = true → ConsumerCalls s → exec i s = .next { s with res := .hold }) ∧
        (isFrame i = true → exec i s = .next { s with rxq := s.rxq ++ encode i, res := .hold }))

/-! ### The pump -/

/-- INITIALIZE (R308): every register the rule writes, and no other but `txq`, which R46 has empty, and the model's own mark
of a stuck parser; refused on a context that is initialised (U13). -/
def Obligations.InitializeCreatesContext : Prop :=
  ∀ (s : State) (h r w : Handle), s.crcInit = true →
    Selects (.initContext h r w) 0x40 ∧
    (s.inited = false →
      exec (.initContext h r w) s =
        .next { s with
          handle := h, readFn := r, writeFn := w, rin := 0, rout := 0, ps := .seekSync, acnt := 0
          readCls := { s.readCls with slotValid := false, pend := false, cstate := .idle }
          funcCls := { s.funcCls with slotValid := false, pend := false, cstate := .idle }
          reg := [], rxHold := [], txq := [], log := [], parserStuck := false, inited := true, res := .ok }) ∧
    (s.inited = true → exec (.initContext h r w) s = .refused .alreadyInitialized)

/-- RX_STEP (R302, R301) by an agent that steps on its own (R307): a held chunk is tried again; else one transport read
delivers at most `RX_CHUNK_MAX` bytes from the front of `rxq`: as many as the environment answered, none for a non-positive
answer, and where it settled no answer a free number (log entry 6). The chunk goes into the ring, or is held or dropped by
`RX_ON_FULL`. -/
def Obligations.RxStepMovesAChunk : Prop :=
  ∀ (s : State), s.inited = true → AgentsRun s → RingInv s →
    Selects .rxStep 0x80 ∧
    ∃ t, exec .rxStep s = .next t ∧
      (s.rxHold ≠ [] → Delivered s.rxHold s t) ∧
      (s.rxHold = [] →
        ∃ n ≤ min s.cfg.rxChunkMax s.rxq.length,
          (∀ (k : Int) (later : List Int), s.readScript = k :: later →
            n = min k.toNat (min s.cfg.rxChunkMax s.rxq.length) ∧
            Delivered (s.rxq.take n) { s with rxq := s.rxq.drop n, readScript := later } t) ∧
          (s.readScript = [] → Delivered (s.rxq.take n) { s with rxq := s.rxq.drop n, draws := s.draws + 1 } t))

/-- With `RX_ON_FULL = RETRY` no byte is lost between the transport and the parser, and their order is kept (R302): what is
live in the ring, then held, then still in `rxq`, is the same string after an RX_STEP of the RX agent on its own (R307) as
before it. -/
def Obligations.RetryLosesNothing : Prop :=
  ∀ (s : State), s.inited = true → AgentsRun s → RingInv s → s.cfg.rxOnFull = .retry →
    ∃ t, exec .rxStep s = .next t ∧
      ringLive t ++ t.rxHold ++ t.rxq = ringLive s ++ s.rxHold ++ s.rxq ∧ t.log = s.log

/-- TX (R305): the whole operand is appended to the transmit stream in one step. -/
def Obligations.TxAppendsWhole : Prop :=
  ∀ (s : State) (f : List Byte), s.inited = true →
    Selects (.tx f) 0x81 ∧ exec (.tx f) s = .next { s with txq := s.txq ++ f, res := .ok }

/-- COOP_STEP (R310), one pass of its loop (log entry 13), always ends, when the callbacks keep their contract: with FRAME
after a ROUTE step; or with no byte left in the ring: NOFRAME when a class has run out of ticks or none waits, a hold of the
host agent, which makes the next pass, when a class still waits. -/
def Obligations.CoopStepEnds : Prop :=
  ∀ (s : State), Running s → Inv s → s.cfg.sched = .cooperative → s.parserStuck = false →
    (∀ a ∈ s.cbScript, callbackKeepsContract s.cfg a = true) →
    Selects .coopStep 0x82 ∧
    ∃ t, exec .coopStep s = .next t ∧
      ((t.res = .frame ∧ t.ps = .seekSync ∧ t.acnt = 0) ∨
        (ringOcc t = 0 ∧ t.res = .noFrame ∧
          ((∃ c, (classRegs c t).cstate = .waiting ∧ (classRegs c t).tcnt = 0) ∨ ∀ c, (classRegs c t).cstate = .idle)) ∨
        (ringOcc t = 0 ∧ t.res = .hold ∧ (∃ c, (classRegs c t).cstate = .waiting) ∧
          ∀ c, (classRegs c t).cstate = .waiting → 0 < (classRegs c t).tcnt))

/-- COOP_STEP (R310, R389) makes the steps the RX agent and the parser agent make on their own under `SCHED = PREEMPTIVE`, up
to a ROUTE step or a hold (R307). With `u` the state their RX_STEP leaves: the step is the PARSE instructions at `u`, one after
the other; it answers FRAME where the last of them did not hold, and is refused where one is refused. With a frame at the front
of `u`'s ring, wherever its bytes were before (in `rxq`, held back, or in the ring), these are PARSE_SEEK_SYNC, PARSE_READ_LENGTH,
PARSE_READ_BODY and PARSE_ROUTE, and the answer is FRAME, or a hold for a callback that never returns (log entry 16). A response
of class READ is stored and signalled, as in the example of R310; a read or write request of the peer is served at once. What
follows the frame stays in the ring. -/
def Obligations.CoopStepServesResponse : Prop :=
  ∀ (s u : State), Running s → Inv s → s.cfg.sched = .cooperative → s.parserStuck = false →
    exec .rxStep (s.scheduled .preemptive) = .next u →
    (∀ d, parserSteps (ringOcc u + 2) u = .next d →
      ∃ r, (r = .frame ↔ d.res ≠ .hold) ∧ exec .coopStep s = .next { d.scheduled .cooperative with res := r }) ∧
    (∀ q, parserSteps (ringOcc u + 2) u = .refused q → exec .coopStep s = .refused q) ∧
    (∀ (ty : U16) (payload rest : List Byte), s.ps = .seekSync → Fits s payload →
      ringLive u = wireFrame ty payload ++ rest →
      (∃ a b c, exec .parseSeekSync u = .next a ∧ exec .parseReadLength a = .next b ∧ exec .parseReadBody b = .next c ∧
        (∀ d, exec .parseRoute c = .next d →
          exec .coopStep s =
            .next { d.scheduled .cooperative with res := if d.parserStuck then .hold else .frame }) ∧
        (∀ q, exec .parseRoute c = .refused q → exec .coopStep s = .refused q)) ∧
      (∀ hi : BitVec 7, ty = frameType false hi 0x02 →
        ∃ t, exec .coopStep s = .next t ∧ t.res = .frame ∧ ringLive t = rest ∧ t.ps = .seekSync ∧
          t.readCls = { s.readCls with
            slot := be16 ty ++ payload, slotLen := payload.length + 2, slotValid := true, pend := true } ∧
          t.mem = s.mem ∧ t.txq = s.txq ∧ t.log = u.log ∧ t.funcCls = s.funcCls ∧ t.reg = s.reg) ∧
      (∀ (hi : BitVec 7) (addr len : U16), ty = frameType true hi 0x02 → payload = be16 addr ++ be16 len →
        ∃ t m, exec .coopStep s = .next t ∧ exec (.msRead addr len) u = .next m ∧ t.res = .frame ∧ ringLive t = rest ∧
          t.ps = .seekSync ∧ t.txq = m.txq ∧ t.log = m.log ∧ t.mem = s.mem) ∧
      (∀ (hi : BitVec 7) (addr : U16) (data : List Byte), ty = frameType true hi 0x01 →
        payload = be16 addr ++ be16 (BitVec.ofNat 16 data.length) ++ data →
        ∃ t m, exec .coopStep s = .next t ∧ exec (.msWrite addr data) u = .next m ∧ t.res = .frame ∧ ringLive t = rest ∧
          t.ps = .seekSync ∧ t.mem = m.mem ∧ t.log = m.log ∧ t.txq = s.txq))

/-- Who may step when. COOP_STEP needs `SCHED = COOPERATIVE` (R310). With `SCHED = COOPERATIVE` neither the RX agent nor the
parser agent steps on its own, and frames are processed inside COOP_STEP alone (R307, R389): a frame that arrives waits in
`rxq`, and RX_STEP and the PARSE instructions hold; that each is a hold is log entry 17. A PARSE instruction belongs to its
own parser state (R190). RB_PUT by another agent than the ring's producer and RB_GET by another than its consumer are refused
(R136, U2; who calls is log entry 24): they are the RX agent and the parser agent, and with `SCHED = COOPERATIVE` the host
agent in their place. Before INITIALIZE every operation of a context is refused, but INITIALIZE itself and REGISTER_FUNCTION,
which answers INVALID_PARAM (R374, U3); CRC operations and ENCODE are no operations of a context. -/
def Obligations.StepPreconditions : Prop :=
  ∀ (s : State) (i : Instr) (code : U16) (cb : Handle) (a : Agent) (b : List Byte) (m : Nat),
    (Running s →
      (s.cfg.sched ≠ .cooperative → exec .coopStep s = .refused .notCooperative) ∧
      (s.cfg.sched = .cooperative → isFrame i = true →
        exec i s = .next { s with rxq := s.rxq ++ encode i, res := .hold }) ∧
      (s.cfg.sched = .cooperative →
        exec .rxStep s = .next { s with res := .hold } ∧ exec .parseSeekSync s = .next { s with res := .hold } ∧
        exec .parseReadLength s = .next { s with res := .hold } ∧
        exec .parseReadBody s = .next { s with res := .hold } ∧ exec .parseRoute s = .next { s with res := .hold }) ∧
      (ParserRuns s →
        (s.ps ≠ .seekSync → exec .parseSeekSync s = .refused (.otherParserState s.ps)) ∧
        (s.ps ≠ .readLength → exec .parseReadLength s = .refused (.otherParserState s.ps)) ∧
        (s.ps ≠ .readBody → exec .parseReadBody s = .refused (.otherParserState s.ps)) ∧
        (s.ps ≠ .route → exec .parseRoute s = .refused (.otherParserState s.ps)))) ∧
    (s.inited = true → s.ringCaller = some a →
      (s.cfg.sched ≠ .cooperative →
        (a ≠ .rx → exec (.rbPut b) s = .refused (.secondProducer a)) ∧
        (a ≠ .parser → exec (.rbGet m) s = .refused (.secondConsumer a))) ∧
      (s.cfg.sched = .cooperative →
        (a ≠ .host → exec (.rbPut b) s = .refused (.secondProducer a)) ∧
        (a ≠ .host → exec (.rbGet m) s = .refused (.secondConsumer a)))) ∧
    (s.inited = false →
      (needsContext i = true → exec i s = .refused .notInitialized) ∧
      exec (.registerFunction code cb) s = .next { s with res := .invalidParam })

/-! ### Two endpoints -/

/-- A remote read, end to end (R222, R230, R263, R290, R74): the reply a slave transmits for MS_READ of a legal address is a
READ_RSP frame; a master whose read call of that address waits, and that receives it, returns OK with the clamped length and
the bytes of the slave's Memory Space. That the master receives the frame in one step is the model's choice (log entry 11). -/
def Obligations.RemoteReadEndToEnd : Prop :=
  ∀ (slave master : State) (addr len : U16), Running slave → slave.parserStuck = false → configWf slave.cfg →
    slave.cfg.memSize + 15 ≤ slave.cfg.maxFrame → addr.toNat < slave.cfg.memSize →
    Receiving master → slave.cfg.maxFrame ≤ master.cfg.maxFrame →
    master.readCls.cstate = .waiting → master.readCls.echoSet = true → master.readCls.echo = addr →
    ∃ slave' f m m' data, exec (.msRead addr len) slave = .next slave' ∧
      slave'.txq = slave.txq ++ frameBytes 0x6C02 f ∧ f.hi = 0x6C ∧ exec (.readRsp f) master = .next m ∧
      exec (.corrWait .read) m = .next m' ∧ m'.res = .okData (BitVec.ofNat 16 data.length) data ∧
      data.length = min len.toNat (slave.cfg.memSize - addr.toNat) ∧
      (∀ j < data.length, byteAt data j = memRead slave.mem (addr.toNat + j)) ∧
      m'.readCls.cstate = .idle ∧ m'.mem = master.mem

/-- A remote write, end to end (R221, R261, R174): what WRITE_REMOTE_MEMORY transmits is a WRITE_REQ frame, and a slave that
receives it holds the data at the address, every other byte as it was, and transmits nothing. That the slave receives the
frame in one step is the model's choice (log entry 11). -/
def Obligations.RemoteWriteEndToEnd : Prop :=
  ∀ (master slave : State) (addr len : U16) (data : List Byte), Running master → configWf master.cfg →
    len.toNat = data.length → data.length + 15 ≤ master.cfg.maxFrame → master.cfg.maxFrame ≤ slave.cfg.maxFrame →
    Receiving slave →
    addr.toNat + data.length ≤ slave.cfg.memSize →
    ∃ m f t, exec (.writeRemoteMemory addr len data) master = .next m ∧
      m.txq = master.txq ++ frameBytes 0xEC01 f ∧ f.hi = 0x6C ∧ exec (.writeReq f) slave = .next t ∧
      (∀ a, memRead t.mem a =
        if addr.toNat ≤ a ∧ a < addr.toNat + data.length then byteAt data (a - addr.toNat) else memRead slave.mem a) ∧
      t.txq = slave.txq

/-- The answer to a call of a registered function validates (R284, R290, its fifth law): the FUNC_RSP a DISPATCH transmits,
delivered to a call of that code, is OK with the length and the bytes the callback returned. How the callback's answer is
settled is log entry 7, and that the master receives the frame in one step log entry 11. -/
def Obligations.RemoteCallEndToEnd : Prop :=
  ∀ (slave master : State) (code : U16) (arg ret : List Byte) (later : List CbAnswer), Running slave →
    slave.parserStuck = false → configWf slave.cfg → (∃ e ∈ slave.reg, e.code = code) →
    slave.cbScript = .returns ret.length ret :: later → ret.length ≤ slave.cfg.maxRet →
    Receiving master → slave.cfg.maxFrame ≤ master.cfg.maxFrame →
    master.funcCls.cstate = .waiting → master.funcCls.echoSet = true → master.funcCls.echo = code →
    ∃ slave' f m m', exec (.dispatch code arg) slave = .next slave' ∧
      slave'.txq = slave.txq ++ frameBytes 0x6C03 f ∧ f.hi = 0x6C ∧ exec (.funcRsp f) master = .next m ∧
      exec (.corrWait .func) m = .next m' ∧ m'.res = .okData (BitVec.ofNat 16 ret.length) ret ∧
      m'.funcCls.cstate = .idle
end

