-- ==== Sys2Proof/Laws/Crc.lean ====
section
/-! SUPPORT. The CRC engine (spec/41_crc32.md): the shift register is linear over exclusive or, so the table-driven update is eight
steps of it (R153, R155); big-endian words read back; the trailer operations and ENCODE as bytes (R156, R157, R171). -/

namespace Sys2Proof

/-! ### The shift register -/

theorem crcShift_xor (a b : U32) : crcShift (a ^^^ b) = crcShift a ^^^ crcShift b := by
  unfold crcShift
  rw [BitVec.getLsbD_xor, BitVec.ushiftRight_xor_distrib]
  cases a.getLsbD 0 <;> cases b.getLsbD 0 <;> simp
  · ac_rfl
  · ac_rfl
  · rw [BitVec.xor_assoc, BitVec.xor_comm crcPoly, BitVec.xor_assoc, BitVec.xor_self]
    simp

theorem crcShift8_xor (a b : U32) : crcShift8 (a ^^^ b) = crcShift8 a ^^^ crcShift8 b := by
  simp only [crcShift8, crcShift_xor]

/-- A register whose low bit is clear only shifts. -/
theorem crcShift_even (a : U32) (h : a.getLsbD 0 = false) : crcShift a = a >>> 1 := by
  unfold crcShift
  rw [h]
  rfl

/-- A register whose low byte is clear is shifted by a byte. -/
theorem crcShift8_high (y : U32) (h : ∀ i < 8, y.getLsbD i = false) : crcShift8 y = y >>> 8 := by
  have step : ∀ n < 8, crcShift (y >>> n) = y >>> (n + 1) := by
    intro n hn
    rw [crcShift_even _ (by simpa using h n hn), BitVec.shiftRight_add]
  have h0 : y = y >>> 0 := by simp
  unfold crcShift8
  rw [show crcShift y = y >>> 1 from by simpa using step 0 (by decide), step 1 (by decide), step 2 (by decide),
    step 3 (by decide), step 4 (by decide), step 5 (by decide), step 6 (by decide), step 7 (by decide)]

theorem crcTableGen_length : crcTableGen.length = 256 := by simp [crcTableGen]

theorem crcTableGen_getD (i : Nat) (h : i < 256) : crcTableGen.getD i 0 = crcShift8 (BitVec.ofNat 32 i) := by
  simp [crcTableGen, crcTableEntry, h]

/-- Eight steps of the register are the table entry of its low byte and a shift by a byte. -/
theorem crcShift8_table (x : U32) :
    crcShift8 x = crcTableGen.getD (x &&& 0xFF#32).toNat 0 ^^^ (x >>> 8) := by
  have hlow : (x &&& 0xFF#32).toNat < 256 := by
    rw [BitVec.toNat_and]
    exact Nat.lt_of_le_of_lt Nat.and_le_right (by decide)
  rw [crcTableGen_getD _ hlow]
  rw [show BitVec.ofNat 32 (x &&& 0xFF#32).toNat = x &&& 0xFF#32 by simp]
  have mask : ∀ j < 32, (0xFF#32).getLsbD j = decide (j < 8) := by decide
  have hsplit : x = (x &&& 0xFF#32) ^^^ ((x >>> 8) <<< 8) := by
    apply BitVec.eq_of_getLsbD_eq
    intro i hi
    rw [BitVec.getLsbD_xor, BitVec.getLsbD_and, BitVec.getLsbD_shiftLeft, BitVec.getLsbD_ushiftRight, mask i hi]
    by_cases h8 : i < 8
    · simp [h8]
    · simp only [hi, h8, decide_true, decide_false, Bool.and_false, Bool.false_xor, Bool.true_and, Bool.not_false]
      rw [show 8 + (i - 8) = i by omega]
  conv => lhs; rw [hsplit, crcShift8_xor]
  rw [crcShift8_high ((x >>> 8) <<< 8) (by intro i hi; simp [hi])]
  congr 1
  apply BitVec.eq_of_getLsbD_eq
  intro i hi
  simp only [BitVec.getLsbD_shiftLeft, BitVec.getLsbD_ushiftRight]
  by_cases h8 : 8 + i < 32
  · simp [h8]
  · simp [h8, BitVec.getLsbD_of_ge x (8 + i) (by omega)]

/-- The table-driven update is eight steps of the register (R153, R155). -/
theorem crcUpdate_gen (acc : U32) (d : Byte) : crcUpdate crcTableGen acc d = crcShift8 (acc ^^^ d.setWidth 32) := by
  rw [crcShift8_table, crcUpdate]
  congr 1
  rw [BitVec.ushiftRight_xor_distrib]
  have : d.setWidth 32 >>> 8 = 0#32 := by
    apply BitVec.eq_of_getLsbD_eq
    intro i hi
    simp
  rw [this]; simp

theorem crcAccumulate_gen (data : List Byte) : crcAccumulate crcTableGen data ^^^ crcOnes = crcBitwise data := by
  unfold crcAccumulate crcBitwise
  congr 1
  have : ∀ acc : U32, data.foldl (crcUpdate crcTableGen) acc =
      data.foldl (fun c d => crcShift8 (c ^^^ d.setWidth 32)) acc := by
    induction data with
    | nil => intro acc; rfl
    | cons d ds ih => intro acc; rw [List.foldl_cons, List.foldl_cons, crcUpdate_gen, ih]
  exact this crcOnes

/-- The checksum over the generated table, bit by bit (R155). -/
theorem crcChecksum_gen (data : List Byte) (n : Nat) : crcChecksum crcTableGen data n = crcBitwise (data.take n) :=
  crcAccumulate_gen _

/-! ### Big-endian words -/

@[simp] theorem be16_length (v : U16) : (be16 v).length = 2 := rfl
@[simp] theorem be32_length (v : U32) : (be32 v).length = 4 := rfl

theorem append_extract16 (v : U16) : v.extractLsb' 8 8 ++ v.extractLsb' 0 8 = v := by
  apply BitVec.eq_of_getLsbD_eq
  intro i hi
  simp only [BitVec.getLsbD_append, BitVec.getLsbD_extractLsb']
  by_cases h : i < 8
  · simp [h]
  · simp [h, show i - 8 < 8 by omega, show 8 + (i - 8) = i by omega]

theorem append_extract32 (v : U32) :
    v.extractLsb' 24 8 ++ v.extractLsb' 16 8 ++ (v.extractLsb' 8 8 ++ v.extractLsb' 0 8) = v := by
  apply BitVec.eq_of_getLsbD_eq
  intro i hi
  simp only [BitVec.getLsbD_append, BitVec.getLsbD_extractLsb']
  by_cases h : i < 8
  · simp [h, show i < 8 + 8 by omega]
  · by_cases h2 : i < 16
    · simp [h, h2, show i - 8 < 8 by omega, show 8 + (i - 8) = i by omega]
    · by_cases h3 : i < 24
      · simp [show ¬ i < 8 + 8 by omega, show i - (8 + 8) < 8 by omega, show 16 + (i - (8 + 8)) = i by omega]
      · simp [show ¬ i < 8 + 8 by omega, show ¬ i - (8 + 8) < 8 by omega, show i - (8 + 8) - 8 < 8 by omega,
          show 24 + (i - (8 + 8) - 8) = i by omega]

/-- A byte of an appended string. -/
theorem byteAt_append_right (a b : List Byte) (i : Nat) (h : a.length ≤ i) : byteAt (a ++ b) i = byteAt b (i - a.length) := by
  simp [byteAt, List.getElem?_append_right h]

theorem byteAt_append_left (a b : List Byte) (i : Nat) (h : i < a.length) : byteAt (a ++ b) i = byteAt a i := by
  simp [byteAt, List.getElem?_append_left h]

theorem byteAt_take (a : List Byte) (n i : Nat) (h : i < n) : byteAt (a.take n) i = byteAt a i := by
  simp [byteAt, h]

/-- A word written most significant byte first reads back (R61, R62). -/
theorem u16be_be16 (a : List Byte) (v : U16) (rest : List Byte) : u16be (a ++ (be16 v ++ rest)) a.length = v := by
  have h0 : byteAt (a ++ (be16 v ++ rest)) a.length = v.extractLsb' 8 8 := by
    rw [byteAt_append_right _ _ _ (Nat.le_refl _), Nat.sub_self]; rfl
  have h1 : byteAt (a ++ (be16 v ++ rest)) (a.length + 1) = v.extractLsb' 0 8 := by
    rw [byteAt_append_right _ _ _ (Nat.le_add_right _ _), Nat.add_sub_cancel_left]; rfl
  rw [u16be, h0, h1, append_extract16]

theorem u32be_be32 (a : List Byte) (v : U32) (rest : List Byte) : u32be (a ++ (be32 v ++ rest)) a.length = v := by
  have h0 : byteAt (a ++ (be32 v ++ rest)) a.length = v.extractLsb' 24 8 := by
    rw [byteAt_append_right _ _ _ (Nat.le_refl _), Nat.sub_self]; rfl
  have h1 : byteAt (a ++ (be32 v ++ rest)) (a.length + 1) = v.extractLsb' 16 8 := by
    rw [byteAt_append_right _ _ _ (Nat.le_add_right _ _), Nat.add_sub_cancel_left]; rfl
  have h2 : byteAt (a ++ (be32 v ++ rest)) (a.length + 2) = v.extractLsb' 8 8 := by
    rw [byteAt_append_right _ _ _ (Nat.le_add_right _ _), Nat.add_sub_cancel_left]; rfl
  have h3 : byteAt (a ++ (be32 v ++ rest)) (a.length + 3) = v.extractLsb' 0 8 := by
    rw [byteAt_append_right _ _ _ (Nat.le_add_right _ _), Nat.add_sub_cancel_left]; rfl
  rw [u32be, h0, h1, h2, h3, append_extract32]

/-! ### The trailer and the encoder -/

theorem splice_length (b : List Byte) (i : Nat) (r : List Byte) (h : i + r.length ≤ b.length) :
    (splice b i r).length = b.length := by
  simp [splice]; omega

/-- CRC_STORE as bytes (R156). -/
theorem crcStoreTrailer_gen (buf : List Byte) (total : Nat) (h4 : 4 ≤ total) :
    crcStoreTrailer crcTableGen buf total =
      buf.take (total - 4) ++ be32 (crcBitwise (buf.take (total - 4))) ++ buf.drop total := by
  unfold crcStoreTrailer splice
  rw [crcChecksum_gen, be32_length, show total - 4 + 4 = total by omega]

/-- CRC_VERIFY as a comparison (R157). -/
theorem crcVerifyTrailer_gen (buf : List Byte) (total : Nat) :
    crcVerifyTrailer crcTableGen buf total = decide (crcBitwise (buf.take (total - 4)) = u32be buf (total - 4)) := by
  unfold crcVerifyTrailer
  rw [crcChecksum_gen]
  rfl

/-- ENCODE as bytes (R171). -/
theorem encodeWith_gen (c : Config) (ty : U16) (payload : List Byte) :
    encodeWith c crcTableGen ty payload =
      if payload.length + 10 < c.maxFrame then some (Machine.wireFrame ty payload) else none := by
  unfold encodeWith
  by_cases h : payload.length + 10 < c.maxFrame
  · rw [if_pos h, if_neg (by omega), crcStoreTrailer_gen _ _ (by omega)]
    have hl : (frameHead ty (BitVec.ofNat 16 (payload.length + 6)) payload).length = payload.length + 6 + 4 - 4 := by
      simp [frameHead]; omega
    rw [List.take_left' hl, List.drop_eq_nil_of_le (by simp [frameHead]; omega), List.append_nil]
    rfl
  · rw [if_neg h, if_pos (by omega)]

theorem wireFrame_length (ty : U16) (payload : List Byte) :
    (Machine.wireFrame ty payload).length = payload.length + 10 := by
  simp [Machine.wireFrame]; omega

end Sys2Proof
end

