-- ==== Sys2Proof/Laws/Memory.lean ====
section
/-! SUPPORT. The Memory Space: every operation keeps its canonical form and its bounds, a read after a write, and the byte loop of
MS_WRITE (spec/45_memory_service.md R261, R262, R267). -/

namespace Sys2Proof.Machine

/-! ### One byte -/

/-- A listed address lies at or above the bound the list was sorted from. -/
theorem memFind_lt {m : Mem} {lo a : Nat} (h : memSorted lo m = true) (ha : a < lo) : memFind m a = none := by
  induction m generalizing lo with
  | nil => rfl
  | cons c rest ih =>
    obtain ⟨k, v⟩ := c
    simp only [memSorted, Bool.and_eq_true, decide_eq_true_eq] at h
    have : a ≠ k := by omega
    simp only [memFind, this, if_false]
    exact ih h.2 (by omega)

/-- A read of the address just written finds the byte written. -/
theorem memFind_write_same (m : Mem) (a : Nat) (v : Byte) : memFind (memWrite m a v) a = some v := by
  induction m with
  | nil => simp [memWrite, memFind]
  | cons c rest ih =>
    obtain ⟨k, w⟩ := c
    unfold memWrite
    split
    · simp [memFind]
    · split
      · simp [memFind]
      · rename_i h1 h2
        simpa [memFind, h2] using ih

/-- A write leaves every other address alone. -/
theorem memFind_write_other (m : Mem) (a b : Nat) (v : Byte) (h : b ≠ a) :
    memFind (memWrite m a v) b = memFind m b := by
  induction m with
  | nil => simp [memWrite, memFind, h]
  | cons c rest ih =>
    obtain ⟨k, w⟩ := c
    unfold memWrite
    split
    · simp [memFind, h]
    · split
      · rename_i h1 h2
        subst h2
        simp [memFind, h]
      · simp [memFind, ih]

theorem memRead_write_same (m : Mem) (a : Nat) (v : Byte) : memRead (memWrite m a v) a = v := by
  simp [memRead, memFind_write_same]

theorem memRead_write_other (m : Mem) (a b : Nat) (v : Byte) (h : b ≠ a) :
    memRead (memWrite m a v) b = memRead m b := by
  simp [memRead, memFind_write_other m a b v h]

/-! ### The canonical form -/

theorem memWrite_sorted {m : Mem} {lo a : Nat} (v : Byte) (h : memSorted lo m = true) (ha : lo ≤ a) :
    memSorted lo (memWrite m a v) = true := by
  induction m generalizing lo with
  | nil => simp [memWrite, memSorted, ha]
  | cons c rest ih =>
    obtain ⟨k, w⟩ := c
    simp only [memSorted, Bool.and_eq_true, decide_eq_true_eq] at h
    unfold memWrite
    split
    · simp only [memSorted, Bool.and_eq_true, decide_eq_true_eq]
      exact ⟨ha, by omega, h.2⟩
    · split
      · rename_i h1 h2
        subst h2
        simp only [memSorted, Bool.and_eq_true, decide_eq_true_eq]
        exact ⟨ha, h.2⟩
      · simp only [memSorted, Bool.and_eq_true, decide_eq_true_eq]
        exact ⟨h.1, ih h.2 (by omega)⟩

/-- A write keeps the canonical form. -/
theorem memWrite_wf {m : Mem} (a : Nat) (v : Byte) (h : memWf m = true) : memWf (memWrite m a v) = true :=
  memWrite_sorted v h (Nat.zero_le a)

/-- A write inside the Memory Space keeps the list inside it. -/
theorem memWrite_below {m : Mem} {size a : Nat} (v : Byte) (h : memBelow size m = true) (ha : a < size) :
    memBelow size (memWrite m a v) = true := by
  induction m with
  | nil => simp [memWrite, memBelow, ha]
  | cons c rest ih =>
    obtain ⟨k, w⟩ := c
    simp only [memBelow, List.all_cons, Bool.and_eq_true, decide_eq_true_eq] at h ih
    unfold memWrite
    split
    · simp [memBelow, ha, h]
    · split
      · simp [memBelow, ha, h]
      · simp only [memBelow, List.all_cons, Bool.and_eq_true, decide_eq_true_eq]
        exact ⟨h.1, ih h.2⟩

/-! ### The loop of MS_WRITE -/

/-- Everything the byte loop does to the Memory Space: from index `i` on, the bytes that fit are stored, and no other byte
changes (R261, R262, R267). -/
theorem msWriteLoop_read (memSize addr : Nat) (ds : List Byte) (i : Nat) (m : Mem) (a : Nat) :
    memRead (msWriteLoop memSize addr i ds m).1 a =
      if addr + i ≤ a ∧ a < addr + i + ds.length ∧ a < memSize then ds.getD (a - (addr + i)) 0
      else memRead m a := by
  induction ds generalizing i m with
  | nil =>
    have h0 : ¬(addr + i ≤ a ∧ a < addr + i + ([] : List Byte).length ∧ a < memSize) := by
      simp only [List.length_nil]; omega
    rw [if_neg h0, msWriteLoop]
  | cons d ds ih =>
    unfold msWriteLoop
    split
    · rename_i h
      rw [if_neg (by omega)]
    · rename_i h
      rw [ih]
      simp only [List.length_cons]
      by_cases ha : a = addr + i
      · subst ha
        have h1 : ¬(addr + (i + 1) ≤ addr + i ∧ addr + i < addr + (i + 1) + ds.length ∧ addr + i < memSize) := by omega
        have h2 : addr + i ≤ addr + i ∧ addr + i < addr + i + (ds.length + 1) ∧ addr + i < memSize := by omega
        rw [if_neg h1, if_pos h2, memRead_write_same]
        simp
      · rw [memRead_write_other _ _ _ _ ha]
        by_cases h2 : addr + i ≤ a ∧ a < addr + i + (ds.length + 1) ∧ a < memSize
        · have h1 : addr + (i + 1) ≤ a ∧ a < addr + (i + 1) + ds.length ∧ a < memSize := by omega
          rw [if_pos h1, if_pos h2]
          have : a - (addr + i) = a - (addr + (i + 1)) + 1 := by omega
          rw [this, List.getD_cons_succ]
        · have h1 : ¬(addr + (i + 1) ≤ a ∧ a < addr + (i + 1) + ds.length ∧ a < memSize) := by omega
          rw [if_neg h1, if_neg h2]

/-- The loop overflows at the first index whose address is outside the Memory Space, and only there (R261). -/
theorem msWriteLoop_overflow (memSize addr : Nat) (ds : List Byte) (i : Nat) (m : Mem) (hi : i = 0 ∨ addr + i ≤ memSize) :
    (msWriteLoop memSize addr i ds m).2 =
      if ds = [] ∨ addr + i + ds.length ≤ memSize then none else some (max i (memSize - addr)) := by
  induction ds generalizing i m with
  | nil => simp [msWriteLoop]
  | cons d ds ih =>
    unfold msWriteLoop
    simp only [List.length_cons]
    split
    · rename_i h
      have h1 : ¬(addr + i + (ds.length + 1) ≤ memSize) := by omega
      have h2 : max i (memSize - addr) = i := by omega
      simp [h1, h2]
    · rename_i h
      rw [ih (i + 1) _ (Or.inr (by omega))]
      by_cases hd : ds = []
      · subst hd
        have : addr + i + (0 + 1) ≤ memSize := by omega
        simp [this]
      · have hl : 0 < ds.length := List.length_pos_iff.mpr hd
        by_cases hf : addr + i + (ds.length + 1) ≤ memSize
        · have : addr + (i + 1) + ds.length ≤ memSize := by omega
          simp [this, hf]
        · have h1 : ¬(addr + (i + 1) + ds.length ≤ memSize) := by omega
          have h2 : max (i + 1) (memSize - addr) = max i (memSize - addr) := by omega
          simp [h1, hf, h2, hd]

/-- The loop keeps the canonical form. -/
theorem msWriteLoop_wf (memSize addr : Nat) (ds : List Byte) (i : Nat) (m : Mem) (h : memWf m = true) :
    memWf (msWriteLoop memSize addr i ds m).1 = true := by
  induction ds generalizing i m with
  | nil => exact h
  | cons d ds ih =>
    unfold msWriteLoop
    split
    · exact h
    · exact ih _ _ (memWrite_wf _ _ h)

/-- The loop keeps the list inside the Memory Space. -/
theorem msWriteLoop_below (memSize addr : Nat) (ds : List Byte) (i : Nat) (m : Mem) (h : memBelow memSize m = true) :
    memBelow memSize (msWriteLoop memSize addr i ds m).1 = true := by
  induction ds generalizing i m with
  | nil => exact h
  | cons d ds ih =>
    unfold msWriteLoop
    split
    · exact h
    · exact ih _ _ (memWrite_below _ h (by omega))

/-- A read has `n` bytes. -/
@[simp] theorem memReadBytes_length (m : Mem) (addr n : Nat) : (memReadBytes m addr n).length = n := by
  simp [memReadBytes]

end Sys2Proof.Machine
end

