-- ==== Sys2Proof/Laws/State.lean ====
section
/-! SUPPORT. One lemma per field of State for every named update of State: what the update leaves in the field. -/

namespace Sys2Proof.Machine

/-! ### answer -/

@[simp] theorem answer_cfg (r : Result) (s : State) : (answer r s).cfg = s.cfg := rfl
@[simp] theorem answer_rbuf (r : Result) (s : State) : (answer r s).rbuf = s.rbuf := rfl
@[simp] theorem answer_rin (r : Result) (s : State) : (answer r s).rin = s.rin := rfl
@[simp] theorem answer_rout (r : Result) (s : State) : (answer r s).rout = s.rout := rfl
@[simp] theorem answer_crcTable (r : Result) (s : State) : (answer r s).crcTable = s.crcTable := rfl
@[simp] theorem answer_crcInit (r : Result) (s : State) : (answer r s).crcInit = s.crcInit := rfl
@[simp] theorem answer_crcAcc (r : Result) (s : State) : (answer r s).crcAcc = s.crcAcc := rfl
@[simp] theorem answer_ps (r : Result) (s : State) : (answer r s).ps = s.ps := rfl
@[simp] theorem answer_abuf (r : Result) (s : State) : (answer r s).abuf = s.abuf := rfl
@[simp] theorem answer_acnt (r : Result) (s : State) : (answer r s).acnt = s.acnt := rfl
@[simp] theorem answer_asize (r : Result) (s : State) : (answer r s).asize = s.asize := rfl
@[simp] theorem answer_readCls (r : Result) (s : State) : (answer r s).readCls = s.readCls := rfl
@[simp] theorem answer_funcCls (r : Result) (s : State) : (answer r s).funcCls = s.funcCls := rfl
@[simp] theorem answer_mem (r : Result) (s : State) : (answer r s).mem = s.mem := rfl
@[simp] theorem answer_reg (r : Result) (s : State) : (answer r s).reg = s.reg := rfl
@[simp] theorem answer_handle (r : Result) (s : State) : (answer r s).handle = s.handle := rfl
@[simp] theorem answer_readFn (r : Result) (s : State) : (answer r s).readFn = s.readFn := rfl
@[simp] theorem answer_writeFn (r : Result) (s : State) : (answer r s).writeFn = s.writeFn := rfl
@[simp] theorem answer_rxq (r : Result) (s : State) : (answer r s).rxq = s.rxq := rfl
@[simp] theorem answer_rxHold (r : Result) (s : State) : (answer r s).rxHold = s.rxHold := rfl
@[simp] theorem answer_txq (r : Result) (s : State) : (answer r s).txq = s.txq := rfl
@[simp] theorem answer_inited (r : Result) (s : State) : (answer r s).inited = s.inited := rfl
@[simp] theorem answer_log (r : Result) (s : State) : (answer r s).log = s.log := rfl
@[simp] theorem answer_parserStuck (r : Result) (s : State) : (answer r s).parserStuck = s.parserStuck := rfl
@[simp] theorem answer_port (r : Result) (s : State) : (answer r s).port = s.port := rfl
@[simp] theorem answer_res (r : Result) (s : State) : (answer r s).res = r := rfl
@[simp] theorem answer_ringCaller (r : Result) (s : State) : (answer r s).ringCaller = s.ringCaller := rfl
@[simp] theorem answer_readScript (r : Result) (s : State) : (answer r s).readScript = s.readScript := rfl
@[simp] theorem answer_cbScript (r : Result) (s : State) : (answer r s).cbScript = s.cbScript := rfl
@[simp] theorem answer_draws (r : Result) (s : State) : (answer r s).draws = s.draws := rfl

/-! ### raise -/

@[simp] theorem raise_cfg (e : Event) (s : State) : (raise e s).cfg = s.cfg := rfl
@[simp] theorem raise_rbuf (e : Event) (s : State) : (raise e s).rbuf = s.rbuf := rfl
@[simp] theorem raise_rin (e : Event) (s : State) : (raise e s).rin = s.rin := rfl
@[simp] theorem raise_rout (e : Event) (s : State) : (raise e s).rout = s.rout := rfl
@[simp] theorem raise_crcTable (e : Event) (s : State) : (raise e s).crcTable = s.crcTable := rfl
@[simp] theorem raise_crcInit (e : Event) (s : State) : (raise e s).crcInit = s.crcInit := rfl
@[simp] theorem raise_crcAcc (e : Event) (s : State) : (raise e s).crcAcc = s.crcAcc := rfl
@[simp] theorem raise_ps (e : Event) (s : State) : (raise e s).ps = s.ps := rfl
@[simp] theorem raise_abuf (e : Event) (s : State) : (raise e s).abuf = s.abuf := rfl
@[simp] theorem raise_acnt (e : Event) (s : State) : (raise e s).acnt = s.acnt := rfl
@[simp] theorem raise_asize (e : Event) (s : State) : (raise e s).asize = s.asize := rfl
@[simp] theorem raise_readCls (e : Event) (s : State) : (raise e s).readCls = s.readCls := rfl
@[simp] theorem raise_funcCls (e : Event) (s : State) : (raise e s).funcCls = s.funcCls := rfl
@[simp] theorem raise_mem (e : Event) (s : State) : (raise e s).mem = s.mem := rfl
@[simp] theorem raise_reg (e : Event) (s : State) : (raise e s).reg = s.reg := rfl
@[simp] theorem raise_handle (e : Event) (s : State) : (raise e s).handle = s.handle := rfl
@[simp] theorem raise_readFn (e : Event) (s : State) : (raise e s).readFn = s.readFn := rfl
@[simp] theorem raise_writeFn (e : Event) (s : State) : (raise e s).writeFn = s.writeFn := rfl
@[simp] theorem raise_rxq (e : Event) (s : State) : (raise e s).rxq = s.rxq := rfl
@[simp] theorem raise_rxHold (e : Event) (s : State) : (raise e s).rxHold = s.rxHold := rfl
@[simp] theorem raise_txq (e : Event) (s : State) : (raise e s).txq = s.txq := rfl
@[simp] theorem raise_inited (e : Event) (s : State) : (raise e s).inited = s.inited := rfl
@[simp] theorem raise_log (e : Event) (s : State) : (raise e s).log = s.log ++ [e] := rfl
@[simp] theorem raise_parserStuck (e : Event) (s : State) : (raise e s).parserStuck = s.parserStuck := rfl
@[simp] theorem raise_port (e : Event) (s : State) : (raise e s).port = s.port := rfl
@[simp] theorem raise_res (e : Event) (s : State) : (raise e s).res = s.res := rfl
@[simp] theorem raise_ringCaller (e : Event) (s : State) : (raise e s).ringCaller = s.ringCaller := rfl
@[simp] theorem raise_readScript (e : Event) (s : State) : (raise e s).readScript = s.readScript := rfl
@[simp] theorem raise_cbScript (e : Event) (s : State) : (raise e s).cbScript = s.cbScript := rfl
@[simp] theorem raise_draws (e : Event) (s : State) : (raise e s).draws = s.draws := rfl

/-! ### transmit -/

@[simp] theorem transmit_cfg (f : List Byte) (s : State) : (transmit f s).cfg = s.cfg := rfl
@[simp] theorem transmit_rbuf (f : List Byte) (s : State) : (transmit f s).rbuf = s.rbuf := rfl
@[simp] theorem transmit_rin (f : List Byte) (s : State) : (transmit f s).rin = s.rin := rfl
@[simp] theorem transmit_rout (f : List Byte) (s : State) : (transmit f s).rout = s.rout := rfl
@[simp] theorem transmit_crcTable (f : List Byte) (s : State) : (transmit f s).crcTable = s.crcTable := rfl
@[simp] theorem transmit_crcInit (f : List Byte) (s : State) : (transmit f s).crcInit = s.crcInit := rfl
@[simp] theorem transmit_crcAcc (f : List Byte) (s : State) : (transmit f s).crcAcc = s.crcAcc := rfl
@[simp] theorem transmit_ps (f : List Byte) (s : State) : (transmit f s).ps = s.ps := rfl
@[simp] theorem transmit_abuf (f : List Byte) (s : State) : (transmit f s).abuf = s.abuf := rfl
@[simp] theorem transmit_acnt (f : List Byte) (s : State) : (transmit f s).acnt = s.acnt := rfl
@[simp] theorem transmit_asize (f : List Byte) (s : State) : (transmit f s).asize = s.asize := rfl
@[simp] theorem transmit_readCls (f : List Byte) (s : State) : (transmit f s).readCls = s.readCls := rfl
@[simp] theorem transmit_funcCls (f : List Byte) (s : State) : (transmit f s).funcCls = s.funcCls := rfl
@[simp] theorem transmit_mem (f : List Byte) (s : State) : (transmit f s).mem = s.mem := rfl
@[simp] theorem transmit_reg (f : List Byte) (s : State) : (transmit f s).reg = s.reg := rfl
@[simp] theorem transmit_handle (f : List Byte) (s : State) : (transmit f s).handle = s.handle := rfl
@[simp] theorem transmit_readFn (f : List Byte) (s : State) : (transmit f s).readFn = s.readFn := rfl
@[simp] theorem transmit_writeFn (f : List Byte) (s : State) : (transmit f s).writeFn = s.writeFn := rfl
@[simp] theorem transmit_rxq (f : List Byte) (s : State) : (transmit f s).rxq = s.rxq := rfl
@[simp] theorem transmit_rxHold (f : List Byte) (s : State) : (transmit f s).rxHold = s.rxHold := rfl
@[simp] theorem transmit_txq (f : List Byte) (s : State) : (transmit f s).txq = s.txq ++ f := rfl
@[simp] theorem transmit_inited (f : List Byte) (s : State) : (transmit f s).inited = s.inited := rfl
@[simp] theorem transmit_log (f : List Byte) (s : State) : (transmit f s).log = s.log := rfl
@[simp] theorem transmit_parserStuck (f : List Byte) (s : State) : (transmit f s).parserStuck = s.parserStuck := rfl
@[simp] theorem transmit_port (f : List Byte) (s : State) : (transmit f s).port = s.port := rfl
@[simp] theorem transmit_res (f : List Byte) (s : State) : (transmit f s).res = s.res := rfl
@[simp] theorem transmit_ringCaller (f : List Byte) (s : State) : (transmit f s).ringCaller = s.ringCaller := rfl
@[simp] theorem transmit_readScript (f : List Byte) (s : State) : (transmit f s).readScript = s.readScript := rfl
@[simp] theorem transmit_cbScript (f : List Byte) (s : State) : (transmit f s).cbScript = s.cbScript := rfl
@[simp] theorem transmit_draws (f : List Byte) (s : State) : (transmit f s).draws = s.draws := rfl

/-! ### resync -/

@[simp] theorem resync_cfg (s : State) : (resync s).cfg = s.cfg := rfl
@[simp] theorem resync_rbuf (s : State) : (resync s).rbuf = s.rbuf := rfl
@[simp] theorem resync_rin (s : State) : (resync s).rin = s.rin := rfl
@[simp] theorem resync_rout (s : State) : (resync s).rout = s.rout := rfl
@[simp] theorem resync_crcTable (s : State) : (resync s).crcTable = s.crcTable := rfl
@[simp] theorem resync_crcInit (s : State) : (resync s).crcInit = s.crcInit := rfl
@[simp] theorem resync_crcAcc (s : State) : (resync s).crcAcc = s.crcAcc := rfl
@[simp] theorem resync_ps (s : State) : (resync s).ps = .seekSync := rfl
@[simp] theorem resync_abuf (s : State) : (resync s).abuf = s.abuf := rfl
@[simp] theorem resync_acnt (s : State) : (resync s).acnt = 0 := rfl
@[simp] theorem resync_asize (s : State) : (resync s).asize = s.asize := rfl
@[simp] theorem resync_readCls (s : State) : (resync s).readCls = s.readCls := rfl
@[simp] theorem resync_funcCls (s : State) : (resync s).funcCls = s.funcCls := rfl
@[simp] theorem resync_mem (s : State) : (resync s).mem = s.mem := rfl
@[simp] theorem resync_reg (s : State) : (resync s).reg = s.reg := rfl
@[simp] theorem resync_handle (s : State) : (resync s).handle = s.handle := rfl
@[simp] theorem resync_readFn (s : State) : (resync s).readFn = s.readFn := rfl
@[simp] theorem resync_writeFn (s : State) : (resync s).writeFn = s.writeFn := rfl
@[simp] theorem resync_rxq (s : State) : (resync s).rxq = s.rxq := rfl
@[simp] theorem resync_rxHold (s : State) : (resync s).rxHold = s.rxHold := rfl
@[simp] theorem resync_txq (s : State) : (resync s).txq = s.txq := rfl
@[simp] theorem resync_inited (s : State) : (resync s).inited = s.inited := rfl
@[simp] theorem resync_log (s : State) : (resync s).log = s.log := rfl
@[simp] theorem resync_parserStuck (s : State) : (resync s).parserStuck = s.parserStuck := rfl
@[simp] theorem resync_port (s : State) : (resync s).port = s.port := rfl
@[simp] theorem resync_res (s : State) : (resync s).res = s.res := rfl
@[simp] theorem resync_ringCaller (s : State) : (resync s).ringCaller = s.ringCaller := rfl
@[simp] theorem resync_readScript (s : State) : (resync s).readScript = s.readScript := rfl
@[simp] theorem resync_cbScript (s : State) : (resync s).cbScript = s.cbScript := rfl
@[simp] theorem resync_draws (s : State) : (resync s).draws = s.draws := rfl

/-! ### assemble -/

@[simp] theorem assemble_cfg (r : List Byte) (s : State) : (assemble r s).cfg = s.cfg := rfl
@[simp] theorem assemble_rbuf (r : List Byte) (s : State) : (assemble r s).rbuf = s.rbuf := rfl
@[simp] theorem assemble_rin (r : List Byte) (s : State) : (assemble r s).rin = s.rin := rfl
@[simp] theorem assemble_rout (r : List Byte) (s : State) : (assemble r s).rout = s.rout := rfl
@[simp] theorem assemble_crcTable (r : List Byte) (s : State) : (assemble r s).crcTable = s.crcTable := rfl
@[simp] theorem assemble_crcInit (r : List Byte) (s : State) : (assemble r s).crcInit = s.crcInit := rfl
@[simp] theorem assemble_crcAcc (r : List Byte) (s : State) : (assemble r s).crcAcc = s.crcAcc := rfl
@[simp] theorem assemble_ps (r : List Byte) (s : State) : (assemble r s).ps = s.ps := rfl
@[simp] theorem assemble_abuf (r : List Byte) (s : State) : (assemble r s).abuf = splice s.abuf s.acnt r := rfl
@[simp] theorem assemble_acnt (r : List Byte) (s : State) : (assemble r s).acnt = s.acnt + r.length := rfl
@[simp] theorem assemble_asize (r : List Byte) (s : State) : (assemble r s).asize = s.asize := rfl
@[simp] theorem assemble_readCls (r : List Byte) (s : State) : (assemble r s).readCls = s.readCls := rfl
@[simp] theorem assemble_funcCls (r : List Byte) (s : State) : (assemble r s).funcCls = s.funcCls := rfl
@[simp] theorem assemble_mem (r : List Byte) (s : State) : (assemble r s).mem = s.mem := rfl
@[simp] theorem assemble_reg (r : List Byte) (s : State) : (assemble r s).reg = s.reg := rfl
@[simp] theorem assemble_handle (r : List Byte) (s : State) : (assemble r s).handle = s.handle := rfl
@[simp] theorem assemble_readFn (r : List Byte) (s : State) : (assemble r s).readFn = s.readFn := rfl
@[simp] theorem assemble_writeFn (r : List Byte) (s : State) : (assemble r s).writeFn = s.writeFn := rfl
@[simp] theorem assemble_rxq (r : List Byte) (s : State) : (assemble r s).rxq = s.rxq := rfl
@[simp] theorem assemble_rxHold (r : List Byte) (s : State) : (assemble r s).rxHold = s.rxHold := rfl
@[simp] theorem assemble_txq (r : List Byte) (s : State) : (assemble r s).txq = s.txq := rfl
@[simp] theorem assemble_inited (r : List Byte) (s : State) : (assemble r s).inited = s.inited := rfl
@[simp] theorem assemble_log (r : List Byte) (s : State) : (assemble r s).log = s.log := rfl
@[simp] theorem assemble_parserStuck (r : List Byte) (s : State) : (assemble r s).parserStuck = s.parserStuck := rfl
@[simp] theorem assemble_port (r : List Byte) (s : State) : (assemble r s).port = s.port := rfl
@[simp] theorem assemble_res (r : List Byte) (s : State) : (assemble r s).res = s.res := rfl
@[simp] theorem assemble_ringCaller (r : List Byte) (s : State) : (assemble r s).ringCaller = s.ringCaller := rfl
@[simp] theorem assemble_readScript (r : List Byte) (s : State) : (assemble r s).readScript = s.readScript := rfl
@[simp] theorem assemble_cbScript (r : List Byte) (s : State) : (assemble r s).cbScript = s.cbScript := rfl
@[simp] theorem assemble_draws (r : List Byte) (s : State) : (assemble r s).draws = s.draws := rfl

/-! ### ringPassed -/

@[simp] theorem ringPassed_cfg (n : Nat) (storage : List Byte) (s : State) : (s.ringPassed n storage).cfg = s.cfg := rfl
@[simp] theorem ringPassed_rbuf (n : Nat) (storage : List Byte) (s : State) : (s.ringPassed n storage).rbuf = storage := rfl
@[simp] theorem ringPassed_rin (n : Nat) (storage : List Byte) (s : State) : (s.ringPassed n storage).rin = (s.rin + n) % s.cfg.bufSize := rfl
@[simp] theorem ringPassed_rout (n : Nat) (storage : List Byte) (s : State) : (s.ringPassed n storage).rout = (s.rin + n) % s.cfg.bufSize := rfl
@[simp] theorem ringPassed_crcTable (n : Nat) (storage : List Byte) (s : State) : (s.ringPassed n storage).crcTable = s.crcTable := rfl
@[simp] theorem ringPassed_crcInit (n : Nat) (storage : List Byte) (s : State) : (s.ringPassed n storage).crcInit = s.crcInit := rfl
@[simp] theorem ringPassed_crcAcc (n : Nat) (storage : List Byte) (s : State) : (s.ringPassed n storage).crcAcc = s.crcAcc := rfl
@[simp] theorem ringPassed_ps (n : Nat) (storage : List Byte) (s : State) : (s.ringPassed n storage).ps = s.ps := rfl
@[simp] theorem ringPassed_abuf (n : Nat) (storage : List Byte) (s : State) : (s.ringPassed n storage).abuf = s.abuf := rfl
@[simp] theorem ringPassed_acnt (n : Nat) (storage : List Byte) (s : State) : (s.ringPassed n storage).acnt = s.acnt := rfl
@[simp] theorem ringPassed_asize (n : Nat) (storage : List Byte) (s : State) : (s.ringPassed n storage).asize = s.asize := rfl
@[simp] theorem ringPassed_readCls (n : Nat) (storage : List Byte) (s : State) : (s.ringPassed n storage).readCls = s.readCls := rfl
@[simp] theorem ringPassed_funcCls (n : Nat) (storage : List Byte) (s : State) : (s.ringPassed n storage).funcCls = s.funcCls := rfl
@[simp] theorem ringPassed_mem (n : Nat) (storage : List Byte) (s : State) : (s.ringPassed n storage).mem = s.mem := rfl
@[simp] theorem ringPassed_reg (n : Nat) (storage : List Byte) (s : State) : (s.ringPassed n storage).reg = s.reg := rfl
@[simp] theorem ringPassed_handle (n : Nat) (storage : List Byte) (s : State) : (s.ringPassed n storage).handle = s.handle := rfl
@[simp] theorem ringPassed_readFn (n : Nat) (storage : List Byte) (s : State) : (s.ringPassed n storage).readFn = s.readFn := rfl
@[simp] theorem ringPassed_writeFn (n : Nat) (storage : List Byte) (s : State) : (s.ringPassed n storage).writeFn = s.writeFn := rfl
@[simp] theorem ringPassed_rxq (n : Nat) (storage : List Byte) (s : State) : (s.ringPassed n storage).rxq = s.rxq := rfl
@[simp] theorem ringPassed_rxHold (n : Nat) (storage : List Byte) (s : State) : (s.ringPassed n storage).rxHold = s.rxHold := rfl
@[simp] theorem ringPassed_txq (n : Nat) (storage : List Byte) (s : State) : (s.ringPassed n storage).txq = s.txq := rfl
@[simp] theorem ringPassed_inited (n : Nat) (storage : List Byte) (s : State) : (s.ringPassed n storage).inited = s.inited := rfl
@[simp] theorem ringPassed_log (n : Nat) (storage : List Byte) (s : State) : (s.ringPassed n storage).log = s.log := rfl
@[simp] theorem ringPassed_parserStuck (n : Nat) (storage : List Byte) (s : State) : (s.ringPassed n storage).parserStuck = s.parserStuck := rfl
@[simp] theorem ringPassed_port (n : Nat) (storage : List Byte) (s : State) : (s.ringPassed n storage).port = s.port := rfl
@[simp] theorem ringPassed_res (n : Nat) (storage : List Byte) (s : State) : (s.ringPassed n storage).res = s.res := rfl
@[simp] theorem ringPassed_ringCaller (n : Nat) (storage : List Byte) (s : State) : (s.ringPassed n storage).ringCaller = s.ringCaller := rfl
@[simp] theorem ringPassed_readScript (n : Nat) (storage : List Byte) (s : State) : (s.ringPassed n storage).readScript = s.readScript := rfl
@[simp] theorem ringPassed_cbScript (n : Nat) (storage : List Byte) (s : State) : (s.ringPassed n storage).cbScript = s.cbScript := rfl
@[simp] theorem ringPassed_draws (n : Nat) (storage : List Byte) (s : State) : (s.ringPassed n storage).draws = s.draws := rfl

/-! ### setClass_read -/

@[simp] theorem setClass_read_cfg (r : ClassRegs) (s : State) : (setClass .read r s).cfg = s.cfg := rfl
@[simp] theorem setClass_read_rbuf (r : ClassRegs) (s : State) : (setClass .read r s).rbuf = s.rbuf := rfl
@[simp] theorem setClass_read_rin (r : ClassRegs) (s : State) : (setClass .read r s).rin = s.rin := rfl
@[simp] theorem setClass_read_rout (r : ClassRegs) (s : State) : (setClass .read r s).rout = s.rout := rfl
@[simp] theorem setClass_read_crcTable (r : ClassRegs) (s : State) : (setClass .read r s).crcTable = s.crcTable := rfl
@[simp] theorem setClass_read_crcInit (r : ClassRegs) (s : State) : (setClass .read r s).crcInit = s.crcInit := rfl
@[simp] theorem setClass_read_crcAcc (r : ClassRegs) (s : State) : (setClass .read r s).crcAcc = s.crcAcc := rfl
@[simp] theorem setClass_read_ps (r : ClassRegs) (s : State) : (setClass .read r s).ps = s.ps := rfl
@[simp] theorem setClass_read_abuf (r : ClassRegs) (s : State) : (setClass .read r s).abuf = s.abuf := rfl
@[simp] theorem setClass_read_acnt (r : ClassRegs) (s : State) : (setClass .read r s).acnt = s.acnt := rfl
@[simp] theorem setClass_read_asize (r : ClassRegs) (s : State) : (setClass .read r s).asize = s.asize := rfl
@[simp] theorem setClass_read_readCls (r : ClassRegs) (s : State) : (setClass .read r s).readCls = r := rfl
@[simp] theorem setClass_read_funcCls (r : ClassRegs) (s : State) : (setClass .read r s).funcCls = s.funcCls := rfl
@[simp] theorem setClass_read_mem (r : ClassRegs) (s : State) : (setClass .read r s).mem = s.mem := rfl
@[simp] theorem setClass_read_reg (r : ClassRegs) (s : State) : (setClass .read r s).reg = s.reg := rfl
@[simp] theorem setClass_read_handle (r : ClassRegs) (s : State) : (setClass .read r s).handle = s.handle := rfl
@[simp] theorem setClass_read_readFn (r : ClassRegs) (s : State) : (setClass .read r s).readFn = s.readFn := rfl
@[simp] theorem setClass_read_writeFn (r : ClassRegs) (s : State) : (setClass .read r s).writeFn = s.writeFn := rfl
@[simp] theorem setClass_read_rxq (r : ClassRegs) (s : State) : (setClass .read r s).rxq = s.rxq := rfl
@[simp] theorem setClass_read_rxHold (r : ClassRegs) (s : State) : (setClass .read r s).rxHold = s.rxHold := rfl
@[simp] theorem setClass_read_txq (r : ClassRegs) (s : State) : (setClass .read r s).txq = s.txq := rfl
@[simp] theorem setClass_read_inited (r : ClassRegs) (s : State) : (setClass .read r s).inited = s.inited := rfl
@[simp] theorem setClass_read_log (r : ClassRegs) (s : State) : (setClass .read r s).log = s.log := rfl
@[simp] theorem setClass_read_parserStuck (r : ClassRegs) (s : State) : (setClass .read r s).parserStuck = s.parserStuck := rfl
@[simp] theorem setClass_read_port (r : ClassRegs) (s : State) : (setClass .read r s).port = s.port := rfl
@[simp] theorem setClass_read_res (r : ClassRegs) (s : State) : (setClass .read r s).res = s.res := rfl
@[simp] theorem setClass_read_ringCaller (r : ClassRegs) (s : State) : (setClass .read r s).ringCaller = s.ringCaller := rfl
@[simp] theorem setClass_read_readScript (r : ClassRegs) (s : State) : (setClass .read r s).readScript = s.readScript := rfl
@[simp] theorem setClass_read_cbScript (r : ClassRegs) (s : State) : (setClass .read r s).cbScript = s.cbScript := rfl
@[simp] theorem setClass_read_draws (r : ClassRegs) (s : State) : (setClass .read r s).draws = s.draws := rfl

/-! ### setClass_func -/

@[simp] theorem setClass_func_cfg (r : ClassRegs) (s : State) : (setClass .func r s).cfg = s.cfg := rfl
@[simp] theorem setClass_func_rbuf (r : ClassRegs) (s : State) : (setClass .func r s).rbuf = s.rbuf := rfl
@[simp] theorem setClass_func_rin (r : ClassRegs) (s : State) : (setClass .func r s).rin = s.rin := rfl
@[simp] theorem setClass_func_rout (r : ClassRegs) (s : State) : (setClass .func r s).rout = s.rout := rfl
@[simp] theorem setClass_func_crcTable (r : ClassRegs) (s : State) : (setClass .func r s).crcTable = s.crcTable := rfl
@[simp] theorem setClass_func_crcInit (r : ClassRegs) (s : State) : (setClass .func r s).crcInit = s.crcInit := rfl
@[simp] theorem setClass_func_crcAcc (r : ClassRegs) (s : State) : (setClass .func r s).crcAcc = s.crcAcc := rfl
@[simp] theorem setClass_func_ps (r : ClassRegs) (s : State) : (setClass .func r s).ps = s.ps := rfl
@[simp] theorem setClass_func_abuf (r : ClassRegs) (s : State) : (setClass .func r s).abuf = s.abuf := rfl
@[simp] theorem setClass_func_acnt (r : ClassRegs) (s : State) : (setClass .func r s).acnt = s.acnt := rfl
@[simp] theorem setClass_func_asize (r : ClassRegs) (s : State) : (setClass .func r s).asize = s.asize := rfl
@[simp] theorem setClass_func_readCls (r : ClassRegs) (s : State) : (setClass .func r s).readCls = s.readCls := rfl
@[simp] theorem setClass_func_funcCls (r : ClassRegs) (s : State) : (setClass .func r s).funcCls = r := rfl
@[simp] theorem setClass_func_mem (r : ClassRegs) (s : State) : (setClass .func r s).mem = s.mem := rfl
@[simp] theorem setClass_func_reg (r : ClassRegs) (s : State) : (setClass .func r s).reg = s.reg := rfl
@[simp] theorem setClass_func_handle (r : ClassRegs) (s : State) : (setClass .func r s).handle = s.handle := rfl
@[simp] theorem setClass_func_readFn (r : ClassRegs) (s : State) : (setClass .func r s).readFn = s.readFn := rfl
@[simp] theorem setClass_func_writeFn (r : ClassRegs) (s : State) : (setClass .func r s).writeFn = s.writeFn := rfl
@[simp] theorem setClass_func_rxq (r : ClassRegs) (s : State) : (setClass .func r s).rxq = s.rxq := rfl
@[simp] theorem setClass_func_rxHold (r : ClassRegs) (s : State) : (setClass .func r s).rxHold = s.rxHold := rfl
@[simp] theorem setClass_func_txq (r : ClassRegs) (s : State) : (setClass .func r s).txq = s.txq := rfl
@[simp] theorem setClass_func_inited (r : ClassRegs) (s : State) : (setClass .func r s).inited = s.inited := rfl
@[simp] theorem setClass_func_log (r : ClassRegs) (s : State) : (setClass .func r s).log = s.log := rfl
@[simp] theorem setClass_func_parserStuck (r : ClassRegs) (s : State) : (setClass .func r s).parserStuck = s.parserStuck := rfl
@[simp] theorem setClass_func_port (r : ClassRegs) (s : State) : (setClass .func r s).port = s.port := rfl
@[simp] theorem setClass_func_res (r : ClassRegs) (s : State) : (setClass .func r s).res = s.res := rfl
@[simp] theorem setClass_func_ringCaller (r : ClassRegs) (s : State) : (setClass .func r s).ringCaller = s.ringCaller := rfl
@[simp] theorem setClass_func_readScript (r : ClassRegs) (s : State) : (setClass .func r s).readScript = s.readScript := rfl
@[simp] theorem setClass_func_cbScript (r : ClassRegs) (s : State) : (setClass .func r s).cbScript = s.cbScript := rfl
@[simp] theorem setClass_func_draws (r : ClassRegs) (s : State) : (setClass .func r s).draws = s.draws := rfl

/-! ### The registers of a class -/

@[simp] theorem classRegs_read (s : State) : classRegs .read s = s.readCls := rfl
@[simp] theorem classRegs_func (s : State) : classRegs .func s = s.funcCls := rfl
@[simp] theorem classRegs_answer (c : CClass) (r : Result) (s : State) :
    classRegs c (answer r s) = classRegs c s := by cases c <;> rfl
@[simp] theorem classRegs_raise (c : CClass) (e : Event) (s : State) :
    classRegs c (raise e s) = classRegs c s := by cases c <;> rfl
@[simp] theorem classRegs_transmit (c : CClass) (f : List Byte) (s : State) :
    classRegs c (transmit f s) = classRegs c s := by cases c <;> rfl
@[simp] theorem classRegs_setClass (c : CClass) (r : ClassRegs) (s : State) :
    classRegs c (setClass c r s) = r := by cases c <;> rfl

/-- The two classes share nothing (R43). -/
theorem classRegs_setClass_other (c d : CClass) (r : ClassRegs) (s : State) (h : d ≠ c) :
    classRegs d (setClass c r s) = classRegs d s := by
  cases c <;> cases d <;> first | rfl | exact absurd rfl h

@[simp] theorem signalBody_slot (b : List Byte) (r : ClassRegs) : (signalBody b r).slot = b := rfl
@[simp] theorem signalBody_slotLen (b : List Byte) (r : ClassRegs) : (signalBody b r).slotLen = b.length := rfl
@[simp] theorem signalBody_slotValid (b : List Byte) (r : ClassRegs) : (signalBody b r).slotValid = true := rfl
@[simp] theorem signalBody_pend (b : List Byte) (r : ClassRegs) : (signalBody b r).pend = true := rfl
@[simp] theorem signalBody_cstate (b : List Byte) (r : ClassRegs) : (signalBody b r).cstate = r.cstate := rfl
@[simp] theorem signalBody_echo (b : List Byte) (r : ClassRegs) : (signalBody b r).echo = r.echo := rfl
@[simp] theorem signalBody_tcnt (b : List Byte) (r : ClassRegs) : (signalBody b r).tcnt = r.tcnt := rfl
@[simp] theorem signalBody_echoSet (b : List Byte) (r : ClassRegs) : (signalBody b r).echoSet = r.echoSet := rfl
@[simp] theorem takeBody_slot (r : ClassRegs) : (takeBody r).slot = r.slot := rfl
@[simp] theorem takeBody_slotLen (r : ClassRegs) : (takeBody r).slotLen = r.slotLen := rfl
@[simp] theorem takeBody_slotValid (r : ClassRegs) : (takeBody r).slotValid = false := rfl
@[simp] theorem takeBody_pend (r : ClassRegs) : (takeBody r).pend = false := rfl
@[simp] theorem takeBody_cstate (r : ClassRegs) : (takeBody r).cstate = .idle := rfl
@[simp] theorem takeBody_echo (r : ClassRegs) : (takeBody r).echo = r.echo := rfl
@[simp] theorem takeBody_tcnt (r : ClassRegs) : (takeBody r).tcnt = r.tcnt := rfl
@[simp] theorem takeBody_echoSet (r : ClassRegs) : (takeBody r).echoSet = r.echoSet := rfl
@[simp] theorem issueRegs_slot (e : U16) (n : Nat) (r : ClassRegs) : (issueRegs e n r).slot = r.slot := rfl
@[simp] theorem issueRegs_slotLen (e : U16) (n : Nat) (r : ClassRegs) : (issueRegs e n r).slotLen = r.slotLen := rfl
@[simp] theorem issueRegs_slotValid (e : U16) (n : Nat) (r : ClassRegs) : (issueRegs e n r).slotValid = r.slotValid := rfl
@[simp] theorem issueRegs_pend (e : U16) (n : Nat) (r : ClassRegs) : (issueRegs e n r).pend = r.pend := rfl
@[simp] theorem issueRegs_cstate (e : U16) (n : Nat) (r : ClassRegs) : (issueRegs e n r).cstate = .waiting := rfl
@[simp] theorem issueRegs_echo (e : U16) (n : Nat) (r : ClassRegs) : (issueRegs e n r).echo = e := rfl
@[simp] theorem issueRegs_tcnt (e : U16) (n : Nat) (r : ClassRegs) : (issueRegs e n r).tcnt = n := rfl
@[simp] theorem issueRegs_echoSet (e : U16) (n : Nat) (r : ClassRegs) : (issueRegs e n r).echoSet = true := rfl

/-- The echo register of a class that has issued a call is the value the call wrote (R48, R225). -/
theorem echoValue_set {c : CClass} {s : State} (h : (classRegs c s).echoSet = true) : echoValue c s = (classRegs c s).echo := by
  rw [echoValue, if_pos h]

/-- A tick changes the counter alone, and only downwards (R227). -/
theorem tickRegs_eq (r : ClassRegs) :
    tickRegs r = { r with tcnt := if r.cstate = .waiting then r.tcnt - 1 else r.tcnt } := by
  unfold tickRegs
  rcases r with ⟨_, _, _, _, cs, _, n, _⟩
  cases cs <;> cases n <;> simp

end Sys2Proof.Machine
end

