-- ==== Sys2Proof/Laws/Ring.lean ====
section
/-! SUPPORT. The ring (spec/40_ring_buffer.md): occupancy, what a put appends to the live bytes and what a get takes from them (R131,
R133, R137), and that both keep the index invariant (R138). -/

namespace Sys2Proof.Machine

/-- `x mod n` for `x < 2 n`. -/
theorem mod_cases (x n : Nat) (h : x < 2 * n) : x % n = if x < n then x else x - n := by
  split
  · exact Nat.mod_eq_of_lt ‹_›
  · rw [Nat.mod_eq_sub_mod (by omega), Nat.mod_eq_of_lt (by omega)]

/-- The occupancy by cases on the indices (R135). -/
theorem ringOcc_cases {s : State} (h : RingInv s) :
    ringOcc s = if s.rout ≤ s.rin then s.rin - s.rout else s.rin + s.cfg.bufSize - s.rout := by
  obtain ⟨_, h1, h2⟩ := h
  unfold ringOcc
  rw [mod_cases _ _ (by omega)]
  split <;> split <;> omega

/-- The occupancy never reaches `BUF_SIZE` (R24, R135). -/
theorem ringOcc_lt {s : State} (h : RingInv s) : ringOcc s < s.cfg.bufSize := by
  rw [ringOcc_cases h]; obtain ⟨_, h1, h2⟩ := h; split <;> omega

/-- The head is the tail advanced by the occupancy. -/
theorem rin_eq {s : State} (h : RingInv s) : s.rin = (s.rout + ringOcc s) % s.cfg.bufSize := by
  have hl := ringOcc_lt h
  have hc := ringOcc_cases h
  obtain ⟨_, h1, h2⟩ := h
  rw [mod_cases _ _ (by omega)]
  split at hc <;> split <;> omega

/-- A number below `BUF_SIZE` by which the tail reaches the head is the occupancy. -/
theorem ringOcc_unique {s : State} (h : RingInv s) {k : Nat} (hk : k < s.cfg.bufSize)
    (he : s.rin = (s.rout + k) % s.cfg.bufSize) : ringOcc s = k := by
  have hc := ringOcc_cases h
  obtain ⟨_, h1, h2⟩ := h
  rw [mod_cases _ _ (by omega)] at he
  split at hc <;> split at he <;> omega

@[simp] theorem ringPeek_length (s : State) (k : Nat) : (ringPeek s k).length = k := by simp [ringPeek]

@[simp] theorem ringLive_length (s : State) : (ringLive s).length = ringOcc s := by simp [ringLive]

/-- A peek of no more than is live is the front of the live bytes. -/
theorem ringPeek_take (s : State) {k n : Nat} (h : k ≤ n) : ringPeek s k = (ringPeek s n).take k := by
  unfold ringPeek
  rw [← List.map_take, List.take_range, Nat.min_eq_left h]

@[simp] theorem ringStore_length (size : Nat) (bs : List Byte) (buf : List Byte) (i : Nat) :
    (ringStore size buf i bs).length = buf.length := by
  induction bs generalizing buf i with
  | nil => rfl
  | cons b bs ih => simp [ringStore, ih]

/-- A stored run leaves every index outside it alone. -/
theorem ringStore_other (size : Nat) (bs : List Byte) (buf : List Byte) (i j : Nat)
    (h : ∀ k < bs.length, (i + k) % size ≠ j) : byteAt (ringStore size buf i bs) j = byteAt buf j := by
  induction bs generalizing buf i with
  | nil => rfl
  | cons b bs ih =>
    rw [ringStore, ih]
    · have h0 := h 0 (by simp)
      simp only [Nat.add_zero] at h0
      simp [byteAt, h0]
    · intro k hk
      have := h (k + 1) (by simpa using hk)
      rwa [show i + (k + 1) = i + 1 + k by omega] at this

/-- Two offsets below `n` reach different indices. -/
theorem mod_offset_ne {n i a b : Nat} (hab : a < b) (hb : b < n) : (i + a) % n ≠ (i + b) % n := by
  intro h
  have h2 : (i + a) ≡ (i + b) [MOD n] := h
  have h3 : a ≡ b [MOD n] := Nat.ModEq.add_left_cancel' i h2
  have h4 : a % n = b % n := h3
  rw [Nat.mod_eq_of_lt (by omega), Nat.mod_eq_of_lt hb] at h4
  omega

/-- A stored run of at most `BUF_SIZE` bytes reads back byte for byte. -/
theorem ringStore_read (size : Nat) (bs : List Byte) (buf : List Byte) (i k : Nat) (hs : 0 < size)
    (hl : buf.length = size) (hk : k < bs.length) (hb : bs.length ≤ size) :
    byteAt (ringStore size buf i bs) ((i + k) % size) = byteAt bs k := by
  induction bs generalizing buf i k with
  | nil => simp at hk
  | cons b bs ih =>
    rw [ringStore]
    cases k with
    | zero =>
      rw [ringStore_other]
      · have : i % size < buf.length := by rw [hl]; exact Nat.mod_lt _ hs
        simp [byteAt, this]
      · intro k hk'
        have := mod_offset_ne (n := size) (i := i) (a := 0) (b := k + 1) (by omega) (by simp at hb; omega)
        rw [show i + 1 + k = i + (k + 1) by omega]
        exact fun hh => this hh.symm
    | succ k =>
      have := ih (buf.set (i % size) b) (i + 1) k (by simpa using hl) (by simpa using hk) (by simp at hb; omega)
      rw [show i + (k + 1) = i + 1 + k by omega, this]
      simp [byteAt]

/-- Everything a put can do (R131): rejected, or the bytes appended to the live ones and the indices kept in range (R137,
R138). -/
theorem ringPut_some {b : List Byte} {s t : State} (h : RingInv s) (hp : ringPut b s = some t) :
    b.length + ringOcc s < s.cfg.bufSize ∧
      t = { s with rbuf := t.rbuf, rin := (s.rin + b.length) % s.cfg.bufSize } ∧
      RingInv t ∧ ringLive t = ringLive s ++ b := by
  unfold ringPut at hp
  split at hp
  · cases hp
  · rename_i hlt
    have hn : 0 < s.cfg.bufSize := by have := h.2.1; omega
    have hr := rin_eq h
    injection hp with hp
    have inv : RingInv t := by
      subst hp
      exact ⟨by simpa using h.1, Nat.mod_lt _ hn, h.2.2⟩
    have hcfg : t.cfg = s.cfg := by subst hp; rfl
    have hrin : t.rin = (s.rin + b.length) % s.cfg.bufSize := by subst hp; rfl
    have hrout : t.rout = s.rout := by subst hp; rfl
    have hbuf : t.rbuf = ringStore s.cfg.bufSize s.rbuf s.rin b := by subst hp; rfl
    have occ : ringOcc t = ringOcc s + b.length := by
      apply ringOcc_unique inv
      · rw [hcfg]; omega
      · rw [hrin, hrout, hcfg, hr, Nat.mod_add_mod, Nat.add_assoc]
    refine ⟨by omega, by subst hp; rfl, inv, ?_⟩
    unfold ringLive
    rw [occ]
    unfold ringPeek
    rw [List.range_add, List.map_append, List.map_map]
    congr 1
    · apply List.map_congr_left
      intro j hj
      rw [List.mem_range] at hj
      rw [hbuf, hrout, hcfg]
      apply ringStore_other
      intro k hk
      rw [hr, Nat.mod_add_mod, Nat.add_assoc]
      exact fun hh => mod_offset_ne (n := s.cfg.bufSize) (i := s.rout) (a := j) (b := ringOcc s + k) (by omega) (by omega) hh.symm
    · apply List.ext_getElem
      · simp
      · intro k h1 h2
        simp only [List.length_map, List.length_range] at h1
        simp only [List.getElem_map, List.getElem_range, Function.comp]
        rw [hbuf, hrout, hcfg]
        have := ringStore_read s.cfg.bufSize b s.rbuf s.rin k hn h.1 h1 (by omega)
        rw [hr, Nat.mod_add_mod, Nat.add_assoc, ← hr] at this
        rw [this]
        simp [byteAt, h2]

/-- A put is rejected exactly where it would fill the reserved slot (R131, R132). -/
theorem ringPut_none {b : List Byte} {s : State} : ringPut b s = none ↔ s.cfg.bufSize ≤ b.length + ringOcc s := by
  unfold ringPut; split <;> simp [*]

/-- A put that fits is made. -/
theorem ringPut_fits {b : List Byte} {s : State} (h : b.length + ringOcc s < s.cfg.bufSize) :
    ringPut b s = some { s with rbuf := ringStore s.cfg.bufSize s.rbuf s.rin b, rin := (s.rin + b.length) % s.cfg.bufSize } := by
  unfold ringPut; rw [if_neg (by omega)]

/-- Everything a get does (R133): the bytes are the front of the live ones, and leave the ring. -/
theorem ringGet_spec {s : State} (h : RingInv s) (m : Nat) :
    (ringGet m s).1 = (ringLive s).take m ∧
      (ringGet m s).2 = { s with rout := (s.rout + min m (ringOcc s)) % s.cfg.bufSize } ∧
      RingInv (ringGet m s).2 ∧ ringLive (ringGet m s).2 = (ringLive s).drop m := by
  have hn : 0 < s.cfg.bufSize := by have := h.2.1; omega
  have hl := ringOcc_lt h
  have inv : RingInv (ringGet m s).2 := ⟨h.1, h.2.1, Nat.mod_lt _ hn⟩
  have occ : ringOcc (ringGet m s).2 = ringOcc s - min m (ringOcc s) := by
    apply ringOcc_unique inv
    · show _ < s.cfg.bufSize
      omega
    · show s.rin = ((s.rout + min m (ringOcc s)) % s.cfg.bufSize + (ringOcc s - min m (ringOcc s))) % s.cfg.bufSize
      rw [Nat.mod_add_mod, Nat.add_assoc, show min m (ringOcc s) + (ringOcc s - min m (ringOcc s)) = ringOcc s by omega]
      exact rin_eq h
  refine ⟨?_, rfl, inv, ?_⟩
  · show ringPeek s (min m (ringOcc s)) = (ringPeek s (ringOcc s)).take m
    rw [ringPeek_take s (Nat.min_le_right m (ringOcc s))]
    rw [List.take_eq_take_iff]
    simp
  · unfold ringLive
    rw [occ]
    apply List.ext_getElem
    · simp only [ringPeek_length, List.length_drop]; omega
    · intro k h1 h2
      simp only [ringPeek, List.getElem_map, List.getElem_range, List.getElem_drop]
      show byteAt s.rbuf (((s.rout + min m (ringOcc s)) % s.cfg.bufSize + k) % s.cfg.bufSize) = _
      simp only [ringPeek, List.length_map, List.length_range] at h1
      rw [Nat.mod_add_mod, Nat.min_eq_left (by omega), Nat.add_assoc]

end Sys2Proof.Machine
end

