-- ==== Sys2Proof/Laws/Ops.lean ====
section
/-! SUPPORT. One lemma per shared operation of Machine/Ops.lean and the units, which says all it can do. -/

namespace Sys2Proof.Machine

/-! ### Preconditions -/

theorem requireInited_pos {s : State} (h : s.inited = true) (k : Out) : requireInited s k = k := by
  simp [requireInited, h]

theorem requireInited_neg {s : State} (h : s.inited = false) (k : Out) : requireInited s k = .refused .notInitialized := by
  simp [requireInited, h]

theorem requireCrc_pos {s : State} (h : s.crcInit = true) (k : Out) : requireCrc s k = k := by
  simp [requireCrc, h]

theorem requireCrc_neg {s : State} (h : s.crcInit = false) (k : Out) : requireCrc s k = .refused .crcNotReady := by
  simp [requireCrc, h]

theorem requireProducer_pos {s : State} (h : ProducerCalls s) (k : Out) : requireProducer s k = k := by
  rcases h with h | h <;> simp [requireProducer, h]

theorem requireProducer_neg {s : State} {a : Agent} (h : s.ringCaller = some a) (ha : a ≠ ringProducer s.cfg) (k : Out) :
    requireProducer s k = .refused (.secondProducer a) := by
  simp [requireProducer, h, ha]

theorem requireConsumer_pos {s : State} (h : ConsumerCalls s) (k : Out) : requireConsumer s k = k := by
  rcases h with h | h <;> simp [requireConsumer, h]

theorem requireConsumer_neg {s : State} {a : Agent} (h : s.ringCaller = some a) (ha : a ≠ ringConsumer s.cfg) (k : Out) :
    requireConsumer s k = .refused (.secondConsumer a) := by
  simp [requireConsumer, h, ha]

theorem onItsOwn_runs {s : State} (h : AgentsRun s) (k : Out) : onItsOwn s k = k := by
  simp [onItsOwn, h]

theorem onItsOwn_cooperative {s : State} (h : s.cfg.sched = .cooperative) (k : Out) :
    onItsOwn s k = .next { s with res := .hold } := by
  simp only [onItsOwn, h, if_true]

theorem parserAgent_runs {s : State} (h : s.parserStuck = false) (k : Out) : parserAgent s k = k := by
  simp [parserAgent, h]

theorem parserAgent_stuck {s : State} (h : s.parserStuck = true) (k : Out) :
    parserAgent s k = .next { s with res := .hold } := by
  simp only [parserAgent, h, if_true]

theorem requireParser_pos {s : State} {p : ParserState} (h : s.ps = p) (k : Out) : requireParser p s k = k := by
  simp [requireParser, h]

/-- A step that ends in a next state met its preconditions. -/
theorem requireInited_next {s t : State} {k : Out} (h : requireInited s k = .next t) : s.inited = true ∧ k = .next t := by
  unfold requireInited at h; split at h
  · exact ⟨‹_›, h⟩
  · cases h

theorem requireCrc_next {s t : State} {k : Out} (h : requireCrc s k = .next t) : s.crcInit = true ∧ k = .next t := by
  unfold requireCrc at h; split at h
  · exact ⟨‹_›, h⟩
  · cases h

theorem requireProducer_next {s t : State} {k : Out} (h : requireProducer s k = .next t) : ProducerCalls s ∧ k = .next t := by
  unfold requireProducer at h; split at h
  · exact ⟨.inl ‹_›, h⟩
  · split at h
    · rename_i a hc hp; exact ⟨.inr (hc.trans (congrArg some hp)), h⟩
    · cases h

theorem requireConsumer_next {s t : State} {k : Out} (h : requireConsumer s k = .next t) : ConsumerCalls s ∧ k = .next t := by
  unfold requireConsumer at h; split at h
  · exact ⟨.inl ‹_›, h⟩
  · split at h
    · rename_i a hc hp; exact ⟨.inr (hc.trans (congrArg some hp)), h⟩
    · cases h

theorem onItsOwn_next {s t : State} {k : Out} (h : onItsOwn s k = .next t) :
    (s.cfg.sched = .cooperative ∧ t = { s with res := .hold }) ∨ (AgentsRun s ∧ k = .next t) := by
  unfold onItsOwn at h; split at h
  · cases h; exact .inl ⟨‹_›, rfl⟩
  · exact .inr ⟨‹_›, h⟩

theorem parserAgent_next {s t : State} {k : Out} (h : parserAgent s k = .next t) :
    (s.parserStuck = true ∧ t = { s with res := .hold }) ∨ (s.parserStuck = false ∧ k = .next t) := by
  unfold parserAgent at h; split at h
  · cases h; exact .inl ⟨‹_›, rfl⟩
  · rename_i hs; exact .inr ⟨by simpa using hs, h⟩

theorem requireParser_next {s t : State} {p : ParserState} {k : Out} (h : requireParser p s k = .next t) :
    s.ps = p ∧ k = .next t := by
  unfold requireParser at h; split at h
  · exact ⟨‹_›, h⟩
  · cases h

theorem requireTrailer_next {buf : List Byte} {total : Nat} {t : State} {k : Out} (h : requireTrailer buf total k = .next t) :
    4 ≤ total ∧ total ≤ buf.length ∧ k = .next t := by
  unfold requireTrailer at h; split at h
  · cases h
  · split at h
    · cases h
    · exact ⟨by omega, by omega, h⟩

/-- Two operations in a row end in a next state exactly where each of them does. -/
theorem andThen_next {o : Out} {k : State → Out} {t : State} :
    andThen o k = .next t ↔ ∃ u, o = .next u ∧ k u = .next t := by
  cases o <;> simp [andThen]

@[simp] theorem andThen_of_next (s : State) (k : State → Out) : andThen (.next s) k = k s := rfl

/-! ### The transport, the encoder, the draws -/

/-- ENCODE over the generated table (R171). -/
theorem encodeIn_engine {s : State} (h : s.crcTable = crcTableGen) (ty : U16) (payload : List Byte) :
    encodeIn s ty payload = if payload.length + 10 < s.cfg.maxFrame then some (wireFrame ty payload) else none := by
  rw [encodeIn, h, encodeWith_gen]

/-- An encoded frame has the shape of R306, for any size the 16 bits can carry. -/
theorem wireFrame_shape (ty : U16) (payload : List Byte) (h : payload.length + 6 < 65536) : FrameShape (wireFrame ty payload) := by
  have hl := wireFrame_length ty payload
  have e : wireFrame ty payload =
      ([0xEB, 0x90] ++ be16 (BitVec.ofNat 16 (payload.length + 6)) ++ be16 ty ++ payload) ++
        (be32 (crcBitwise ([0xEB, 0x90] ++ be16 (BitVec.ofNat 16 (payload.length + 6)) ++ be16 ty ++ payload)) ++ []) := by
    rw [List.append_nil]; rfl
  have hh : ([0xEB, 0x90] ++ be16 (BitVec.ofNat 16 (payload.length + 6)) ++ be16 ty ++ payload).length =
      (wireFrame ty payload).length - 4 := by rw [hl]; simp; omega
  refine ⟨by omega, rfl, ?_, ?_⟩
  · have : u16be (wireFrame ty payload) 2 = BitVec.ofNat 16 (payload.length + 6) := by
      have := u16be_be16 [0xEB, 0x90] (BitVec.ofNat 16 (payload.length + 6))
        (be16 ty ++ payload ++ be32 (crcBitwise ([0xEB, 0x90] ++ be16 (BitVec.ofNat 16 (payload.length + 6)) ++ be16 ty ++ payload)))
      simpa [wireFrame] using this
    rw [this, hl]
    simp [Nat.mod_eq_of_lt h]
  · rw [← hh]
    have := u32be_be32 ([0xEB, 0x90] ++ be16 (BitVec.ofNat 16 (payload.length + 6)) ++ be16 ty ++ payload)
      (crcBitwise ([0xEB, 0x90] ++ be16 (BitVec.ofNat 16 (payload.length + 6)) ++ be16 ty ++ payload)) []
    rw [e, this, List.take_left' rfl]

/-- A read of `k` bytes takes the front of `rxq`, at most `RX_CHUNK_MAX` bytes (R301). -/
theorem transportTake_spec (k : Nat) (s : State) :
    transportTake k s =
      (s.rxq.take (min k (min s.cfg.rxChunkMax s.rxq.length)),
        { s with rxq := s.rxq.drop (min k (min s.cfg.rxChunkMax s.rxq.length)) }) := by
  unfold transportTake
  split
  · rename_i h
    obtain ⟨⟩ := s
    dsimp only at h
    simp only [h, List.take_nil, List.drop_nil]
  · rename_i h; rw [h]

/-- Everything a transport read can do (R301): the front of `rxq` is delivered, at most `RX_CHUNK_MAX` bytes. -/
theorem transportRead_spec (s : State) :
    ∃ n ≤ min s.cfg.rxChunkMax s.rxq.length,
      (transportRead s).1 = s.rxq.take n ∧
      (∀ (k : Int) (later : List Int), s.readScript = k :: later →
        n = min k.toNat (min s.cfg.rxChunkMax s.rxq.length) ∧
        (transportRead s).2 = { s with rxq := s.rxq.drop n, readScript := later }) ∧
      (s.readScript = [] → (transportRead s).2 = { s with rxq := s.rxq.drop n, draws := s.draws + 1 }) := by
  have hd : (drawRead s).2.rxq = s.rxq ∧ (drawRead s).2.cfg = s.cfg := by unfold drawRead; split <;> exact ⟨rfl, rfl⟩
  unfold transportRead
  dsimp only
  rw [transportTake_spec, hd.1, hd.2]
  refine ⟨min (drawRead s).1.toNat (min s.cfg.rxChunkMax s.rxq.length), Nat.min_le_right _ _, rfl, ?_, ?_⟩
  · intro k later hk
    have e : drawRead s = (k, { s with readScript := later }) := by unfold drawRead; rw [hk]
    rw [e]
    exact ⟨rfl, rfl⟩
  · intro hk
    have e : drawRead s = (Config.readAnswer s.draws, { s with draws := s.draws + 1 }) := by unfold drawRead; rw [hk]
    rw [e]

/-- Everything that can become of a body put into a slot (R31; log entry 22): a body that fits stays as it is, and a longer one
gives way to a value that fits. -/
theorem drawBody_spec (body : List Byte) (s : State) :
    (body.length + 9 ≤ s.cfg.maxFrame → drawBody body s = (body, s)) ∧
    (s.cfg.maxFrame < body.length + 9 →
      ∃ b, b.length ≤ s.cfg.maxFrame - 9 ∧ drawBody body s = (b, { s with draws := s.draws + 1 })) := by
  unfold drawBody
  constructor
  · intro h; rw [if_pos h]
  · intro h; rw [if_neg (by omega)]; exact ⟨_, by simp, rfl⟩

/-- `route_response` of a body a slot can hold (R31, R198). -/
theorem corrDeliver_fits (ty : U16) {body : List Byte} {s : State} (h : body.length + 9 ≤ s.cfg.maxFrame) :
    corrDeliver ty body s =
      match responseClass (typeSub ty) with
      | some c => answer .done (setClass c (signalBody body (classRegs c s)) s)
      | none => answer .done (raise (.unknownType ty) s) := by
  unfold corrDeliver
  cases responseClass (typeSub ty) <;> simp only [(drawBody_spec body s).1 h]

/-- LIST_FUNCTIONS answers a permutation (R289). -/
theorem pickOrder_perm {α : Type} (n : Nat) (l : List α) : (pickOrder l.length n l).Perm l := by
  suffices h : ∀ (fuel n : Nat) (l : List α), (pickOrder fuel n l).Perm l from h _ _ _
  intro fuel
  induction fuel with
  | zero => intro n l; exact List.Perm.refl _
  | succ fuel ih =>
    intro n l
    unfold pickOrder
    split
    · exact List.Perm.refl _
    · rename_i x hx
      obtain ⟨hi, rfl⟩ := List.getElem?_eq_some_iff.mp hx
      exact ((ih _ _).cons _).trans (List.getElem_cons_eraseIdx_perm hi)

/-! ### The registry -/

theorem lookup_none {code : U16} {reg : List RegEntry} : lookup code reg = none ↔ ∀ e ∈ reg, e.code ≠ code := by
  induction reg with
  | nil => simp [lookup]
  | cons e rest ih => unfold lookup; split <;> simp [*]

theorem lookup_some {code : U16} {reg : List RegEntry} : (lookup code reg).isSome ↔ ∃ e ∈ reg, e.code = code := by
  rw [← not_iff_not]
  simp [lookup_none]

/-- A code once found stays found, with the same callback, however the registry grows (R290). -/
theorem lookup_append {code : U16} {cb : Handle} {reg : List RegEntry} (more : List RegEntry) (h : lookup code reg = some cb) :
    lookup code (reg ++ more) = some cb := by
  induction reg with
  | nil => cases h
  | cons e rest ih =>
    simp only [List.cons_append, lookup] at h ⊢
    split at h <;> simp_all

/-! ### Memory Service -/

/-- Everything MS_WRITE does (R261, R262). -/
theorem msWrite_spec (addr : U16) (data : List Byte) (s : State) :
    (∀ a, memRead (msWrite addr data s).mem a =
      if addr.toNat ≤ a ∧ a < addr.toNat + data.length ∧ a < s.cfg.memSize then byteAt data (a - addr.toNat)
      else memRead s.mem a) ∧
    (data = [] ∨ addr.toNat + data.length ≤ s.cfg.memSize →
      msWrite addr data s = { s with mem := (msWrite addr data s).mem, res := .ok }) ∧
    (data ≠ [] → s.cfg.memSize < addr.toNat + data.length →
      msWrite addr data s = { s with
        mem := (msWrite addr data s).mem, res := .addressOverflow
        log := s.log ++ [.writeOverflow addr data.length (s.cfg.memSize - addr.toNat)] }) := by
  have hm : (msWrite addr data s).mem = (msWriteLoop s.cfg.memSize addr.toNat 0 data s.mem).1 := by
    unfold msWrite; dsimp only; split <;> rfl
  have ho := msWriteLoop_overflow s.cfg.memSize addr.toNat data 0 s.mem (.inl rfl)
  simp only [Nat.add_zero, Nat.zero_max] at ho
  refine ⟨?_, ?_, ?_⟩
  · intro a
    rw [hm, msWriteLoop_read]
    rfl
  · intro h
    rw [if_pos h] at ho
    rw [hm]; unfold msWrite; dsimp only; rw [ho]; rfl
  · intro h1 h2
    rw [if_neg (by simp [h1, h2])] at ho
    rw [hm]; unfold msWrite; dsimp only; rw [ho]; rfl

theorem msWrite_wf (addr : U16) (data : List Byte) (s : State) (h : memWf s.mem = true) :
    memWf (msWrite addr data s).mem = true := by
  have hm : (msWrite addr data s).mem = (msWriteLoop s.cfg.memSize addr.toNat 0 data s.mem).1 := by
    unfold msWrite; dsimp only; split <;> rfl
  rw [hm]; exact msWriteLoop_wf _ _ _ _ _ h

theorem msWrite_below (addr : U16) (data : List Byte) (s : State) (h : memBelow s.cfg.memSize s.mem = true) :
    memBelow s.cfg.memSize (msWrite addr data s).mem = true := by
  have hm : (msWrite addr data s).mem = (msWriteLoop s.cfg.memSize addr.toNat 0 data s.mem).1 := by
    unfold msWrite; dsimp only; split <;> rfl
  rw [hm]; exact msWriteLoop_below _ _ _ _ _ h

theorem msReadLen_eq (memSize : Nat) (addr len : U16) (h : addr.toNat < memSize) :
    msReadLen memSize addr len = min len.toNat (memSize - addr.toNat) := by
  unfold msReadLen; split <;> omega

theorem memReadBytes_byteAt (m : Mem) (addr n j : Nat) (h : j < n) : byteAt (memReadBytes m addr n) j = memRead m (addr + j) := by
  simp [memReadBytes, byteAt, h]

/-- Everything MS_READ does over the generated table (R263, R265). -/
theorem msRead_spec (addr len : U16) (s : State) (ht : s.crcTable = crcTableGen) (hc : 15 ≤ s.cfg.maxFrame) :
    msRead addr len s =
      if s.cfg.memSize ≤ addr.toNat then
        { s with log := s.log ++ [.rangeError addr], txq := s.txq ++ wireFrame 0x2C02 [0x01], res := .addressRange }
      else
        let data := memReadBytes s.mem addr.toNat (min len.toNat (s.cfg.memSize - addr.toNat))
        if data.length + 15 ≤ s.cfg.maxFrame then
          { s with txq := s.txq ++ wireFrame 0x6C02 (be16 addr ++ be16 (BitVec.ofNat 16 data.length) ++ data), res := .ok }
        else { s with log := s.log ++ [.replyTooLarge 0x02 data.length], res := .tooLarge } := by
  unfold msRead
  split
  · rw [encodeIn_engine ht, if_pos (by simp [errPayload]; omega)]
    rfl
  · rename_i h
    rw [msReadLen_eq _ _ _ (by omega)]
    dsimp only
    rw [encodeIn_engine ht]
    simp only [keyedPayload, List.length_append, be16_length, len16]
    by_cases hf : (memReadBytes s.mem addr.toNat (min len.toNat (s.cfg.memSize - addr.toNat))).length + 15 ≤ s.cfg.maxFrame
    · rw [if_pos hf, if_pos (by omega)]; rfl
    · rw [if_neg hf, if_neg (by omega)]; rfl

/-- Everything a dispatch of a code that is not registered does (R284). -/
theorem dispatchCall_unknown (code : U16) (arg : List Byte) (s : State) (ht : s.crcTable = crcTableGen)
    (hc : 15 ≤ s.cfg.maxFrame) (h : ∀ e ∈ s.reg, e.code ≠ code) :
    dispatchCall code arg s =
      .next { s with
        log := s.log ++ [.unknownFunction code], txq := s.txq ++ wireFrame 0x2C03 [0x01], res := .unknownFunction } := by
  unfold dispatchCall
  rw [lookup_none.mpr h]
  dsimp only
  rw [encodeIn_engine ht, if_pos (by simp [errPayload]; omega)]
  rfl

/-- The reply to a callback within its contract (R284, R285). -/
theorem dispatchReply_spec (code : U16) (ret : List Byte) (s : State) (ht : s.crcTable = crcTableGen)
    (h : ret.length + 15 ≤ s.cfg.maxFrame) :
    dispatchReply code ret s =
      { s with txq := s.txq ++ wireFrame 0x6C03 (be16 code ++ be16 (BitVec.ofNat 16 ret.length) ++ ret), res := .ok } := by
  unfold dispatchReply
  rw [encodeIn_engine ht, if_pos (by simp [keyedPayload]; omega)]
  rfl

/-- Everything a dispatch of a registered code does (R284, R286): by how the callback behaves. -/
theorem dispatchCall_known (code : U16) (arg : List Byte) (s : State) (ht : s.crcTable = crcTableGen)
    (hc : s.cfg.maxRet + 15 ≤ s.cfg.maxFrame) (h : ∃ e ∈ s.reg, e.code = code) :
    (∀ (declared : Nat) (ret : List Byte) (later : List CbAnswer), s.cbScript = .returns declared ret :: later →
      dispatchCall code arg s =
        if declared = ret.length ∧ ret.length ≤ s.cfg.maxRet then
          .next { s with
            cbScript := later, res := .ok
            txq := s.txq ++ wireFrame 0x6C03 (be16 code ++ be16 (BitVec.ofNat 16 ret.length) ++ ret) }
        else .refused .callbackContract) ∧
    (∀ later, s.cbScript = .neverReturns :: later →
      dispatchCall code arg s = .next { s with cbScript := later, parserStuck := true, res := .hold }) ∧
    (∀ later, s.cbScript = .usesContext :: later → dispatchCall code arg s = .refused .callbackReentry) ∧
    (s.cbScript = [] →
      ∃ ret : List Byte, ret.length ≤ s.cfg.maxRet ∧
        dispatchCall code arg s =
          .next { s with
            draws := s.draws + 1, res := .ok
            txq := s.txq ++ wireFrame 0x6C03 (be16 code ++ be16 (BitVec.ofNat 16 ret.length) ++ ret) }) := by
  obtain ⟨cb, hcb⟩ := Option.isSome_iff_exists.mp (lookup_some.mpr h)
  refine ⟨?_, ?_, ?_, ?_⟩
  · intro declared ret later hk
    unfold dispatchCall drawCallback
    rw [hcb, hk]
    dsimp only
    split
    · rename_i hr
      exact congrArg _ (dispatchReply_spec code ret _ ht (by show _ ≤ s.cfg.maxFrame; omega))
    · rfl
  · intro later hk
    unfold dispatchCall drawCallback
    rw [hcb, hk]
    rfl
  · intro later hk
    unfold dispatchCall drawCallback
    rw [hcb, hk]
  · intro hk
    refine ⟨(Config.callbackReturn cb arg s.draws).take s.cfg.maxRet, by simp, ?_⟩
    unfold dispatchCall drawCallback
    rw [hcb, hk]
    dsimp only
    rw [if_pos (by simp)]
    refine congrArg _ (dispatchReply_spec code _ { s with cbScript := [], draws := s.draws + 1 } ht ?_)
    show _ ≤ s.cfg.maxFrame
    simp; omega

end Sys2Proof.Machine
end

