-- ==== Sys2Proof/Laws/Parser.lean ====
section
/-! SUPPORT. The parser (spec/43_frame_parser.md): what a step does with the bytes it obtains, how three steps assemble a frame, and
what ROUTE does with it (R192 to R198). -/

namespace Sys2Proof.Machine

/-! ### The collecting steps on the ring -/

/-- A collecting step takes from the ring the bytes its state asks for (R192 to R194). -/
theorem collectStep_eq {s : State} (h : RingInv s) :
    collectStep s =
      collectOn ((ringLive s).take (wanted s)) { s with rout := (s.rout + min (wanted s) (ringOcc s)) % s.cfg.bufSize } := by
  obtain ⟨h1, h2, _, _⟩ := ringGet_spec h (wanted s)
  rw [collectStep, h1, h2]

/-- Taking nothing leaves the tail where it is. -/
theorem rout_stays {s : State} (h : RingInv s) : (s.rout + 0) % s.cfg.bufSize = s.rout := by
  rw [Nat.add_zero, Nat.mod_eq_of_lt h.2.2]

/-- What the last step answered plays no part in a step that takes bytes. -/
theorem collectOn_res {r : List Byte} (hr : r ≠ []) (s : State) (z : Result) (hp : s.ps ≠ .route) :
    collectOn r { s with res := z } = collectOn r s := by
  have hps : s.ps = .seekSync ∨ s.ps = .readLength ∨ s.ps = .readBody := by
    cases h : s.ps <;> simp_all
  obtain ⟨⟩ := s
  dsimp only at hps
  rcases hps with rfl | rfl | rfl
  · show seekSyncOn r _ = seekSyncOn r _
    unfold seekSyncOn
    cases r with
    | nil => exact absurd rfl hr
    | cons b bs => dsimp only; split <;> rfl
  · show readLengthOn r _ = readLengthOn r _
    unfold readLengthOn
    dsimp only [assemble]
    split
    · rfl
    · unfold checkHeader
      dsimp only
      repeat' split
      all_goals rfl
  · show readBodyOn r _ = readBodyOn r _
    unfold readBodyOn
    dsimp only [assemble]
    split
    · rfl
    · rfl

/-! ### The steps of an agent that steps on its own -/

theorem parseSeekSync_eq {s : State} (hi : s.inited = true) (hr : ParserRuns s) (h : s.ps = .seekSync) :
    exec .parseSeekSync s = .next (collectStep s) := by
  rw [exec, execParseSeekSync, requireInited_pos hi, onItsOwn_runs hr.1, parserAgent_runs hr.2, requireParser_pos h]

theorem parseReadLength_eq {s : State} (hi : s.inited = true) (hr : ParserRuns s) (h : s.ps = .readLength) :
    exec .parseReadLength s = .next (collectStep s) := by
  rw [exec, execParseReadLength, requireInited_pos hi, onItsOwn_runs hr.1, parserAgent_runs hr.2, requireParser_pos h]

theorem parseReadBody_eq {s : State} (hi : s.inited = true) (hr : ParserRuns s) (h : s.ps = .readBody) :
    exec .parseReadBody s = .next (collectStep s) := by
  rw [exec, execParseReadBody, requireInited_pos hi, onItsOwn_runs hr.1, parserAgent_runs hr.2, requireParser_pos h]

theorem parseRoute_eq {s : State} (hr : Running s) (hp : ParserRuns s) (h : s.ps = .route) :
    exec .parseRoute s = routeStep s := by
  rw [exec, execParseRoute, requireInited_pos hr.1, requireCrc_pos hr.2.1, onItsOwn_runs hp.1, parserAgent_runs hp.2,
    requireParser_pos h]

theorem rxStep_eq {s : State} (hi : s.inited = true) (hr : AgentsRun s) : exec .rxStep s = .next (rxStep s) := by
  rw [exec, execRxStep, requireInited_pos hi, onItsOwn_runs hr]

/-! ### Three steps assemble a frame -/

/-- SEEK_SYNC takes the first sync byte (R192). -/
theorem collectOn_sync {s : State} (hp : s.ps = .seekSync) :
    collectOn [0xEB] s =
      { s with abuf := 0xEB :: s.abuf.drop 1, acnt := 1, ps := .readLength, res := .done } := by
  unfold collectOn
  rw [hp]
  rfl

/-- READ_LENGTH accepts the other three bytes of a good header at once (R193). -/
theorem collectOn_header {s : State} {size : U16} {tail : List Byte} (hp : s.ps = .readLength) (hc : s.acnt = 1)
    (hb : s.abuf = 0xEB :: tail) (h6 : 6 ≤ size.toNat) (hm : size.toNat + 4 < s.cfg.maxFrame) :
    collectOn ([0x90] ++ be16 size) s =
      { s with
        abuf := [0xEB, 0x90] ++ be16 size ++ tail.drop 3, acnt := 4, asize := size, ps := .readBody, res := .done } := by
  have e2 : u16be ([0xEB, 0x90] ++ be16 size ++ tail.drop 3) 2 = size := by
    have := u16be_be16 [0xEB, 0x90] size (tail.drop 3)
    simpa using this
  have hs : splice s.abuf s.acnt ([0x90] ++ be16 size) = [0xEB, 0x90] ++ be16 size ++ tail.drop 3 := by
    rw [hb, hc]; simp [splice, be16]
  unfold collectOn
  rw [hp]
  show readLengthOn ([0x90] ++ be16 size) s = _
  have ha : assemble ([0x90] ++ be16 size) s =
      { s with abuf := [0xEB, 0x90] ++ be16 size ++ tail.drop 3, acnt := 4 } := by
    unfold assemble
    rw [hs, hc]
    rfl
  unfold readLengthOn
  rw [ha]
  dsimp only
  rw [if_neg (by omega)]
  unfold checkHeader
  dsimp only
  rw [e2, if_neg (by simp [byteAt, sync2]), if_neg (by omega), if_neg (by omega)]
  rfl

/-- READ_BODY takes the rest of the frame at once (R194). -/
theorem collectOn_body {s : State} {body : List Byte} (hp : s.ps = .readBody) (hc : s.acnt = 4)
    (hb : body.length = s.asize.toNat) :
    collectOn body s =
      { s with
        abuf := s.abuf.take 4 ++ body ++ s.abuf.drop (4 + body.length), acnt := s.asize.toNat + 4, ps := .route
        res := .done } := by
  unfold collectOn
  rw [hp]
  show readBodyOn body s = _
  unfold readBodyOn
  dsimp only
  rw [if_pos (by show s.acnt + body.length = _; omega)]
  simp only [answer, assemble, splice, hc, hb, Nat.add_comm 4]

/-! ### ROUTE -/

/-- ROUTE drops a frame whose trailer is not the checksum of the bytes before it (R195, R324). -/
theorem routeStep_bad {s : State} (ht : s.crcTable = crcTableGen) (hs : s.parserStuck = false)
    (h : u32be s.abuf s.asize.toNat ≠ crcBitwise (s.abuf.take s.asize.toNat)) :
    routeStep s =
      .next { s with
        log := s.log ++ [.crcFail (u32be s.abuf s.asize.toNat) (crcBitwise (s.abuf.take s.asize.toNat))]
        acnt := 0, ps := .seekSync, res := .done } := by
  have e : crcVerifyTrailer s.crcTable s.abuf (s.asize.toNat + 4) = false := by
    rw [ht, crcVerifyTrailer_gen, Nat.add_sub_cancel]
    simpa using fun hh => h hh.symm
  have ec : checksumIn s s.abuf (s.asize.toNat + 4 - 4) = crcBitwise (s.abuf.take s.asize.toNat) := by
    rw [checksumIn, ht, crcChecksum_gen, Nat.add_sub_cancel]
  unfold routeStep
  dsimp only
  rw [if_pos e, ec, Nat.add_sub_cancel]
  simp only [andThen, routeEnd]
  rw [if_neg (by simp [answer, raise, hs])]
  rfl

/-- ROUTE of a frame whose trailer is good (R195). -/
theorem routeStep_good {s : State} (ht : s.crcTable = crcTableGen)
    (h : u32be s.abuf s.asize.toNat = crcBitwise (s.abuf.take s.asize.toNat)) :
    routeStep s =
      andThen
        (if typeReq (u16be s.abuf 4) then routeRequest (u16be s.abuf 4) (slice s.abuf 6 s.asize.toNat) s
          else .next (corrDeliver (u16be s.abuf 4) (slice s.abuf 4 s.asize.toNat) s))
        (fun t => .next (routeEnd t)) := by
  have e : crcVerifyTrailer s.crcTable s.abuf (s.asize.toNat + 4) = true := by
    rw [ht, crcVerifyTrailer_gen, Nat.add_sub_cancel]
    simp [h]
  unfold routeStep
  dsimp only
  rw [if_neg (by simp [e]), Nat.add_sub_cancel]

theorem routeEnd_runs {t : State} (h : t.parserStuck = false) : routeEnd t = { t with acnt := 0, ps := .seekSync } := by
  unfold routeEnd; rw [if_neg (by simp [h])]; rfl

theorem routeEnd_stuck {t : State} (h : t.parserStuck = true) : routeEnd t = t := by
  unfold routeEnd; rw [if_pos h]

/-- Serving a request touches neither the ring nor what is on its way to it (R44, R197). -/
theorem routeRequest_keeps {ty : U16} {p : List Byte} {s t : State} (h : routeRequest ty p s = .next t) :
    t.rin = s.rin ∧ t.rout = s.rout ∧ t.rxHold = s.rxHold ∧ t.rxq = s.rxq := by
  unfold routeRequest at h
  dsimp only at h
  split at h
  · split at h <;> cases h
    · exact ⟨rfl, rfl, rfl, rfl⟩
    · unfold msWrite; dsimp only; split <;> exact ⟨rfl, rfl, rfl, rfl⟩
  · split at h <;> cases h
    · exact ⟨rfl, rfl, rfl, rfl⟩
    · unfold msRead transmitReply
      split
      · split <;> exact ⟨rfl, rfl, rfl, rfl⟩
      · dsimp only; split <;> exact ⟨rfl, rfl, rfl, rfl⟩
  · split at h
    · cases h; exact ⟨rfl, rfl, rfl, rfl⟩
    · unfold dispatchCall at h
      split at h
      · cases h; unfold transmitReply; split <;> exact ⟨rfl, rfl, rfl, rfl⟩
      · have hd : ∀ a u, drawCallback ‹_› (p.drop 4) s = (a, u) →
            u.rin = s.rin ∧ u.rout = s.rout ∧ u.rxHold = s.rxHold ∧ u.rxq = s.rxq := by
          intro a u hu
          unfold drawCallback at hu
          split at hu <;> cases hu <;> exact ⟨rfl, rfl, rfl, rfl⟩
        split at h
        · rename_i hd'
          have := hd _ _ hd'
          split at h
          · cases h
            unfold dispatchReply
            split <;> exact this
          · cases h
        · rename_i u hd'
          cases h
          exact hd .neverReturns u hd'
        · cases h
  · cases h; exact ⟨rfl, rfl, rfl, rfl⟩

/-- The class of a response by the low byte of its type (R101). -/
theorem responseClass_read {sub : Byte} (h : sub = 0x02) : responseClass sub = some .read := by rw [h]; rfl

theorem responseClass_func {sub : Byte} (h : sub = 0x03) : responseClass sub = some .func := by rw [h]; rfl

theorem responseClass_none {sub : Byte} (h : sub ≠ 0x02) (h' : sub ≠ 0x03) : responseClass sub = none := by
  unfold responseClass
  split
  · exact absurd (BitVec.eq_of_toNat_eq (by assumption)) h
  · exact absurd (BitVec.eq_of_toNat_eq (by assumption)) h'
  · rfl

/-- Everything the routing of a request does, by the low byte of its type and the shape of its payload (R197). -/
theorem routeRequest_spec (ty : U16) (p : List Byte) (s : State) :
    routeRequest ty p s =
      if typeSub ty = 0x01 then
        if p.length < 4 ∨ p.length ≠ 4 + (u16be p 2).toNat then .next (answer .done (raise (.malformed 0x01) s))
        else .next (msWrite (u16be p 0) (p.drop 4) s)
      else if typeSub ty = 0x02 then
        if p.length ≠ 4 then .next (answer .done (raise (.malformed 0x02) s))
        else .next (msRead (u16be p 0) (u16be p 2) s)
      else if typeSub ty = 0x03 then
        if p.length < 4 ∨ p.length ≠ 4 + (u16be p 2).toNat then .next (answer .done (raise (.malformed 0x03) s))
        else dispatchCall (u16be p 0) (p.drop 4) s
      else .next (answer .done (raise (.unknownType ty) s)) := by
  unfold routeRequest
  dsimp only
  by_cases h1 : typeSub ty = 0x01
  · rw [if_pos h1, h1]; rfl
  · rw [if_neg h1]
    by_cases h2 : typeSub ty = 0x02
    · rw [if_pos h2, h2]; rfl
    · rw [if_neg h2]
      by_cases h3 : typeSub ty = 0x03
      · rw [if_pos h3, h3]; rfl
      · rw [if_neg h3]
        split
        · exact absurd (BitVec.eq_of_toNat_eq (by assumption)) h1
        · exact absurd (BitVec.eq_of_toNat_eq (by assumption)) h2
        · exact absurd (BitVec.eq_of_toNat_eq (by assumption)) h3
        · rfl

/-! ### A whole frame -/

/-- The parser with a good frame of type `ty` assembled, ready to route it. -/
def assembled (ty : U16) (f : Frame) (s : State) : State :=
  { s with
    abuf := frameBytes ty f ++ s.abuf.drop (f.size.toNat + 4), acnt := f.size.toNat + 4, asize := f.size, ps := .route
    res := .done }

/-- The first four bytes of a frame and the rest. -/
theorem frameBytes_split (ty : U16) (f : Frame) :
    frameBytes ty f = [0xEB] ++ (([0x90] ++ be16 f.size) ++ (be16 ty ++ f.payload ++ be32 f.crc)) := by
  simp [frameBytes, frameHead, sync1, sync2]

theorem frameBytes_length {ty : U16} {f : Frame} (h : f.payload.length + 6 = f.size.toNat) :
    (frameBytes ty f).length = f.size.toNat + 4 := by
  rw [frameBytes_split]; simp; omega

/-- The three collecting steps of a good frame, on its own bytes. -/
theorem collect_frame {s : State} {ty : U16} {f : Frame} (hp : s.ps = .seekSync) (hg : GoodFrame s ty f) :
    ∃ t u, collectOn [0xEB] s = t ∧ t.ps = .readLength ∧ t.acnt = 1 ∧
      collectOn ([0x90] ++ be16 f.size) t = u ∧ u.ps = .readBody ∧ u.acnt = 4 ∧ u.asize = f.size ∧
      collectOn (be16 ty ++ f.payload ++ be32 f.crc) u = assembled ty f s ∧
      t = { s with abuf := 0xEB :: s.abuf.drop 1, acnt := 1, ps := .readLength, res := .done } ∧
      u = { s with
        abuf := [0xEB, 0x90] ++ be16 f.size ++ (s.abuf.drop 1).drop 3, acnt := 4, asize := f.size, ps := .readBody
        res := .done } := by
  obtain ⟨hm, hl, hc⟩ := hg
  have h6 : 6 ≤ f.size.toNat := by omega
  have e1 := collectOn_sync hp
  have e2 := collectOn_header (s := { s with abuf := 0xEB :: s.abuf.drop 1, acnt := 1, ps := .readLength, res := .done })
    (size := f.size) (tail := s.abuf.drop 1) rfl rfl rfl h6 hm
  refine ⟨_, _, e1, rfl, rfl, e2, rfl, rfl, rfl, ?_, rfl, rfl⟩
  have hlen : (be16 ty ++ f.payload ++ be32 f.crc).length = f.size.toNat := by simp; omega
  rw [collectOn_body rfl rfl (by exact hlen)]
  unfold assembled
  rw [frameBytes_split, hlen]
  have : ([0xEB, 0x90] ++ be16 f.size ++ (s.abuf.drop 1).drop 3).drop (4 + f.size.toNat) = s.abuf.drop (f.size.toNat + 4) := by
    rw [List.drop_append]
    simp only [List.length_append, List.length_cons, List.length_nil, be16_length, List.drop_drop]
    rw [List.drop_eq_nil_of_le (by simp), List.nil_append]
    congr 1; omega
  simp only [this]
  congr 1

/-- What the routing of an assembled good frame looks at (R195): the type, the payload, the body, and a good trailer. -/
theorem assembled_fields {s : State} {ty : U16} {f : Frame} (hg : GoodFrame s ty f) :
    u16be (assembled ty f s).abuf 4 = ty ∧
      slice (assembled ty f s).abuf 6 f.size.toNat = f.payload ∧
      slice (assembled ty f s).abuf 4 f.size.toNat = be16 ty ++ f.payload ∧
      u32be (assembled ty f s).abuf f.size.toNat = crcBitwise ((assembled ty f s).abuf.take f.size.toNat) := by
  obtain ⟨hm, hl, hc⟩ := hg
  have hh : (frameHead ty f.size f.payload).length = f.size.toNat := by simp [frameHead]; omega
  have ha : (assembled ty f s).abuf =
      frameHead ty f.size f.payload ++ (be32 f.crc ++ s.abuf.drop (f.size.toNat + 4)) := by
    simp [assembled, frameBytes]
  have ht : (assembled ty f s).abuf.take f.size.toNat = frameHead ty f.size f.payload := by
    rw [ha, ← hh, List.take_left' rfl]
  refine ⟨?_, ?_, ?_, ?_⟩
  · have := u16be_be16 ([sync1, sync2] ++ be16 f.size) ty (f.payload ++ (be32 f.crc ++ s.abuf.drop (f.size.toNat + 4)))
    rw [ha]
    simpa [frameHead] using this
  · rw [slice, ht]; simp [frameHead, be16]
  · rw [slice, ht]; simp [frameHead, be16]
  · rw [ht, ha, ← hh, u32be_be32, hc]

/-- The routing of an assembled good frame (R195). -/
theorem routeStep_assembled {s : State} {ty : U16} {f : Frame} (ht : s.crcTable = crcTableGen) (hg : GoodFrame s ty f) :
    routeStep (assembled ty f s) =
      andThen
        (if typeReq ty then routeRequest ty f.payload (assembled ty f s)
          else .next (corrDeliver ty (be16 ty ++ f.payload) (assembled ty f s)))
        (fun t => .next (routeEnd t)) := by
  obtain ⟨h1, h2, h3, h4⟩ := assembled_fields hg
  have := routeStep_good (s := assembled ty f s) ht h4
  rw [h1] at this
  rw [this]
  show andThen (if _ then routeRequest _ (slice _ 6 f.size.toNat) _ else .next (corrDeliver _ (slice _ 4 f.size.toNat) _)) _ = _
  rw [h2, h3]

/-- A ROUTE step leaves the ring, the chunk held back and the stream of the transport alone, and the parser in SEEK_SYNC, or
for ever in a callback (R195, U5). -/
theorem routeStep_keeps {s t : State} (h : routeStep s = .next t) :
    t.rin = s.rin ∧ t.rout = s.rout ∧ t.rxHold = s.rxHold ∧ t.rxq = s.rxq ∧ (t.parserStuck = true ∨ t.ps = .seekSync) := by
  unfold routeStep at h
  dsimp only at h
  obtain ⟨u, hu, hk⟩ := andThen_next.mp h
  cases hk
  suffices k : u.rin = s.rin ∧ u.rout = s.rout ∧ u.rxHold = s.rxHold ∧ u.rxq = s.rxq by
    unfold routeEnd
    split
    · exact ⟨k.1, k.2.1, k.2.2.1, k.2.2.2, .inl ‹_›⟩
    · exact ⟨k.1, k.2.1, k.2.2.1, k.2.2.2, .inr rfl⟩
  split at hu
  · cases hu; exact ⟨rfl, rfl, rfl, rfl⟩
  · split at hu
    · exact routeRequest_keeps hu
    · cases hu
      unfold corrDeliver drawBody
      split
      · rename_i c _; dsimp only; split <;> cases c <;> exact ⟨rfl, rfl, rfl, rfl⟩
      · exact ⟨rfl, rfl, rfl, rfl⟩

/-! ### A frame taken in pieces -/

/-- The parser after it has taken the first `n` bytes of a good frame of type `ty` (R192 to R194). -/
def partialFrame (ty : U16) (f : Frame) (n : Nat) (s : State) : State :=
  { s with
    abuf := (frameBytes ty f).take n ++ s.abuf.drop n, acnt := n
    asize := if n < 4 then s.asize else f.size
    ps := if n = 0 then .seekSync else if n < 4 then .readLength else if n < f.size.toNat + 4 then .readBody else .route
    res := .done }

@[simp] theorem partialFrame_rin (ty : U16) (f : Frame) (n : Nat) (s : State) : (partialFrame ty f n s).rin = s.rin := rfl
@[simp] theorem partialFrame_rout (ty : U16) (f : Frame) (n : Nat) (s : State) : (partialFrame ty f n s).rout = s.rout := rfl
@[simp] theorem partialFrame_rxHold (ty : U16) (f : Frame) (n : Nat) (s : State) :
    (partialFrame ty f n s).rxHold = s.rxHold := rfl
@[simp] theorem partialFrame_rxq (ty : U16) (f : Frame) (n : Nat) (s : State) : (partialFrame ty f n s).rxq = s.rxq := rfl
@[simp] theorem partialFrame_parserStuck (ty : U16) (f : Frame) (n : Nat) (s : State) :
    (partialFrame ty f n s).parserStuck = s.parserStuck := rfl

/-- Before its last byte a frame is not routed. -/
theorem partialFrame_collects {ty : U16} {f : Frame} {n : Nat} (s : State) (hn : n < f.size.toNat + 4) :
    (partialFrame ty f n s).ps ≠ .route := by
  unfold partialFrame
  simp only [hn, if_true]
  split <;> [skip; split] <;> simp

theorem partialFrame_zero {s : State} {ty : U16} {f : Frame} (hp : s.ps = .seekSync) (ha : s.acnt = 0) :
    partialFrame ty f 0 s = { s with res := .done } := by
  obtain ⟨⟩ := s
  dsimp only at hp ha
  subst hp ha
  rfl

theorem partialFrame_whole {s : State} {ty : U16} {f : Frame} (hg : GoodFrame s ty f) :
    partialFrame ty f (f.size.toNat + 4) s = assembled ty f s := by
  unfold partialFrame assembled
  rw [List.take_of_length_le (by rw [frameBytes_length hg.2.1]), if_neg (by omega), if_neg (by omega), if_neg (by omega),
    if_neg (by omega)]

/-- Writing the next bytes behind the first `n`. -/
theorem splice_next {F a : List Byte} {n k : Nat} (hn : n + k ≤ F.length) :
    splice (F.take n ++ a.drop n) n ((F.drop n).take k) = F.take (n + k) ++ a.drop (n + k) := by
  have h1 : (F.take n).length = n := by simp; omega
  have h2 : ((F.drop n).take k).length = k := by simp; omega
  unfold splice
  rw [h2, List.take_left' h1, List.drop_append, h1, List.drop_eq_nil_of_le (as := F.take n) (by omega), List.nil_append,
    List.drop_drop, show n + (n + k - n) = n + k by omega, List.take_add]

theorem wanted_partial {s : State} {ty : U16} {f : Frame} {n : Nat} (hn : n < f.size.toNat + 4) :
    wanted (partialFrame ty f n s) = if n = 0 then 1 else if n < 4 then 4 - n else f.size.toNat + 4 - n := by
  unfold wanted partialFrame
  by_cases h0 : n = 0
  · simp [h0]
  · by_cases h4 : n < 4
    · simp [h0, h4]
    · simp [h0, h4, hn]

/-- One step on the next `k` bytes of the frame, `k` at most what the state asks for (R192 to R194). -/
theorem collectOn_partial {s : State} {ty : U16} {f : Frame} {n k : Nat} (hg : GoodFrame s ty f)
    (hn : n < f.size.toNat + 4) (hk : 0 < k) (hw : k ≤ wanted (partialFrame ty f n s)) :
    collectOn (((frameBytes ty f).drop n).take k) (partialFrame ty f n s) = partialFrame ty f (n + k) s := by
  have hl := frameBytes_length (ty := ty) hg.2.1
  have h6 : 6 ≤ f.size.toNat := by have := hg.2.1; omega
  rw [wanted_partial hn] at hw
  have hnk : n + k ≤ (frameBytes ty f).length := by rw [hl]; split at hw <;> [skip; split at hw] <;> omega
  have hr : ((frameBytes ty f).drop n).take k ≠ [] := by
    intro h
    have := congrArg List.length h
    simp at this
    omega
  by_cases h0 : n = 0
  · subst h0
    rw [if_pos rfl] at hw
    obtain rfl : k = 1 := by omega
    have e : ((frameBytes ty f).drop 0).take 1 = [0xEB] := by rw [frameBytes_split]; rfl
    have e' : (frameBytes ty f).take 1 = [0xEB] := e
    rw [e, collectOn_sync rfl]
    simp only [partialFrame, List.take_zero, List.nil_append, List.drop_zero, Nat.zero_add, e']
    rfl
  · have ha : assemble (((frameBytes ty f).drop n).take k) (partialFrame ty f n s) =
        { partialFrame ty f n s with
          abuf := (frameBytes ty f).take (n + k) ++ s.abuf.drop (n + k), acnt := n + k } := by
      unfold assemble
      have e1 : splice (partialFrame ty f n s).abuf (partialFrame ty f n s).acnt (((frameBytes ty f).drop n).take k) = _ :=
        splice_next (a := s.abuf) hnk
      have e2 : (((frameBytes ty f).drop n).take k).length = k := by simp; omega
      rw [e1, e2]
      rfl
    by_cases h4 : n < 4
    · rw [if_neg h0, if_pos h4] at hw
      have hp : (partialFrame ty f n s).ps = .readLength := by simp [partialFrame, h0, h4]
      unfold collectOn
      rw [hp]
      show readLengthOn _ _ = _
      unfold readLengthOn
      rw [ha]
      dsimp only
      by_cases h5 : n + k < 4
      · rw [if_pos h5, if_neg hr]
        simp only [partialFrame, h0, h4, h5, answer, if_true, if_false, show n + k ≠ 0 by omega]
      · obtain h6' : n + k = 4 := by omega
        rw [if_neg h5, h6']
        have e4 : (frameBytes ty f).take 4 = [0xEB, 0x90] ++ be16 f.size := by rw [frameBytes_split]; simp [be16]
        unfold checkHeader
        dsimp only
        rw [e4]
        have es : u16be (([0xEB, 0x90] ++ be16 f.size) ++ s.abuf.drop 4) 2 = f.size := by
          simpa using u16be_be16 [0xEB, 0x90] f.size (s.abuf.drop 4)
        have hm : ¬ (partialFrame ty f n s).cfg.maxFrame ≤ f.size.toNat + 4 := by have := hg.1; show ¬ s.cfg.maxFrame ≤ _; omega
        rw [es, if_neg (by simp [byteAt, sync2]), if_neg hm, if_neg (by omega)]
        simp only [partialFrame, answer, e4, show ¬ (4 < 4) by omega, show (4 : Nat) ≠ 0 by omega, if_false,
          show 4 < f.size.toNat + 4 by omega, if_true]
    · rw [if_neg h0, if_neg h4] at hw
      have hp : (partialFrame ty f n s).ps = .readBody := by simp [partialFrame, h0, h4, hn]
      have hs : (partialFrame ty f n s).asize = f.size := by simp [partialFrame, h4]
      unfold collectOn
      rw [hp]
      show readBodyOn _ _ = _
      unfold readBodyOn
      rw [ha, hs]
      dsimp only
      by_cases h5 : n + k = f.size.toNat + 4
      · rw [if_pos h5]
        simp only [partialFrame, answer, h4, if_false, h5, show ¬ (f.size.toNat + 4 < 4) by omega,
          show f.size.toNat + 4 ≠ 0 by omega, Nat.lt_irrefl]
      · rw [if_neg h5, if_neg hr]
        simp only [partialFrame, answer, h0, h4, hn, if_false, if_true, show ¬ (n + k < 4) by omega,
          show n + k ≠ 0 by omega, show n + k < f.size.toNat + 4 by omega]

/-! ### The arrival of bytes -/

/-- A state with another ring and another `rxq`: what moving bytes to the parser changes. -/
abbrev State.io (s : State) (b : List Byte) (i o : Nat) (q : List Byte) : State :=
  { s with rbuf := b, rin := i, rout := o, rxq := q }

/-- `P n` is the parser after it has taken the first `n` bytes of `F`, however they reached it, and it routes nothing before the
last of them. -/
structure Takes (F : List Byte) (P : Nat → State) : Prop where
  cfg : ∀ n, (P n).cfg = (P 0).cfg
  runs : ∀ n, (P n).parserStuck = false
  res : ∀ n, (P n).res = .done
  collects : ∀ n < F.length, (P n).ps ≠ .route ∧ 0 < wanted (P n)
  step : ∀ n k b i o q, n < F.length → 0 < k → k ≤ wanted (P n) → n + k ≤ F.length →
    collectOn ((F.drop n).take k) ((P n).io b i o q) = (P (n + k)).io b i o q

/-- A good frame is taken, of any length (R192 to R194). -/
theorem takes_frame {s : State} {ty : U16} {f : Frame} (hg : GoodFrame s ty f) (hs : s.parserStuck = false) :
    Takes (frameBytes ty f) fun n => partialFrame ty f n s where
  cfg _ := rfl
  runs _ := hs
  res _ := rfl
  collects n hn := by
    rw [frameBytes_length hg.2.1] at hn
    exact ⟨partialFrame_collects s hn, by rw [wanted_partial hn]; split <;> [skip; split] <;> omega⟩
  step n k b i o q hn hk hw _ := by
    rw [frameBytes_length hg.2.1] at hn
    exact collectOn_partial (s := s.io b i o q) hg hn hk hw

/-- One step over the ring, which holds the next `m` bytes: it takes at least one of them. -/
theorem Takes.collectStep {F : List Byte} {P : Nat → State} (h : Takes F P) {n m i o : Nat} {b q : List Byte}
    (hr : RingInv ((P n).io b i o q)) (hm : 0 < m) (hn : n + m ≤ F.length)
    (hl : ringLive ((P n).io b i o q) = (F.drop n).take m) :
    ∃ k o', 0 < k ∧ k ≤ m ∧ Machine.collectStep ((P n).io b i o q) = (P (n + k)).io b i o' q ∧
      RingInv ((P (n + k)).io b i o' q) ∧ ringLive ((P (n + k)).io b i o' q) = (F.drop (n + k)).take (m - k) := by
  obtain ⟨_, hw⟩ := h.collects n (by omega)
  obtain ⟨h1, h2, h3, h4⟩ := ringGet_spec hr (wanted ((P n).io b i o q))
  have hw' : wanted ((P n).io b i o q) = wanted (P n) := rfl
  rw [hw'] at h1 h2 h3 h4
  rw [hl] at h1 h4
  have hcfg : (P (n + min (wanted (P n)) m)).cfg = (P n).cfg := by rw [h.cfg, h.cfg n]
  obtain ⟨o', ho⟩ : ∃ o', (ringGet (wanted (P n)) ((P n).io b i o q)).2 = (P n).io b i o' q := ⟨_, h2⟩
  rw [ho] at h3 h4
  refine ⟨min (wanted (P n)) m, o', by omega, Nat.min_le_right _ _, ?_, ?_, ?_⟩
  · rw [Machine.collectStep, hw', h1, ho, List.take_take]
    exact h.step n _ b i o' q (by omega) (by omega) (Nat.min_le_left _ _) (by omega)
  · show b.length = (P (n + _)).cfg.bufSize ∧ i < (P (n + _)).cfg.bufSize ∧ o' < (P (n + _)).cfg.bufSize
    rw [hcfg]; exact h3
  · have : ringLive ((P (n + min (wanted (P n)) m)).io b i o' q) = ringLive ((P n).io b i o' q) := by
      unfold ringLive ringPeek ringOcc; dsimp only; rw [hcfg]
    rw [this, h4, List.drop_take, List.drop_drop]
    by_cases hc : wanted (P n) ≤ m
    · rw [Nat.min_eq_left hc]
    · rw [Nat.min_eq_right (by omega), Nat.sub_self, show m - wanted (P n) = 0 by omega, List.take_zero, List.take_zero]

theorem pump_ends {s : State} (n : Nat) (hp : s.parserStuck = true ∨ s.ps = .seekSync) (hr : s.rin = s.rout)
    (hh : s.rxHold = []) (hq : s.rxq = []) : pump n s = .next s := by
  cases n with
  | zero => rfl
  | succ n =>
    unfold pump
    rcases hp with hp | hp
    · rw [if_pos hp]
    · split
      · rfl
      · rw [if_neg (by simp [hp]), if_neg (by simp [hr]), if_pos (by simp [hh, hq])]

theorem pump_route {s : State} (n : Nat) (hs : s.parserStuck = false) (hp : s.ps = .route) :
    pump (n + 1) s = andThen (routeStep s) (pump n) := by
  unfold pump
  rw [if_neg (by simp [hs]), if_pos hp]

theorem pump_collect {s : State} (n : Nat) (hs : s.parserStuck = false) (hp : s.ps ≠ .route) (hr : s.rin ≠ s.rout) :
    pump (n + 1) s = pump n (collectStep s) := by
  conv => lhs; unfold pump
  rw [if_neg (by simp [hs]), if_neg hp, if_pos hr]

theorem pump_rx {s : State} (n : Nat) (hs : s.parserStuck = false) (hp : s.ps ≠ .route) (hr : s.rin = s.rout)
    (hq : s.rxHold ≠ [] ∨ s.rxq ≠ []) : pump (n + 1) s = pump n (rxStepBy promptRead s) := by
  conv => lhs; unfold pump
  rw [if_neg (by simp [hs]), if_neg hp, if_neg (by simp [hr]),
    if_neg (by simp only [Bool.and_eq_true, List.isEmpty_iff]; tauto)]

/-- The ring is empty exactly where the two indices are equal (R24). -/
theorem ringOcc_zero {s : State} (h : RingInv s) : ringOcc s = 0 ↔ s.rin = s.rout := by
  have hc := ringOcc_cases h
  have := h.2
  split at hc <;> omega

/-- The parser takes what is in the ring, the next `m` bytes. -/
theorem Takes.pump_drains {F : List Byte} {P : Nat → State} (h : Takes F P) {b q : List Byte} {i : Nat} (m : Nat) :
    ∀ (fuel n o : Nat), RingInv ((P n).io b i o q) → n + m ≤ F.length →
      ringLive ((P n).io b i o q) = (F.drop n).take m → m ≤ fuel →
      ∃ fuel', fuel ≤ fuel' + m ∧ pump fuel ((P n).io b i o q) = pump fuel' ((P (n + m)).io b i i q) := by
  induction m using Nat.strong_induction_on with
  | _ m ih =>
    intro fuel n o hr hn hl hf
    have hocc : ringOcc ((P n).io b i o q) = m := by
      rw [← ringLive_length, hl]
      simp
      omega
    by_cases h0 : m = 0
    · subst h0
      have e : i = o := (ringOcc_zero hr).mp hocc
      exact ⟨fuel, by omega, by rw [e, Nat.add_zero]⟩
    · obtain ⟨fuel, rfl⟩ : ∃ k, fuel = k + 1 := ⟨fuel - 1, by omega⟩
      have hne : i ≠ o := fun e => h0 (hocc.symm.trans ((ringOcc_zero hr).mpr e))
      obtain ⟨k, o', hk, hkm, hc, hr', hl'⟩ := h.collectStep hr (by omega) hn hl
      obtain ⟨fuel', hf', hp⟩ := ih (m - k) (by omega) fuel (n + k) o' hr' (by omega) hl' (by omega)
      refine ⟨fuel', by omega, ?_⟩
      rw [pump_collect (s := (P n).io b i o q) fuel (h.runs n) (h.collects n (by omega)).1 hne, hc, hp,
        show n + k + (m - k) = n + m by omega]

/-- One RX step of the prompt transport, and the parser's steps over what it moved (R302, R192 to R194). -/
theorem Takes.pump_chunk {F : List Byte} {P : Nat → State} (h : Takes F P) (hc : configWf (P 0).cfg)
    (hh : ∀ n, (P n).rxHold = []) {fuel n i : Nat} {b : List Byte} (hr : RingInv ((P n).io b i i (F.drop n)))
    (hn : n < F.length) (hf : 2 * (F.length - n) ≤ fuel) :
    ∃ c b' fuel', 0 < c ∧ n + c ≤ F.length ∧ b'.length = (P 0).cfg.bufSize ∧ fuel ≤ fuel' + 1 + c ∧
      pump fuel ((P n).io b i i (F.drop n)) =
        pump fuel' ((P (n + c)).io b' ((i + c) % (P 0).cfg.bufSize) ((i + c) % (P 0).cfg.bufSize) (F.drop (n + c))) := by
  obtain ⟨fuel, rfl⟩ : ∃ k, fuel = k + 1 := ⟨fuel - 1, by omega⟩
  obtain ⟨s, hs⟩ : ∃ s, s = (P n).io b i i (F.drop n) := ⟨_, rfl⟩
  have hcfg : (P n).cfg = (P 0).cfg := h.cfg n
  have hq : s.rxq = F.drop n := by rw [hs]
  have hsc : s.cfg = (P 0).cfg := by rw [hs]; exact hcfg
  have hsh : s.rxHold = [] := by rw [hs]; exact hh n
  have hsr : s.res = .done := by rw [hs]; exact h.res n
  have hrs : RingInv s := by rw [hs]; exact hr
  have hocc : ringOcc s = 0 := (ringOcc_zero hrs).mpr (by rw [hs])
  obtain ⟨c, hcdef⟩ : ∃ c, c = min (s.cfg.bufSize - 1) (min s.cfg.rxChunkMax s.rxq.length) := ⟨_, rfl⟩
  have hlq : s.rxq.length = F.length - n := by rw [hq]; simp
  have hb2 : 2 ≤ s.cfg.bufSize := by rw [hsc]; exact hc.1
  have hch : 1 ≤ s.cfg.rxChunkMax := by rw [hsc]; exact hc.2.2.2.2.2.2.2.1
  have htake : promptRead s = (s.rxq.take c, { s with rxq := s.rxq.drop c }) := by
    unfold promptRead
    rw [transportTake_spec, hcdef]
  have hcl : (s.rxq.take c).length = c := by simp; omega
  have hput : (s.rxq.take c).length + ringOcc s < s.cfg.bufSize := by rw [hocc, hcl]; omega
  obtain ⟨x, xs, hx⟩ : ∃ x xs, s.rxq.take c = x :: xs := by
    cases hx : s.rxq.take c with
    | nil => rw [hx] at hcl; simp at hcl; omega
    | cons x xs => exact ⟨x, xs, rfl⟩
  obtain ⟨b', hb'⟩ : ∃ b', b' = ringStore s.cfg.bufSize s.rbuf s.rin (s.rxq.take c) := ⟨_, rfl⟩
  have hfit := ringPut_fits hput
  rw [hcl, ← hb'] at hfit
  have hrx : rxStepBy promptRead s = { s with rbuf := b', rin := (s.rin + c) % s.cfg.bufSize, rxq := s.rxq.drop c } := by
    unfold rxStepBy
    rw [hsh]
    dsimp only
    rw [htake, hx]
    dsimp only
    rw [← hx]
    unfold rxDeliver
    have : ringPut (s.rxq.take c) { s with rxq := s.rxq.drop c } =
        some { s with rxq := s.rxq.drop c, rbuf := b', rin := (s.rin + c) % s.cfg.bufSize } := by
      rw [ringPut_fits (s := { s with rxq := s.rxq.drop c }) hput, hcl, hb']
    rw [this]
    simp [answer, hsr]
  have hrx' : rxStepBy promptRead s = (P n).io b' ((i + c) % (P 0).cfg.bufSize) i (F.drop (n + c)) := by
    rw [hrx, hq, List.drop_drop, ← hcfg, hs]
  obtain ⟨u, hu⟩ : ∃ u, ringPut (s.rxq.take c) s = some u := ⟨_, hfit⟩
  obtain ⟨_, _, hu3, hu4⟩ := ringPut_some hrs hu
  rw [List.eq_nil_of_length_eq_zero (by rw [ringLive_length, hocc] : (ringLive s).length = 0), List.nil_append, hq] at hu4
  have hu5 : u = (P n).io b' ((i + c) % (P 0).cfg.bufSize) i (F.drop n) := by
    rw [hfit] at hu
    rw [← Option.some.inj hu, ← hcfg, hs]
  rw [hu5] at hu3 hu4
  obtain ⟨fuel', hf', hp⟩ := h.pump_drains (q := F.drop (n + c)) c fuel n i hu3 (by omega) hu4 (by omega)
  refine ⟨c, b', fuel', by omega, by omega, by have := hu3.1; rw [← hcfg]; exact this, by omega, ?_⟩
  rw [← hs, pump_rx fuel (by rw [hs]; exact h.runs n) (by rw [hs]; exact (h.collects n hn).1) (by rw [hs])
    (.inr (by intro e; rw [e] at hx; simp at hx)), hrx', hp]

/-- Bytes that wait in `rxq` reach the parser, chunk by chunk, whatever their number. -/
theorem Takes.pump_all {F : List Byte} {P : Nat → State} (h : Takes F P) (hc : configWf (P 0).cfg)
    (hh : ∀ n, (P n).rxHold = []) (k : Nat) :
    ∀ (fuel n i : Nat) (b : List Byte), RingInv ((P n).io b i i (F.drop n)) → n + k = F.length → 2 * k + 1 ≤ fuel →
      ∃ b' fuel', b'.length = (P 0).cfg.bufSize ∧
        pump fuel ((P n).io b i i (F.drop n)) =
          pump (fuel' + 1) ((P F.length).io b' ((i + k) % (P 0).cfg.bufSize) ((i + k) % (P 0).cfg.bufSize) []) := by
  induction k using Nat.strong_induction_on with
  | _ k ih =>
    intro fuel n i b hr hn hf
    have hcfg := h.cfg n
    have hi : i < (P 0).cfg.bufSize := by rw [← hcfg]; exact hr.2.1
    by_cases h0 : k = 0
    · subst h0
      obtain rfl : n = F.length := by omega
      refine ⟨b, fuel - 1, by rw [← hcfg]; exact hr.1, ?_⟩
      rw [show fuel - 1 + 1 = fuel by omega, Nat.add_zero, Nat.mod_eq_of_lt hi, List.drop_length]
    · obtain ⟨c, b', fuel', hc0, hcn, hb, hf', hp⟩ := h.pump_chunk (fuel := fuel) hc hh hr (by omega) (by omega)
      have hm : (i + c) % (P 0).cfg.bufSize < (P 0).cfg.bufSize := Nat.mod_lt _ (by omega)
      obtain ⟨b'', fuel'', hb'', hp'⟩ := ih (k - c) (by omega) fuel' (n + c) _ b'
        (by
          show b'.length = (P (n + c)).cfg.bufSize ∧ _ < (P (n + c)).cfg.bufSize ∧ _ < (P (n + c)).cfg.bufSize
          rw [h.cfg]; exact ⟨hb, hm, hm⟩)
        (by omega) (by omega)
      refine ⟨b'', fuel'', hb'', ?_⟩
      rw [hp, hp', Nat.mod_add_mod, show i + c + (k - c) = i + k by omega]

/-- Bytes that arrive at a state that receives them whole: the parser has taken them, and the ring has passed them on. -/
theorem receiveBytes_takes {s : State} {F : List Byte} {P : Nat → State} (hr : Receiving s) (h : Takes F P)
    (h0 : P 0 = answer .done s) (hold : ∀ n, (P n).rxHold = (P 0).rxHold) :
    ∃ b fuel, b.length = s.cfg.bufSize ∧
      receiveBytes F s =
        pump (fuel + 1) ((P F.length).io b ((s.rin + F.length) % s.cfg.bufSize) ((s.rin + F.length) % s.cfg.bufSize) []) := by
  obtain ⟨⟨hi, hcr, _⟩, ⟨hsch, hs⟩, ⟨_, _, he, hh, hq⟩, hc, hri⟩ := hr
  have hocc : ringOcc s = 0 := (ringOcc_zero hri).mpr he
  have hcfg : (P 0).cfg = s.cfg := by rw [h0]; rfl
  have e : answer .done { s with rxq := s.rxq ++ F } = (P 0).io s.rbuf s.rin s.rin (F.drop 0) := by
    rw [h0, hq]
    simp only [answer, List.nil_append, List.drop_zero, he]
  obtain ⟨b, fuel, hb, hp⟩ := h.pump_all (by rw [hcfg]; exact hc)
    (fun n => by rw [hold n, h0]; exact hh) F.length (3 * F.length + 2) 0 s.rin s.rbuf
    (by show _ ∧ _ < (P 0).cfg.bufSize ∧ _ < (P 0).cfg.bufSize; rw [hcfg]; exact ⟨hri.1, hri.2.1, hri.2.1⟩)
    (by omega) (by omega)
  rw [hcfg] at hb hp
  refine ⟨b, fuel, hb, ?_⟩
  rw [receiveBytes, requireInited_pos hi, requireCrc_pos hcr]
  dsimp only
  rw [if_neg hsch, parserAgent_runs (by exact hs), e, ← hp]
  have : 3 * (ringOcc { s with rxq := s.rxq ++ F } + s.rxHold.length + (s.rxq ++ F).length) + 2 = 3 * F.length + 2 := by
    show 3 * (ringOcc s + s.rxHold.length + (s.rxq ++ F).length) + 2 = _
    rw [hocc, hh, hq]
    simp
  rw [this]

/-- A good frame that arrives at a state that receives it whole is assembled and routed; the ring has passed its bytes on and
is empty (R71, R72). -/
theorem receiveFrame_good {s : State} {ty : U16} {f : Frame} (hr : Receiving s) (hg : GoodFrame s ty f) :
    ∃ b, b.length = s.cfg.bufSize ∧
      receiveFrame ty f s = routeStep (assembled ty f (s.ringPassed (f.size.toNat + 4) b)) := by
  have hs := hr.2.1.2
  obtain ⟨hp, ha, _, hh, hq⟩ := hr.2.2.1
  obtain ⟨b, fuel, hb, h⟩ := receiveBytes_takes hr (takes_frame (ty := ty) hg hs) (partialFrame_zero hp ha)
    (fun _ => rfl)
  refine ⟨b, hb, ?_⟩
  rw [receiveFrame, h, frameBytes_length hg.2.1, partialFrame_whole hg]
  have hsame : (assembled ty f s).io b ((s.rin + (f.size.toNat + 4)) % s.cfg.bufSize)
      ((s.rin + (f.size.toNat + 4)) % s.cfg.bufSize) [] = assembled ty f (s.ringPassed (f.size.toNat + 4) b) := by
    simp only [State.io, assembled, State.ringPassed, hq]
  rw [hsame, pump_route fuel (by exact hs) rfl]
  cases hrt : routeStep (assembled ty f (s.ringPassed (f.size.toNat + 4) b)) with
  | next u =>
    obtain ⟨k1, k2, k3, k4, k5⟩ := routeStep_keeps hrt
    exact pump_ends _ k5 (by rw [k1, k2]; rfl) (by rw [k3]; exact hh) (by rw [k4]; exact hq)
  | fault _ => rfl
  | refused _ => rfl

/-! ### A false start -/

/-- The parser after it has taken the first `n` of the four bytes of a false start: at the fourth it drops them all (R193,
R200). -/
def falseStart (b c d : Byte) (n : Nat) (s : State) : State :=
  { s with
    abuf := [0xEB, b, c, d].take n ++ s.abuf.drop n, acnt := if n < 4 then n else 0
    ps := if n = 0 then .seekSync else if n < 4 then .readLength else .seekSync
    log := if n < 4 then s.log else s.log ++ [.badSync2 b], res := .done }

theorem takes_falseStart {s : State} {b c d : Byte} (hb : b ≠ 0x90) (hs : s.parserStuck = false) :
    Takes [0xEB, b, c, d] fun n => falseStart b c d n s where
  cfg _ := rfl
  runs _ := hs
  res _ := rfl
  collects n hn := by
    obtain rfl | rfl | rfl | rfl : n = 0 ∨ n = 1 ∨ n = 2 ∨ n = 3 := by simp at hn; omega
    all_goals simp [falseStart, wanted]
  step n k b' i o q hn hk hw hnk := by
    have hnk' : n + k ≤ 4 := hnk
    have hb90 : (b = 144#8) = False := eq_false hb
    obtain rfl | rfl | rfl | rfl : n = 0 ∨ n = 1 ∨ n = 2 ∨ n = 3 := by simp at hn; omega
    · obtain rfl : k = 1 := by simp [falseStart, wanted] at hw; omega
      rfl
    · obtain rfl | rfl | rfl : k = 1 ∨ k = 2 ∨ k = 3 := by omega
      all_goals
        simp [collectOn, readLengthOn, falseStart, assemble, splice, checkHeader, byteAt, sync2, hb90, resync, raise, answer]
    · obtain rfl | rfl : k = 1 ∨ k = 2 := by omega
      all_goals
        simp [collectOn, readLengthOn, falseStart, assemble, splice, checkHeader, byteAt, sync2, hb90, resync, raise, answer]
    · obtain rfl : k = 1 := by omega
      all_goals
        simp [collectOn, readLengthOn, falseStart, assemble, splice, checkHeader, byteAt, sync2, hb90, resync, raise, answer]

/-- One collecting step on the ring, where the bytes it asks for are live. -/
theorem collectStep_live {s : State} {r rest : List Byte} (h : RingInv s) (hl : ringLive s = r ++ rest)
    (hw : wanted s = r.length) :
    ∃ i, collectStep s = collectOn r { s with rout := i } ∧ RingInv { s with rout := i } ∧ ringLive { s with rout := i } = rest := by
  obtain ⟨h1, h2, h3, h4⟩ := ringGet_spec h (wanted s)
  refine ⟨(s.rout + min (wanted s) (ringOcc s)) % s.cfg.bufSize, ?_, h3, ?_⟩
  · rw [collectStep, h1, h2, hl, hw, List.take_left' rfl]
  · have : ringLive (ringGet (wanted s) s).2 = rest := by rw [h4, hl, hw, List.drop_left' rfl]
    exact this

/-- The three collecting steps of a good frame at the front of the ring. -/
theorem collect_ring {s : State} {ty : U16} {f : Frame} {rest : List Byte} (h : RingInv s) (hp : s.ps = .seekSync)
    (hg : GoodFrame s ty f) (hl : ringLive s = frameBytes ty f ++ rest) :
    ∃ t u i, collectStep s = t ∧ collectStep t = u ∧ collectStep u = assembled ty f { s with rout := i } ∧
      RingInv { s with rout := i } ∧ ringLive { s with rout := i } = rest ∧
      t.ps = .readLength ∧ u.ps = .readBody ∧ t.res = .done ∧ u.res = .done ∧
      (∃ i a, t = { s with rout := i, abuf := a, acnt := 1, ps := .readLength, res := .done }) ∧
      (∃ i a, u = { s with rout := i, abuf := a, acnt := 4, asize := f.size, ps := .readBody, res := .done }) := by
  have hlen : (be16 ty ++ f.payload ++ be32 f.crc).length = f.size.toNat := by have := hg.2.1; simp; omega
  rw [frameBytes_split, List.append_assoc] at hl
  obtain ⟨i1, c1, r1, l1⟩ := collectStep_live h hl (by simp [wanted, hp])
  obtain ⟨t, u, e1, h1, h2, e2, h3, h4, h5, e3, ht, hu⟩ := collect_frame (s := { s with rout := i1 }) hp hg
  rw [e1] at c1
  have rt : RingInv t := by rw [ht]; exact r1
  have lt : ringLive t = ([0x90] ++ be16 f.size) ++ ((be16 ty ++ f.payload ++ be32 f.crc) ++ rest) := by
    rw [← List.append_assoc, ← l1, ht]; rfl
  obtain ⟨i2, c2, r2, l2⟩ := collectStep_live rt lt (by simp [wanted, h1, h2])
  obtain ⟨t', u', e1', h1', h2', e2', h3', h4', h5', e3', ht', hu'⟩ := collect_frame (s := { s with rout := i2 }) hp hg
  have : ({ t with rout := i2 } : State) = t' := by rw [ht, ht']
  rw [this, e2'] at c2
  have ru : RingInv u' := by rw [hu']; rw [ht] at r2; exact r2
  have lu : ringLive u' = (be16 ty ++ f.payload ++ be32 f.crc) ++ rest := by
    rw [← l2, hu', ht]; rfl
  obtain ⟨i3, c3, r3, l3⟩ := collectStep_live ru lu (by rw [hlen]; simp [wanted, h3', h4', h5'])
  obtain ⟨t'', u'', e1'', h1'', h2'', e2'', h3'', h4'', h5'', e3'', ht'', hu''⟩ := collect_frame (s := { s with rout := i3 }) hp hg
  have : ({ u' with rout := i3 } : State) = u'' := by rw [hu', hu'']
  rw [this, e3''] at c3
  refine ⟨t, u', i3, c1, c2, c3, ?_, ?_, h1, h3', by rw [ht], by rw [hu'], ⟨_, _, ht⟩, ⟨_, _, hu'⟩⟩
  · rw [hu'] at r3; exact r3
  · rw [← l3, hu']; rfl

end Sys2Proof.Machine
end

