-- ==== Sys2Proof/Laws/PerInstr.lean ====
section
/-! SUPPORT. Statements made instruction by instruction, one lemma per constructor of `Instr`. -/

namespace Sys2Proof.Laws.FirstByte

/-- The byte that stands first: the first sync byte of a frame (spec/30_encoding.md R90, R91), the select code of a host command
(R104) or of a unit operation (R106). -/
def code : Instr → Byte
  | .writeReq _ => 0xEB
  | .readReq _ => 0xEB
  | .funcReq _ => 0xEB
  | .readRsp _ => 0xEB
  | .funcRsp _ => 0xEB
  | .readErr _ => 0xEB
  | .funcErr _ => 0xEB
  | .initContext _ _ _ => 0x40
  | .writeRemoteMemory _ _ _ => 0x41
  | .readRemoteMemory _ _ => 0x42
  | .registerFunction _ _ => 0x43
  | .callRemoteFunction _ _ => 0x44
  | .listFunctions => 0x45
  | .rbPut _ => 0x10
  | .rbGet _ => 0x11
  | .rbSize => 0x12
  | .crcInit => 0x20
  | .crcChecksum _ _ => 0x21
  | .crcStore _ _ => 0x22
  | .crcVerify _ _ => 0x23
  | .encodeFrame _ _ => 0x30
  | .parseSeekSync => 0x31
  | .parseReadLength => 0x32
  | .parseReadBody => 0x33
  | .parseRoute => 0x34
  | .corrDeliver _ _ => 0x50
  | .corrWait _ => 0x51
  | .corrTick => 0x52
  | .corrValidate _ _ => 0x53
  | .msWrite _ _ => 0x60
  | .msRead _ _ => 0x61
  | .dispatch _ _ => 0x70
  | .rxStep => 0x80
  | .tx _ => 0x81
  | .coopStep => 0x82

/-- The instruction's encoding starts with its own code. -/
def Statement (i : Instr) : Prop := (encode i).head? = some (code i)

theorem writeReq (f : Frame) : Statement (.writeReq f) := rfl

theorem readReq (f : Frame) : Statement (.readReq f) := rfl

theorem funcReq (f : Frame) : Statement (.funcReq f) := rfl

theorem readRsp (f : Frame) : Statement (.readRsp f) := rfl

theorem funcRsp (f : Frame) : Statement (.funcRsp f) := rfl

theorem readErr (f : Frame) : Statement (.readErr f) := rfl

theorem funcErr (f : Frame) : Statement (.funcErr f) := rfl

theorem initContext (handle readFn writeFn : Handle) : Statement (.initContext handle readFn writeFn) := rfl

theorem writeRemoteMemory (addr len : U16) (data : List Byte) : Statement (.writeRemoteMemory addr len data) := rfl

theorem readRemoteMemory (addr len : U16) : Statement (.readRemoteMemory addr len) := rfl

theorem registerFunction (code : U16) (callback : Handle) : Statement (.registerFunction code callback) := rfl

theorem callRemoteFunction (code : U16) (arg : List Byte) : Statement (.callRemoteFunction code arg) := rfl

theorem listFunctions : Statement .listFunctions := rfl

theorem rbPut (b : List Byte) : Statement (.rbPut b) := rfl

theorem rbGet (m : Nat) : Statement (.rbGet m) := rfl

theorem rbSize : Statement .rbSize := rfl

theorem crcInit : Statement .crcInit := rfl

theorem crcChecksum (data : List Byte) (n : Nat) : Statement (.crcChecksum data n) := rfl

theorem crcStore (buf : List Byte) (total : Nat) : Statement (.crcStore buf total) := rfl

theorem crcVerify (buf : List Byte) (total : Nat) : Statement (.crcVerify buf total) := rfl

theorem encodeFrame (ty : U16) (payload : List Byte) : Statement (.encodeFrame ty payload) := rfl

theorem parseSeekSync : Statement .parseSeekSync := rfl

theorem parseReadLength : Statement .parseReadLength := rfl

theorem parseReadBody : Statement .parseReadBody := rfl

theorem parseRoute : Statement .parseRoute := rfl

theorem corrDeliver (ty : U16) (payload : List Byte) : Statement (.corrDeliver ty payload) := rfl

theorem corrWait (c : CClass) : Statement (.corrWait c) := rfl

theorem corrTick : Statement .corrTick := rfl

theorem corrValidate (c : CClass) (r : List Byte) : Statement (.corrValidate c r) := rfl

theorem msWrite (addr : U16) (data : List Byte) : Statement (.msWrite addr data) := rfl

theorem msRead (addr len : U16) : Statement (.msRead addr len) := rfl

theorem dispatch (code : U16) (arg : List Byte) : Statement (.dispatch code arg) := rfl

theorem rxStep : Statement .rxStep := rfl

theorem tx (f : List Byte) : Statement (.tx f) := rfl

theorem coopStep : Statement .coopStep := rfl

end Sys2Proof.Laws.FirstByte
end

