-- ==== Sys2Proof/Laws/Schedule.lean ====
section
/-! SUPPORT. The scheduling model (spec/47_ingress_pump.md R307) decides who steps and when: what a step of the RX agent or of the
parser agent does is the same in every mode, so that COOP_STEP (R310) performs the very steps the agents make on their own. -/

namespace Sys2Proof.Machine

/-! ### The state under another scheduling model -/

@[simp] theorem scheduled_sched (s : State) (m : Sched) : (s.scheduled m).cfg.sched = m := rfl

@[simp] theorem scheduled_parserStuck (s : State) (m : Sched) : (s.scheduled m).parserStuck = s.parserStuck := rfl
@[simp] theorem scheduled_ps (s : State) (m : Sched) : (s.scheduled m).ps = s.ps := rfl
@[simp] theorem scheduled_inited (s : State) (m : Sched) : (s.scheduled m).inited = s.inited := rfl
@[simp] theorem scheduled_crcInit (s : State) (m : Sched) : (s.scheduled m).crcInit = s.crcInit := rfl

@[simp] theorem scheduled_ringOcc (s : State) (m : Sched) : ringOcc (s.scheduled m) = ringOcc s := rfl
@[simp] theorem scheduled_ringLive (s : State) (m : Sched) : ringLive (s.scheduled m) = ringLive s := rfl

@[simp] theorem scheduled_scheduled (s : State) (m n : Sched) : (s.scheduled m).scheduled n = s.scheduled n := rfl

/-- A state under its own scheduling model is itself. -/
theorem scheduled_self {s : State} {m : Sched} (h : s.cfg.sched = m) : s.scheduled m = s := by
  subst h; rfl

/-- An outcome under another scheduling model. -/
def scheduledOut (m : Sched) : Out → Out
  | .next s => .next (s.scheduled m)
  | .fault r => .fault r
  | .refused r => .refused r

/-! ### The steps of the agents -/

/-- What a collecting step does is the same in every mode (R192 to R194). -/
theorem collectOn_scheduled (r : List Byte) (s : State) (m : Sched) :
    collectOn r (s.scheduled m) = (collectOn r s).scheduled m := by
  have hh : ∀ t : State, checkHeader (t.scheduled m) = (checkHeader t).scheduled m := by
    intro t
    show (if byteAt t.abuf 1 ≠ sync2 then _ else if t.cfg.maxFrame ≤ (u16be t.abuf 2).toNat + 4 then _
      else if (u16be t.abuf 2).toNat < 6 then _ else _) = State.scheduled (if _ then _ else if _ then _ else if _ then _ else _) m
    split
    · rfl
    · split
      · rfl
      · split <;> rfl
  unfold collectOn
  rw [scheduled_ps]
  split
  · unfold seekSyncOn
    split
    · rfl
    · split <;> rfl
  · show (if (assemble r s).acnt < 4 then (if r = [] then _ else _)
      else answer .done (checkHeader ((assemble r s).scheduled m))) =
      State.scheduled (if _ then (if _ then _ else _) else _) m
    rw [hh]
    split
    · split <;> rfl
    · rfl
  · show (if (assemble r s).acnt = s.asize.toNat + 4 then _ else if r = [] then _ else _) =
      State.scheduled (if _ then _ else if _ then _ else _) m
    split
    · rfl
    · split <;> rfl
  · rfl

theorem collectStep_scheduled (s : State) (m : Sched) : collectStep (s.scheduled m) = (collectStep s).scheduled m :=
  collectOn_scheduled (ringGet (wanted s) s).1 (ringGet (wanted s) s).2 m

theorem ringPut_scheduled (b : List Byte) (s : State) (m : Sched) :
    ringPut b (s.scheduled m) = (ringPut b s).map (State.scheduled · m) := by
  show (if s.cfg.bufSize ≤ b.length + ringOcc s then none else _) = Option.map _ (if _ then none else _)
  split <;> rfl

/-- What RX_STEP does is the same in every mode (R302). -/
theorem rxStep_scheduled (s : State) (m : Sched) : rxStep (s.scheduled m) = (rxStep s).scheduled m := by
  have hd : ∀ (chunk : List Byte) (t : State), rxDeliver chunk (t.scheduled m) = (rxDeliver chunk t).scheduled m := by
    intro chunk t
    unfold rxDeliver
    rw [ringPut_scheduled]
    cases ringPut chunk t with
    | some _ => rfl
    | none =>
      show (match t.cfg.rxOnFull with | .retry => _ | .drop => _) =
        State.scheduled (match t.cfg.rxOnFull with | .retry => _ | .drop => _) m
      cases t.cfg.rxOnFull <;> rfl
  have hr : transportRead (s.scheduled m) = ((transportRead s).1, (transportRead s).2.scheduled m) := by
    have h1 : drawRead (s.scheduled m) = ((drawRead s).1, (drawRead s).2.scheduled m) := by
      unfold drawRead; dsimp only [State.scheduled]; split <;> rfl
    unfold transportRead
    rw [h1]
    simp only [transportTake_spec]
    rfl
  unfold rxStep rxStepBy
  rw [hr]
  show (match s.rxHold with | b :: rest => _ | [] => _) = _
  cases s.rxHold with
  | cons b rest => exact congrArg (answer .done) (hd _ _)
  | nil =>
    obtain ⟨r, t⟩ := transportRead s
    cases r with
    | nil => rfl
    | cons b rest => exact congrArg (answer .done) (hd _ _)

theorem transmitReply_scheduled (f : Option (List Byte)) (s : State) (m : Sched) :
    transmitReply f (s.scheduled m) = (transmitReply f s).scheduled m := by
  cases f <;> rfl

theorem dispatchCall_scheduled (code : U16) (arg : List Byte) (s : State) (m : Sched) :
    dispatchCall code arg (s.scheduled m) = scheduledOut m (dispatchCall code arg s) := by
  have hc : ∀ cb, drawCallback cb arg (s.scheduled m) = ((drawCallback cb arg s).1, (drawCallback cb arg s).2.scheduled m) := by
    intro cb
    unfold drawCallback; dsimp only [State.scheduled]; split <;> rfl
  have hr : ∀ ret t, dispatchReply code ret (State.scheduled t m) = (dispatchReply code ret t).scheduled m := by
    intro ret t
    show (match encodeIn t 0x6C03 (keyedPayload code ret) with | none => _ | some f => _) = _
    unfold dispatchReply
    cases encodeIn t 0x6C03 (keyedPayload code ret) <;> rfl
  show (match lookup code s.reg with | none => _ | some cb => _) = _
  unfold dispatchCall
  cases lookup code s.reg with
  | none => 
    exact congrArg (fun t => Host.Outcome.next (answer .unknownFunction t))
      (transmitReply_scheduled (encodeIn s 0x2C03 (errPayload wireErrorCode)) (raise (.unknownFunction code) s) m)
  | some cb =>
    dsimp only
    rw [hc]
    obtain ⟨a, t⟩ := drawCallback cb arg s
    cases a with
    | returns declared ret =>
      show (if declared = ret.length ∧ ret.length ≤ s.cfg.maxRet then
        Host.Outcome.next (dispatchReply code ret (t.scheduled m)) else _) = scheduledOut m (if _ then _ else _)
      rw [hr]
      split <;> rfl
    | neverReturns => rfl
    | usesContext => rfl

theorem msWrite_scheduled (addr : U16) (data : List Byte) (s : State) (m : Sched) :
    msWrite addr data (s.scheduled m) = (msWrite addr data s).scheduled m := by
  show (match (msWriteLoop s.cfg.memSize addr.toNat 0 data s.mem).2 with | none => _ | some i => _) = _
  unfold msWrite
  dsimp only
  cases (msWriteLoop s.cfg.memSize addr.toNat 0 data s.mem).2 <;> rfl

theorem msRead_scheduled (addr len : U16) (s : State) (m : Sched) :
    msRead addr len (s.scheduled m) = (msRead addr len s).scheduled m := by
  show (if s.cfg.memSize ≤ addr.toNat then _ else _) = _
  unfold msRead
  by_cases h : s.cfg.memSize ≤ addr.toNat
  · rw [if_pos h, if_pos h]
    exact congrArg (answer .addressRange)
      (transmitReply_scheduled (encodeIn s 0x2C02 (errPayload wireErrorCode)) (raise (.rangeError addr) s) m)
  · rw [if_neg h, if_neg h]
    dsimp only
    show (match encodeIn s 0x6C02 (keyedPayload addr
      (memReadBytes s.mem addr.toNat (msReadLen s.cfg.memSize addr len))) with | none => _ | some f => _) = _
    cases encodeIn s 0x6C02 (keyedPayload addr
      (memReadBytes s.mem addr.toNat (msReadLen s.cfg.memSize addr len))) <;> rfl

theorem routeRequest_scheduled (ty : U16) (p : List Byte) (s : State) (m : Sched) :
    routeRequest ty p (s.scheduled m) = scheduledOut m (routeRequest ty p s) := by
  simp only [routeRequest_spec, msWrite_scheduled, msRead_scheduled, dispatchCall_scheduled]
  repeat' split
  all_goals rfl

/-- What ROUTE does is the same in every mode (R195 to R198). -/
theorem routeStep_scheduled (s : State) (m : Sched) : routeStep (s.scheduled m) = scheduledOut m (routeStep s) := by
  have hb : ∀ body, drawBody body (s.scheduled m) = ((drawBody body s).1, (drawBody body s).2.scheduled m) := by
    intro body
    show (if body.length + 9 ≤ s.cfg.maxFrame then _ else _) = _
    unfold drawBody
    by_cases h : body.length + 9 ≤ s.cfg.maxFrame
    · rw [if_pos h, if_pos h]
    · rw [if_neg h, if_neg h]; rfl
  have hd : ∀ ty body, corrDeliver ty body (s.scheduled m) = (corrDeliver ty body s).scheduled m := by
    intro ty body
    unfold corrDeliver
    rw [hb]
    cases responseClass (typeSub ty) with
    | some c => cases c <;> rfl
    | none => rfl
  have hk : ∀ o : Out, andThen (scheduledOut m o) (fun t => .next (routeEnd t)) =
      scheduledOut m (andThen o fun t => .next (routeEnd t)) := by
    intro o
    cases o with
    | next t => show Host.Outcome.next _ = .next _; unfold routeEnd; rw [scheduled_parserStuck]; split <;> rfl
    | fault _ => rfl
    | refused _ => rfl
  unfold routeStep
  dsimp only
  rw [← hk, routeRequest_scheduled, hd]
  show andThen (if crcVerifyTrailer s.crcTable s.abuf (s.asize.toNat + 4) = false then _
    else if typeReq (u16be s.abuf 4) = true then _ else _) _ = _
  congr 1
  split
  · rfl
  · split <;> rfl

end Sys2Proof.Machine
end

