-- ==== Sys2Proof/Tests/Slice0.lean ====
section
/-! SUPPORT. Tests: words of the spec's encodings and their decoding, ill-formed terms, one step each of the instructions on the
spec's vectors (spec/95_test_vectors.md), and for every obligation with hypotheses a state and operands that meet them. -/

namespace Sys2Proof.Tests

open Sys2Proof.Machine

-- One theorem at a time: the kernel's checks of closed facts need no threads of their own.
set_option Elab.async false

/-! ### Helpers -/

/-- The outcome is a next state that passes a check. -/
def nextIs (o : Out) (p : State → Bool) : Bool :=
  match o with
  | .next s => p s
  | .fault _ => false
  | .refused _ => false

/-- The outcome is this refusal. -/
def refusedAs (o : Out) (r : Refusal) : Bool :=
  match o with
  | .next _ => false
  | .fault _ => false
  | .refused q => decide (q = r)

/-- The decoder reads exactly this instruction from exactly these bytes. -/
def reads (bs : List Byte) (i : Instr) : Bool :=
  match decode bs with
  | .ok (j, rest) => decide (j = i) && decide (rest = [])
  | .error _ => false

/-- The decoder's answer, as plain data. -/
def readsError (bs : List Byte) (e : DecodeError) : Bool :=
  match decode bs with
  | .ok _ => false
  | .error d => decide (d = e)

/-- Small parameters: a ring of 32, frames below 40, 16 bytes of memory. -/
def cfg : Config :=
  { bufSize := 32, maxFrame := 40, memSize := 16, timeoutTicks := 3, maxRet := 25, nFunc := 2, sched := .preemptive
    rxChunkMax := 8, rxOnFull := .retry }

/-- A memory of `n` bytes that all hold `A5`. -/
def mem (n : Nat) : Mem := (List.range n).map fun a => (a, 0xA5)

/-- The state after reset with the small parameters and a memory that was written. -/
def st : State :=
  { State.reset with cfg := cfg, rbuf := List.replicate 32 0, abuf := List.replicate 40 0, mem := mem 16 }

/-- The same with `b` in the ring. -/
def holding (b : List Byte) : State := { st with rbuf := b ++ List.replicate (32 - b.length) 0, rin := b.length }

/-- The same with the bytes `b` assembled and the parser in `p`. -/
def assembledIn (p : ParserState) (b : List Byte) : State :=
  { st with abuf := b ++ List.replicate (40 - b.length) 0, acnt := b.length, asize := u16be b 2, ps := p }

/-- A class that waits with `n` ticks for a response that echoes `key`. -/
def waitingFor (key : U16) (n : Nat) : ClassRegs :=
  { ClassRegs.reset with cstate := .waiting, tcnt := n, echo := key, echoSet := true }

/-- A state whose class `READ` waits with `n` ticks for the address 0. -/
def waiting (n : Nat) : State := { st with readCls := waitingFor 0 n }

/-- A class with a body in its slot; one that waits does so for the key 0. -/
def signalled (w : CallState) (b : List Byte) : ClassRegs :=
  { ClassRegs.reset with
    slot := b, slotLen := b.length, slotValid := true, pend := true, cstate := w, echoSet := decide (w = .waiting) }

/-- The cooperative machine. -/
def coop : State := { st with cfg := { cfg with sched := .cooperative } }

/-- One registered function. -/
def oneFunction : State := { st with reg := [⟨0x0666, 7⟩] }

/-- The frames of spec/95_test_vectors.md 1.1. -/
def w4 : List Byte := [0xEB, 0x90, 0x00, 0x0E, 0xEC, 0x01, 0x00, 0x00, 0x00, 0x04, 0x00, 0x01, 0x02, 0x03, 0xB2, 0xEE, 0x8C, 0x59]
def r4 : List Byte := [0xEB, 0x90, 0x00, 0x0A, 0xEC, 0x02, 0x00, 0x00, 0x00, 0x04, 0x5E, 0x46, 0xCF, 0x00]
def f3 : List Byte := [0xEB, 0x90, 0x00, 0x0D, 0xEC, 0x03, 0x06, 0x66, 0x00, 0x03, 0x01, 0x02, 0x03, 0x88, 0xBD, 0x55, 0x44]
def rsp4 : List Byte := [0xEB, 0x90, 0x00, 0x0E, 0x6C, 0x02, 0x00, 0x00, 0x00, 0x04, 0x00, 0x01, 0x02, 0x03, 0x6D, 0x66, 0xB9, 0x9D]
def fsp4 : List Byte := [0xEB, 0x90, 0x00, 0x0E, 0x6C, 0x03, 0x06, 0x66, 0x00, 0x04, 0x00, 0x00, 0x00, 0x06, 0x17, 0x8A, 0x21, 0xBC]
def rerr : List Byte := [0xEB, 0x90, 0x00, 0x07, 0x2C, 0x02, 0x01, 0x68, 0x1C, 0xEE, 0xF9]
def ferr : List Byte := [0xEB, 0x90, 0x00, 0x07, 0x2C, 0x03, 0x01, 0x71, 0x07, 0xDF, 0xB8]

/-- The same frames as operands. -/
def w4f : Frame := ⟨0x6C, 14, [0x00, 0x00, 0x00, 0x04, 0x00, 0x01, 0x02, 0x03], 0xB2EE8C59⟩
def r4f : Frame := ⟨0x6C, 10, [0x00, 0x00, 0x00, 0x04], 0x5E46CF00⟩
def f3f : Frame := ⟨0x6C, 13, [0x06, 0x66, 0x00, 0x03, 0x01, 0x02, 0x03], 0x88BD5544⟩
def rsp4f : Frame := ⟨0x6C, 14, [0x00, 0x00, 0x00, 0x04, 0x00, 0x01, 0x02, 0x03], 0x6D66B99D⟩
def fsp4f : Frame := ⟨0x6C, 14, [0x06, 0x66, 0x00, 0x04, 0x00, 0x00, 0x00, 0x06], 0x178A21BC⟩
def rerrf : Frame := ⟨0x2C, 7, [0x01], 0x681CEEF9⟩
def ferrf : Frame := ⟨0x2C, 7, [0x01], 0x7107DFB8⟩

/-- Everything the invariant asks of a state, as a Bool. -/
def invHolds (s : State) : Bool :=
  decide (configWf s.cfg ∧ RingInv s ∧ ParserInv s) && decide (ClassInv s.cfg s.readCls ∧ ClassInv s.cfg s.funcCls) &&
    decide (RegistryInv s ∧ HoldInv s ∧ CrcInv s ∧ MemInv s)

theorem inv_of_holds {s : State} (h : invHolds s = true) : Inv s := by
  simp only [invHolds, Bool.and_eq_true, decide_eq_true_eq] at h
  obtain ⟨⟨⟨h1, h2, h3⟩, h4, h5⟩, h6, h7, h8, h9⟩ := h
  exact ⟨h1, h2, h3, h4, h5, h6, h7, h8, h9⟩

/-- Rows 0x00 to 0x38 of the table R152 prints. -/
def crcRows0 : List U32 :=
  [0x00000000, 0x77073096, 0xEE0E612C, 0x990951BA, 0x076DC419, 0x706AF48F, 0xE963A535, 0x9E6495A3] ++
  [0x0EDB8832, 0x79DCB8A4, 0xE0D5E91E, 0x97D2D988, 0x09B64C2B, 0x7EB17CBD, 0xE7B82D07, 0x90BF1D91] ++
  [0x1DB71064, 0x6AB020F2, 0xF3B97148, 0x84BE41DE, 0x1ADAD47D, 0x6DDDE4EB, 0xF4D4B551, 0x83D385C7] ++
  [0x136C9856, 0x646BA8C0, 0xFD62F97A, 0x8A65C9EC, 0x14015C4F, 0x63066CD9, 0xFA0F3D63, 0x8D080DF5] ++
  [0x3B6E20C8, 0x4C69105E, 0xD56041E4, 0xA2677172, 0x3C03E4D1, 0x4B04D447, 0xD20D85FD, 0xA50AB56B] ++
  [0x35B5A8FA, 0x42B2986C, 0xDBBBC9D6, 0xACBCF940, 0x32D86CE3, 0x45DF5C75, 0xDCD60DCF, 0xABD13D59] ++
  [0x26D930AC, 0x51DE003A, 0xC8D75180, 0xBFD06116, 0x21B4F4B5, 0x56B3C423, 0xCFBA9599, 0xB8BDA50F] ++
  [0x2802B89E, 0x5F058808, 0xC60CD9B2, 0xB10BE924, 0x2F6F7C87, 0x58684C11, 0xC1611DAB, 0xB6662D3D]

/-- Rows 0x40 to 0x78 of the table R152 prints. -/
def crcRows1 : List U32 :=
  [0x76DC4190, 0x01DB7106, 0x98D220BC, 0xEFD5102A, 0x71B18589, 0x06B6B51F, 0x9FBFE4A5, 0xE8B8D433] ++
  [0x7807C9A2, 0x0F00F934, 0x9609A88E, 0xE10E9818, 0x7F6A0DBB, 0x086D3D2D, 0x91646C97, 0xE6635C01] ++
  [0x6B6B51F4, 0x1C6C6162, 0x856530D8, 0xF262004E, 0x6C0695ED, 0x1B01A57B, 0x8208F4C1, 0xF50FC457] ++
  [0x65B0D9C6, 0x12B7E950, 0x8BBEB8EA, 0xFCB9887C, 0x62DD1DDF, 0x15DA2D49, 0x8CD37CF3, 0xFBD44C65] ++
  [0x4DB26158, 0x3AB551CE, 0xA3BC0074, 0xD4BB30E2, 0x4ADFA541, 0x3DD895D7, 0xA4D1C46D, 0xD3D6F4FB] ++
  [0x4369E96A, 0x346ED9FC, 0xAD678846, 0xDA60B8D0, 0x44042D73, 0x33031DE5, 0xAA0A4C5F, 0xDD0D7CC9] ++
  [0x5005713C, 0x270241AA, 0xBE0B1010, 0xC90C2086, 0x5768B525, 0x206F85B3, 0xB966D409, 0xCE61E49F] ++
  [0x5EDEF90E, 0x29D9C998, 0xB0D09822, 0xC7D7A8B4, 0x59B33D17, 0x2EB40D81, 0xB7BD5C3B, 0xC0BA6CAD]

/-- Rows 0x80 to 0xB8 of the table R152 prints. -/
def crcRows2 : List U32 :=
  [0xEDB88320, 0x9ABFB3B6, 0x03B6E20C, 0x74B1D29A, 0xEAD54739, 0x9DD277AF, 0x04DB2615, 0x73DC1683] ++
  [0xE3630B12, 0x94643B84, 0x0D6D6A3E, 0x7A6A5AA8, 0xE40ECF0B, 0x9309FF9D, 0x0A00AE27, 0x7D079EB1] ++
  [0xF00F9344, 0x8708A3D2, 0x1E01F268, 0x6906C2FE, 0xF762575D, 0x806567CB, 0x196C3671, 0x6E6B06E7] ++
  [0xFED41B76, 0x89D32BE0, 0x10DA7A5A, 0x67DD4ACC, 0xF9B9DF6F, 0x8EBEEFF9, 0x17B7BE43, 0x60B08ED5] ++
  [0xD6D6A3E8, 0xA1D1937E, 0x38D8C2C4, 0x4FDFF252, 0xD1BB67F1, 0xA6BC5767, 0x3FB506DD, 0x48B2364B] ++
  [0xD80D2BDA, 0xAF0A1B4C, 0x36034AF6, 0x41047A60, 0xDF60EFC3, 0xA867DF55, 0x316E8EEF, 0x4669BE79] ++
  [0xCB61B38C, 0xBC66831A, 0x256FD2A0, 0x5268E236, 0xCC0C7795, 0xBB0B4703, 0x220216B9, 0x5505262F] ++
  [0xC5BA3BBE, 0xB2BD0B28, 0x2BB45A92, 0x5CB36A04, 0xC2D7FFA7, 0xB5D0CF31, 0x2CD99E8B, 0x5BDEAE1D]

/-- Rows 0xC0 to 0xF8 of the table R152 prints. -/
def crcRows3 : List U32 :=
  [0x9B64C2B0, 0xEC63F226, 0x756AA39C, 0x026D930A, 0x9C0906A9, 0xEB0E363F, 0x72076785, 0x05005713] ++
  [0x95BF4A82, 0xE2B87A14, 0x7BB12BAE, 0x0CB61B38, 0x92D28E9B, 0xE5D5BE0D, 0x7CDCEFB7, 0x0BDBDF21] ++
  [0x86D3D2D4, 0xF1D4E242, 0x68DDB3F8, 0x1FDA836E, 0x81BE16CD, 0xF6B9265B, 0x6FB077E1, 0x18B74777] ++
  [0x88085AE6, 0xFF0F6A70, 0x66063BCA, 0x11010B5C, 0x8F659EFF, 0xF862AE69, 0x616BFFD3, 0x166CCF45] ++
  [0xA00AE278, 0xD70DD2EE, 0x4E048354, 0x3903B3C2, 0xA7672661, 0xD06016F7, 0x4969474D, 0x3E6E77DB] ++
  [0xAED16A4A, 0xD9D65ADC, 0x40DF0B66, 0x37D83BF0, 0xA9BCAE53, 0xDEBB9EC5, 0x47B2CF7F, 0x30B5FFE9] ++
  [0xBDBDF21C, 0xCABAC28A, 0x53B39330, 0x24B4A3A6, 0xBAD03605, 0xCDD70693, 0x54DE5729, 0x23D967BF] ++
  [0xB3667A2E, 0xC4614AB8, 0x5D681B02, 0x2A6F2B94, 0xB40BBE37, 0xC30C8EA1, 0x5A05DF1B, 0x2D02EF8D]

/-! ### Ill-formed terms are refused -/

/-- A payload that the size field does not count (R92), in each frame. -/
theorem test_wf_frame_payload :
    ∀ mk ∈ [Instr.writeReq, .readReq, .funcReq, .readRsp, .funcRsp],
      (mk ⟨0x6C, 7, [1], 0⟩).wf = true ∧ (mk ⟨0x6C, 7, [], 0⟩).wf = false ∧ (mk ⟨0x6C, 5, [1], 0⟩).wf = false := by decide

/-- An error response is told by type[14:8] = 2C, a success response by anything else (R100). -/
theorem test_wf_frame_hi :
    (Instr.readRsp ⟨0x2C, 6, [], 0⟩).wf = false ∧ (Instr.funcRsp ⟨0x2C, 6, [], 0⟩).wf = false ∧
      (Instr.readErr ⟨0x6C, 6, [], 0⟩).wf = false ∧ (Instr.funcErr ⟨0x6C, 6, [], 0⟩).wf = false ∧
      (Instr.readErr ⟨0x2C, 7, [], 0⟩).wf = false ∧ (Instr.funcErr ⟨0x2C, 7, [], 0⟩).wf = false := by decide

/-- A number that does not fit 32 bits. -/
theorem test_wf_number :
    (Instr.rbGet 4294967296).wf = false ∧ (Instr.crcChecksum [] 4294967296).wf = false ∧
      (Instr.crcStore [] 4294967296).wf = false ∧ (Instr.crcVerify [] 4294967296).wf = false := by decide

/-- Data that the `u16` length of MS_WRITE cannot count (R261). -/
theorem test_wf_ms_write : (Instr.msWrite 0 (List.replicate 65536 0)).wf = false := by
  rw [Instr.wf, List.length_replicate]; decide

/-- A string that the 32-bit length cannot count. -/
theorem test_wf_string (b : List Byte) (h : b.length = 4294967296) :
    (Instr.rbPut b).wf = false ∧ (Instr.tx b).wf = false ∧ (Instr.encodeFrame 0 b).wf = false ∧
      (Instr.corrDeliver 0 b).wf = false ∧ (Instr.corrValidate .read b).wf = false ∧ (Instr.dispatch 0 b).wf = false ∧
      (Instr.writeRemoteMemory 0 0 b).wf = false ∧ (Instr.callRemoteFunction 0 b).wf = false ∧
      (Instr.crcChecksum b 0).wf = false ∧ (Instr.crcStore b 0).wf = false ∧ (Instr.crcVerify b 0).wf = false := by
  simp [Instr.wf, strWf, h]

/-! ### Words written out from the spec decode to their instruction -/

/-- The seven frames of R100 (spec/95_test_vectors.md 1.1). -/
theorem test_decode_frames :
    reads w4 (.writeReq w4f) = true ∧ reads r4 (.readReq r4f) = true ∧ reads f3 (.funcReq f3f) = true ∧
      reads rsp4 (.readRsp rsp4f) = true ∧ reads fsp4 (.funcRsp fsp4f) = true ∧ reads rerr (.readErr rerrf) = true ∧
      reads ferr (.funcErr ferrf) = true := by decide

/-- Types with other values of the bits the receiver does not look at (R101). -/
theorem test_decode_loose_types :
    reads [0xEB, 0x90, 0x00, 0x06, 0x80, 0x01, 0x01, 0x02, 0x03, 0x04] (.writeReq ⟨0x00, 6, [], 0x01020304⟩) = true ∧
      reads [0xEB, 0x90, 0x00, 0x06, 0xFF, 0x02, 0x01, 0x02, 0x03, 0x04] (.readReq ⟨0x7F, 6, [], 0x01020304⟩) = true ∧
      reads [0xEB, 0x90, 0x00, 0x06, 0x00, 0x02, 0x01, 0x02, 0x03, 0x04] (.readRsp ⟨0x00, 6, [], 0x01020304⟩) = true ∧
      reads [0xEB, 0x90, 0x00, 0x06, 0x7F, 0x03, 0x01, 0x02, 0x03, 0x04] (.funcRsp ⟨0x7F, 6, [], 0x01020304⟩) = true := by decide

/-- The host commands (R104). -/
theorem test_decode_commands :
    reads [0x40, 0x00, 0x00, 0x00, 0x01, 0x00, 0x00, 0x00, 0x02, 0x80, 0x00, 0x00, 0x03] (.initContext 1 2 0x80000003) = true ∧
      reads [0x41, 0x01, 0x02, 0x00, 0x03, 0x00, 0x00, 0x00, 0x03, 0x0A, 0x0B, 0x0C] (.writeRemoteMemory 0x0102 3 [0x0A, 0x0B, 0x0C]) = true ∧
      reads [0x42, 0x01, 0xFE, 0x00, 0x0A] (.readRemoteMemory 0x01FE 10) = true ∧
      reads [0x43, 0x06, 0x66, 0x00, 0x00, 0x00, 0x07] (.registerFunction 0x0666 7) = true ∧
      reads [0x44, 0xDE, 0xAD, 0x00, 0x00, 0x00, 0x01, 0x05] (.callRemoteFunction 0xDEAD [5]) = true ∧ reads [0x45] .listFunctions = true := by decide

/-- The unit operations of the ring, the CRC engine and the encoder (R106). -/
theorem test_decode_ring_crc :
    reads [0x10, 0x00, 0x00, 0x00, 0x02, 0x11, 0x22] (.rbPut [0x11, 0x22]) = true ∧ reads [0x11, 0x00, 0x00, 0x01, 0x05] (.rbGet 261) = true ∧
      reads [0x12] .rbSize = true ∧ reads [0x20] .crcInit = true ∧
      reads [0x21, 0x00, 0x00, 0x00, 0x01, 0x61, 0x00, 0x00, 0x00, 0x01] (.crcChecksum [0x61] 1) = true ∧
      reads [0x22, 0x00, 0x00, 0x00, 0x04, 0x01, 0x02, 0x03, 0x04, 0x00, 0x00, 0x00, 0x04] (.crcStore [1, 2, 3, 4] 4) = true ∧
      reads [0x23, 0x00, 0x00, 0x00, 0x04, 0x01, 0x02, 0x03, 0x04, 0x00, 0x00, 0x00, 0x04] (.crcVerify [1, 2, 3, 4] 4) = true ∧
      reads [0x30, 0xEC, 0x01, 0x00, 0x00, 0x00, 0x01, 0x09] (.encodeFrame 0xEC01 [9]) = true := by decide

/-- The unit operations of the parser, the Correlation Engine, the memory service, the dispatcher and the pump (R106). -/
theorem test_decode_units :
    reads [0x31] .parseSeekSync = true ∧ reads [0x32] .parseReadLength = true ∧ reads [0x33] .parseReadBody = true ∧
      reads [0x34] .parseRoute = true ∧ reads [0x50, 0x2C, 0x02, 0x00, 0x00, 0x00, 0x01, 0x01] (.corrDeliver 0x2C02 [1]) = true ∧
      reads [0x51, 0x00] (.corrWait .read) = true ∧ reads [0x51, 0x01] (.corrWait .func) = true ∧ reads [0x52] .corrTick = true ∧
      reads [0x53, 0x01, 0x00, 0x00, 0x00, 0x02, 0x2C, 0x03] (.corrValidate .func [0x2C, 3]) = true ∧
      reads [0x60, 0x01, 0xFE, 0x00, 0x02, 0x0A, 0x0B] (.msWrite 0x01FE [0x0A, 0x0B]) = true ∧
      reads [0x61, 0x02, 0x00, 0x00, 0x0A] (.msRead 0x0200 10) = true ∧
      reads [0x70, 0x06, 0x66, 0x00, 0x00, 0x00, 0x01, 0x02] (.dispatch 0x0666 [2]) = true ∧ reads [0x80] .rxStep = true ∧
      reads [0x81, 0x00, 0x00, 0x00, 0x02, 0xEB, 0x90] (.tx [0xEB, 0x90]) = true ∧ reads [0x82] .coopStep = true := by decide

/-- Rejected by name: no row of the table (R102), no sync word (R91), the first bytes of a frame, no select
code, too few bytes, no class. -/
theorem test_decode_errors :
    readsError [0xEB, 0x90, 0x00, 0x06, 0xEC, 0x04, 0x01, 0x02, 0x03, 0x04] (.unknownType 0xEC04 ⟨0x6C, 6, [], 0x01020304⟩ []) = true ∧
      readsError [0xEB, 0x90, 0x00, 0x06, 0x6C, 0x01, 0x01, 0x02, 0x03, 0x04] (.unknownType 0x6C01 ⟨0x6C, 6, [], 0x01020304⟩ []) = true ∧
      readsError [0xEB, 0x91, 0x00, 0x06, 0xEC, 0x01, 0x01, 0x02, 0x03, 0x04] (.falseStart [0xEB, 0x91, 0x00, 0x06] [0xEC, 0x01, 0x01, 0x02, 0x03, 0x04]) = true ∧
      readsError [0xEB, 0x90, 0x00] (.truncatedFrame [0xEB, 0x90, 0x00]) = true ∧ readsError [0x99, 0x01] (.unknownSelect 0x99 [1]) = true ∧
      readsError [0x10, 0x00, 0x00, 0x00, 0x02, 0x11] .truncated = true ∧ readsError [0x51, 0x02] (.badClass 2) = true ∧
      readsError [] .empty = true := by decide

/-- The table's words as spec/opcode_table.json prints them, frames as 48-bit numbers with the first byte on top. -/
theorem test_table_words :
    decodeTableWord 48 0xEB900000EC01 = some (.writeReq ⟨0x6C, 0, [], 0⟩) ∧
      decodeTableWord 48 0xEB9000002C03 = some (.funcErr ⟨0x2C, 0, [], 0⟩) ∧
      decodeTableWord 8 0x40 = some (.initContext 0 0 0) ∧ decodeTableWord 8 0x82 = some .coopStep := by decide

/-! ### The CRC engine, the encoder and the ring: spec/95_test_vectors.md 2.1, 2.2, 2.3 -/

theorem test_crc_table : crcTableGen = crcRows0 ++ crcRows1 ++ crcRows2 ++ crcRows3 := by decide +kernel

theorem test_crcInit_sets : nextIs (exec .crcInit State.powerUp) (fun t =>
    decide (t.crcInit = true) && decide (t.crcTable[1]? = some 0x77073096)) = true := by decide +kernel

theorem test_crcChecksum_check_value :
    nextIs (exec (.crcChecksum [0x31, 0x32, 0x33, 0x34, 0x35, 0x36, 0x37, 0x38, 0x39] 9) st) (fun t => decide (t.res = .okWord 0xCBF43926)) = true := by
  decide +kernel

theorem test_crcChecksum_prefix :
    nextIs (exec (.crcChecksum [0x31, 0x32, 0x33] 2) st) (fun t => decide (t.res = .okWord 0x4F5344CD)) = true := by decide +kernel

theorem test_crcStore_trailer :
    nextIs (exec (.crcStore (w4.take 14 ++ [0xAA, 0xBB, 0xCC, 0xDD]) 18) st) (fun t => decide (t.res = .okBytes w4)) = true := by
  decide +kernel

theorem test_crcStore_shortest :
    nextIs (exec (.crcStore [0x01, 0x02, 0x03, 0x04] 4) st) (fun t => decide (t.res = .okBytes [0x00, 0x00, 0x00, 0x00])) = true := by
  decide +kernel

theorem test_crcVerify_good :
    nextIs (exec (.crcVerify [0xEB, 0x90, 0x00, 0x06, 0xEC, 0x01, 0x9D, 0x06, 0x9D, 0x36] 10) st) (fun t => decide (t.res = .okBool true)) = true := by
  decide +kernel

theorem test_crcVerify_bad :
    nextIs (exec (.crcVerify [0xEB, 0x90, 0x00, 0x06, 0xEC, 0x01, 0x9D, 0x06, 0x9D, 0x37] 10) st) (fun t => decide (t.res = .okBool false)) = true := by
  decide +kernel

theorem test_encodeFrame_shortest :
    nextIs (exec (.encodeFrame 0xEC01 []) st) (fun t => decide (t.res = .okBytes [0xEB, 0x90, 0x00, 0x06, 0xEC, 0x01, 0x9D, 0x06, 0x9D, 0x36])) = true := by
  decide +kernel

theorem test_encodeFrame_limit :
    nextIs (exec (.encodeFrame 0xEC01 (List.replicate 30 0)) st) (fun t => decide (t.res = .tooLarge)) = true ∧
      nextIs (exec (.encodeFrame 0xEC01 (List.replicate 29 0)) st) (fun t => decide (t.res ≠ .tooLarge)) = true := by
  decide +kernel

/-- The ring of 8 after steps 1 to 5 of 2.1: `66 77` live. -/
def ring8 : State :=
  { st with cfg := { cfg with bufSize := 8, rxChunkMax := 3 }, rbuf := [0x11, 0x22, 0x33, 0x44, 0x55, 0x66, 0x77, 0x00], rin := 7, rout := 5 }

theorem test_rbPut_wraps :
    nextIs (exec (.rbPut [0x88, 0x99, 0xAA, 0xBB]) ring8) (fun t => decide (t.res = .okCount 4) && decide (t.rin = 3) &&
      decide (t.rbuf = [0x99, 0xAA, 0xBB, 0x44, 0x55, 0x66, 0x77, 0x88])) = true := by decide +kernel

theorem test_rbPut_all_or_nothing :
    nextIs (exec (.rbPut [0x88, 0x99, 0xAA, 0xBB, 0xCC, 0xDD]) ring8) (fun t => decide (t = { ring8 with res := .capacityExceeded })) = true := by
  decide +kernel

theorem test_rbGet_wraps :
    nextIs (exec (.rbGet 10) { ring8 with rbuf := [0x99, 0xAA, 0xBB, 0xCC, 0x55, 0x66, 0x77, 0x88], rin := 4 }) (fun t =>
      decide (t.res = .okBytes [0x66, 0x77, 0x88, 0x99, 0xAA, 0xBB, 0xCC]) && decide (t.rout = 4)) = true := by decide +kernel

theorem test_rbGet_empty :
    nextIs (exec (.rbGet 1) st) (fun t => decide (t = { st with res := .okBytes [] })) = true := by decide +kernel

theorem test_rbSize_wrapped : nextIs (exec .rbSize { ring8 with rin := 3 }) (fun t => decide (t.res = .okCount 6)) = true := by
  decide +kernel

/-- A second producer and a second consumer are refused (R136, U2); the host agent is both in COOPERATIVE (R307). -/
theorem test_ring_second_caller :
    refusedAs (exec (.rbPut [1]) { st with ringCaller := some .parser }) (.secondProducer .parser) = true ∧
      refusedAs (exec (.rbGet 1) { st with ringCaller := some .rx }) (.secondConsumer .rx) = true ∧
      nextIs (exec (.rbGet 1) { coop with ringCaller := some .host }) (fun t => decide (t.res = .okBytes [])) = true ∧
      nextIs (step { st with port := [0xF5, 0x02] }) (fun t => decide (t.ringCaller = some .parser)) = true := by decide +kernel

/-! ### The parser: spec/95_test_vectors.md 2.4 -/

theorem test_parseSeekSync_noise :
    nextIs (exec .parseSeekSync (holding [0x55, 0xEB])) (fun t => decide (t.log = [.badSync1 0x55]) && decide (t.rout = 1) &&
      decide (t.ps = .seekSync)) = true := by decide +kernel

theorem test_parseSeekSync_sync :
    nextIs (exec .parseSeekSync (holding w4)) (fun t => decide (t.acnt = 1) && decide (t.ps = .readLength) &&
      decide (t.abuf.take 1 = [0xEB])) = true := by decide +kernel

/-- The parser in READ_LENGTH after `EB`, with `b` in the ring. -/
def afterSync (b : List Byte) : State :=
  { assembledIn .readLength [0xEB] with rbuf := b ++ List.replicate (32 - b.length) 0, rin := b.length, asize := 0 }

theorem test_parseReadLength_accepts :
    nextIs (exec .parseReadLength (afterSync [0x90, 0x00, 0x23, 0xEC])) (fun t => decide (t.ps = .readBody) && decide (t.asize = 35) &&
      decide (t.acnt = 4) && decide (t.rout = 3)) = true := by decide +kernel

theorem test_parseReadLength_rejects :
    nextIs (exec .parseReadLength (afterSync [0x90, 0x00, 0x24])) (fun t => decide (t.log = [.oversize 36]) && decide (t.acnt = 0)) =
        true ∧
      nextIs (exec .parseReadLength (afterSync [0x90, 0x00, 0x05])) (fun t => decide (t.log = [.undersize 5]) &&
        decide (t.ps = .seekSync)) = true ∧
      nextIs (exec .parseReadLength (afterSync [0x12, 0x34, 0x56])) (fun t => decide (t.log = [.badSync2 0x12]) && decide (t.rout = 3)) =
        true := by decide +kernel

theorem test_parseReadBody_partial :
    nextIs (exec .parseReadBody { assembledIn .readBody (w4.take 4) with rbuf := w4.drop 4 ++ List.replicate 18 0, rin := 5 })
      (fun t => decide (t.acnt = 9) && decide (t.ps = .readBody)) = true := by decide +kernel

theorem test_parseReadBody_takes_its_own :
    nextIs (exec .parseReadBody { assembledIn .readBody (w4.take 4) with rbuf := w4.drop 4 ++ List.replicate 18 0xEB, rin := 20 })
      (fun t => decide (t.abuf.take 18 = w4) && decide (t.ps = .route) && decide (t.rout = 14)) = true := by decide +kernel

theorem test_parseRoute_crc_fail :
    nextIs (exec .parseRoute (assembledIn .route [0xEB, 0x90, 0x00, 0x0E, 0xEC, 0x01, 0x00, 0x00, 0x00, 0x04, 0x00, 0x01, 0xFD, 0x03, 0xB2, 0xEE, 0x8C, 0x59])) (fun t =>
      decide (t.log = [.crcFail 0xB2EE8C59 0x21CA712B]) && decide (t.mem = st.mem) && decide (t.ps = .seekSync)) = true := by
  decide +kernel

theorem test_parseRoute_write :
    nextIs (exec .parseRoute (assembledIn .route w4)) (fun t =>
      decide (t.mem.take 5 = [(0, 0), (1, 1), (2, 2), (3, 3), (4, 0xA5)]) && decide (t.txq = []) && decide (t.acnt = 0)) =
      true := by decide +kernel

/-- CRC_INIT and then INITIALIZE lead from power-up to the reset state (R371). -/
theorem test_boot_is_reset :
    andThen (exec .crcInit State.powerUp) (exec (.initContext 0 0 0)) = .next State.reset := by rfl

/-! ### Frames received whole: spec/95_test_vectors.md 2.4 to 2.7, P2 -/

theorem test_writeReq_type_bits :
    nextIs (exec (.writeReq ⟨0x00, 14, w4f.payload, 0x793568A7⟩) st) (fun t =>
      decide (t.mem.take 4 = [(0, 0), (1, 1), (2, 2), (3, 3)]) && decide (t.log = [])) = true := by decide +kernel

theorem test_writeReq_overflow :
    nextIs (exec (.writeReq ⟨0x6C, 14, [0x01, 0xFE, 0x00, 0x04, 0x0A, 0x0B, 0x0C, 0x0D], 0x5114A878⟩) { st with cfg := { cfg with memSize := 512 } })
      (fun t => decide (t.mem.drop 16 = [(510, 0x0A), (511, 0x0B)]) && decide (t.log = [.writeOverflow 0x01FE 4 2]) &&
        decide (t.res = .addressOverflow) && decide (t.txq = [])) = true := by decide +kernel

theorem test_readReq_reads :
    nextIs (exec (.readReq r4f) st) (fun t =>
      decide (t.txq = [0xEB, 0x90, 0x00, 0x0E, 0x6C, 0x02, 0x00, 0x00, 0x00, 0x04, 0xA5, 0xA5, 0xA5, 0xA5, 0x17, 0x51, 0x89, 0xE5])) = true := by decide +kernel

/-- A frame is served behind the bytes that wait in `rxq`: the write first, then the read (R71, R74). -/
theorem test_readReq_is_last :
    nextIs (exec (.readReq r4f) { st with rxq := w4 }) (fun t => decide (t.txq = rsp4) && decide (t.rxq = [])) = true := by
  decide +kernel

/-- The other bytes a port may start with: a false start (R193, R200), and the first bytes of a frame. -/
theorem test_port_falseStart :
    nextIs (step { st with port := [0xEB, 0x41, 0x00, 0x06] ++ r4 }) (fun t => decide (t.log = [.badSync2 0x41]) && decide (t.port = r4) &&
      decide (t.ps = .seekSync)) = true := by decide +kernel

theorem test_port_truncatedFrame :
    nextIs (step { st with port := w4.take 7 }) (fun t => decide (t.ps = .readBody) && decide (t.acnt = 7)) = true := by
  decide +kernel

theorem test_funcReq_known :
    nextIs (exec (.funcReq f3f) { oneFunction with cbScript := [.returns 4 [0x00, 0x00, 0x00, 0x06]] }) (fun t => decide (t.txq = fsp4)) =
      true := by decide +kernel

theorem test_funcReq_unknown :
    nextIs (exec (.funcReq ⟨0x6C, 10, [0xDE, 0xAD, 0x00, 0x00], 0x73602230⟩) oneFunction) (fun t => decide (t.txq = ferr) &&
      decide (t.log = [.unknownFunction 0xDEAD])) = true := by decide +kernel

theorem test_readRsp_slot :
    nextIs (exec (.readRsp rsp4f) st) (fun t => decide (t.readCls = signalled .idle [0x6C, 0x02, 0x00, 0x00, 0x00, 0x04, 0x00, 0x01, 0x02, 0x03]) &&
      decide (t.funcCls = st.funcCls)) = true := by decide +kernel

theorem test_funcRsp_slot :
    nextIs (exec (.funcRsp fsp4f) st) (fun t => decide (t.funcCls = signalled .idle [0x6C, 0x03, 0x06, 0x66, 0x00, 0x04, 0x00, 0x00, 0x00, 0x06]) &&
      decide (t.readCls = st.readCls)) = true := by decide +kernel

/-- A chunk of eight bytes is in the ring when the callback of the frame before never returns: it stays there (R286), and the
rest stays in `rxq`. -/
theorem test_readRsp_behind_a_stuck_parser :
    nextIs (exec (.readRsp rsp4f) { oneFunction with rxq := f3, cbScript := [.neverReturns] }) (fun t =>
      t.parserStuck && decide (ringLive t = rsp4.take 7) && decide (t.rxq = rsp4.drop 7) && decide (t.ps = .route)) = true := by
  decide +kernel

/-- The bytes pass through the ring: its ends go on by the length of the frame (P3 ends with `rin = rout = 42`). -/
theorem test_readErr_ring_ends :
    nextIs (exec (.readErr rerrf) { st with rin := 30, rout := 30 }) (fun t => decide (t.rin = 9) && decide (t.rout = 9)) =
      true := by decide +kernel

/-- With `SCHED = COOPERATIVE` a frame waits in `rxq` for the host agent (R307, R389). -/
theorem test_funcErr_waits_for_the_host :
    nextIs (exec (.funcErr ferrf) coop) (fun t => decide (t = { coop with rxq := ferr, res := .hold })) = true := by
  decide +kernel

theorem test_readErr_slot :
    nextIs (exec (.readErr rerrf) st) (fun t => decide (t.readCls = signalled .idle [0x2C, 0x02, 0x01])) = true := by decide +kernel

theorem test_funcErr_slot :
    nextIs (exec (.funcErr ferrf) st) (fun t => decide (t.funcCls = signalled .idle [0x2C, 0x03, 0x01])) = true := by decide +kernel

/-! ### The calls and the Correlation Engine: spec/95_test_vectors.md 1.1, 2.5, P4 -/

theorem test_initContext_refused_twice : refusedAs (exec (.initContext 1 2 3) st) .alreadyInitialized = true := by
  decide +kernel

theorem test_initContext_clears :
    nextIs (exec (.initContext 1 2 3) { st with inited := false, reg := [⟨1, 1⟩], rin := 3, log := [.badSync1 0] }) (fun t =>
      decide (t.writeFn = 3) && decide (t.reg = []) && decide (t.rin = 0) && decide (t.log = []) && t.inited &&
      decide (t.mem = st.mem)) = true := by decide +kernel

theorem test_writeRemoteMemory_frame :
    nextIs (exec (.writeRemoteMemory 0 4 [0x00, 0x01, 0x02, 0x03]) st) (fun t => decide (t = { st with txq := w4, res := .ok })) = true := by
  decide +kernel

theorem test_readRemoteMemory_frame :
    nextIs (exec (.readRemoteMemory 0x0010 4) { st with readCls := signalled .idle [0x6C, 0x02] }) (fun t =>
      decide (t.txq = [0xEB, 0x90, 0x00, 0x0A, 0xEC, 0x02, 0x00, 0x10, 0x00, 0x04, 0x42, 0x60, 0x6C, 0x70]) && decide (t.readCls.echo = 0x0010) &&
      decide (t.readCls.tcnt = 3) && t.readCls.pend) = true := by decide +kernel

theorem test_callRemoteFunction_frame :
    nextIs (exec (.callRemoteFunction 0x0666 [0x01, 0x02, 0x03]) st) (fun t => decide (t.txq = f3) &&
      decide (t.funcCls.cstate = .waiting) && decide (t.readCls.cstate = .idle)) = true := by decide +kernel

theorem test_corrDeliver_overwrites :
    nextIs (exec (.corrDeliver 0x0003 [9]) { st with funcCls := signalled .waiting [0x6C, 0x03] }) (fun t =>
      decide (t.funcCls = signalled .waiting [0x00, 0x03, 0x09])) = true := by decide +kernel

theorem test_corrDeliver_long_body_signals :
    nextIs (exec (.corrDeliver 0x6C02 (List.replicate 30 0)) st) (fun t =>
      t.readCls.pend && t.readCls.slotValid && !t.funcCls.pend && decide (t.draws = 1) && decide (t.log = [])) = true := by
  decide +kernel

theorem test_corrWait_response_before_timeout :
    nextIs (exec (.corrWait .read) { st with readCls := signalled .waiting [0x6C, 0x02, 0x00, 0x00, 0x00, 0x04, 0x00, 0x01, 0x02, 0x03] }) (fun t =>
      decide (t.res = .okData 4 [0x00, 0x01, 0x02, 0x03]) && decide (t.readCls.pend = false)) = true := by decide +kernel

theorem test_corrWait_timeout :
    nextIs (exec (.corrWait .read) (waiting 0)) (fun t => decide (t.res = .timeout) && decide (t.readCls = { waitingFor 0 0 with cstate := .idle })) =
      true := by decide +kernel

theorem test_corrTick_floor :
    nextIs (exec .corrTick (waiting 0)) (fun t => decide (t = { waiting 0 with res := .done })) = true ∧
      nextIs (exec .corrTick (waiting 3)) (fun t => decide (t = { waiting 2 with res := .done })) = true := by decide +kernel

theorem test_corrValidate_echo_then_length :
    nextIs (exec (.corrValidate .read [0x6C, 0x02, 0x00, 0x01, 0x00, 0x05, 0x00]) (waiting 3)) (fun t => decide (t.res = .echoMismatch)) = true ∧
      nextIs (exec (.corrValidate .read [0x6C, 0x02, 0x00, 0x00, 0x00, 0x05, 0x00]) (waiting 3)) (fun t => decide (t.res = .lengthMismatch)) = true := by
  decide +kernel

theorem test_corrValidate_types :
    nextIs (exec (.corrValidate .func [0x2C, 0x03, 0x01, 0x02]) st) (fun t => decide (t.res = .peerError 1)) = true ∧
      nextIs (exec (.corrValidate .func [0x2C, 0x03]) st) (fun t => decide (t.res = .shortResponse)) = true ∧
      nextIs (exec (.corrValidate .func [0x6C, 0x02, 0x00, 0x00, 0x00, 0x00]) st) (fun t => decide (t.res = .unexpectedType)) = true := by
  decide +kernel

/-! ### Memory service, registry, pump: spec/95_test_vectors.md 2.6, 2.7, P5, P6 -/

theorem test_msWrite_past_the_end :
    nextIs (exec (.msWrite 16 [1]) st) (fun t => decide (t.mem = st.mem) && decide (t.log = [.writeOverflow 16 1 0])) = true ∧
      nextIs (exec (.msWrite 16 []) st) (fun t => decide (t = { st with res := .ok })) = true := by decide +kernel

theorem test_msRead_clamps :
    nextIs (exec (.msRead 0x01FE 10) { st with cfg := { cfg with memSize := 512 }, mem := [(510, 0xAA), (511, 0xBB)] })
      (fun t => decide (t.txq = [0xEB, 0x90, 0x00, 0x0C, 0x6C, 0x02, 0x01, 0xFE, 0x00, 0x02, 0xAA, 0xBB, 0x5A, 0xAD, 0x10, 0x84])) = true := by decide +kernel

theorem test_msRead_illegal_address :
    nextIs (exec (.msRead 0x0200 10) { st with cfg := { cfg with memSize := 512 } }) (fun t => decide (t.txq = rerr) &&
      decide (t.log = [.rangeError 0x0200]) && decide (t.res = .addressRange)) = true := by decide +kernel

theorem test_registerFunction_order :
    nextIs (exec (.registerFunction 0x0777 0) oneFunction) (fun t => decide (t.res = .invalidParam)) = true ∧
      nextIs (exec (.registerFunction 0x0888 9) { st with reg := [⟨0x0666, 7⟩, ⟨0x0777, 8⟩] }) (fun t =>
        decide (t.res = .allocFailure) && decide (t.reg.length = 2)) = true ∧
      nextIs (exec (.registerFunction 0x0666 9) { st with reg := [⟨0x0666, 7⟩, ⟨0x0777, 8⟩] }) (fun t =>
        decide (t.res = .duplicateCode)) = true := by decide +kernel

theorem test_registerFunction_adds :
    nextIs (exec (.registerFunction 0x0777 8) oneFunction) (fun t =>
      decide (t = { st with reg := [⟨0x0666, 7⟩, ⟨0x0777, 8⟩], res := .ok })) = true := by decide +kernel

theorem test_listFunctions_empty :
    nextIs (exec .listFunctions st) (fun t => decide (t.res = .okCodes []) && decide (t.draws = 1)) = true := by decide +kernel

theorem test_dispatch_empty_return :
    nextIs (exec (.dispatch 0x0777 []) { st with reg := [⟨0x0777, 7⟩], cbScript := [.returns 0 []] }) (fun t =>
      decide (t.txq = [0xEB, 0x90, 0x00, 0x0A, 0x6C, 0x03, 0x07, 0x77, 0x00, 0x00, 0xB6, 0x92, 0x70, 0x1D])) = true := by decide +kernel

theorem test_rxStep_full_ring :
    nextIs (exec .rxStep { ring8 with rin := 3, rout := 5, rxq := [0x0A, 0xEC, 0x02, 0x00], readScript := [3] }) (fun t =>
        decide (t.rxHold = [0x0A, 0xEC, 0x02]) && decide (t.rxq = [0]) && decide (t.rin = 3) && decide (t.log = [])) = true ∧
      nextIs (exec .rxStep { ring8 with
          cfg := { ring8.cfg with rxOnFull := .drop }, rin := 3, rout := 5, rxq := [0x0A, 0xEC, 0x02], readScript := [7] })
        (fun t => decide (t.rxHold = []) && decide (t.rxq = []) && decide (t.log = [.rxOverrun 3])) = true := by decide +kernel

/-- R307, R389: in the cooperative mode no agent step outside COOP_STEP moves a byte. -/
theorem test_rxStep_cooperative_holds :
    nextIs (exec .rxStep { coop with rxq := r4, readScript := [3] }) (fun t =>
        decide (t.rxq = r4) && decide (t.rin = 0) && decide (t.readScript = [3]) && decide (t.res = .hold)) = true ∧
      nextIs (exec .parseSeekSync ((holding w4).scheduled .cooperative)) (fun t =>
        decide (t.rout = 0) && decide (t.ps = .seekSync) && decide (t.res = .hold)) = true ∧
      nextIs (exec .parseRoute ((assembledIn .route w4).scheduled .cooperative)) (fun t =>
        decide (t.ps = .route) && decide (t.mem = st.mem) && decide (t.res = .hold)) = true := by decide +kernel

theorem test_tx_appends : nextIs (exec (.tx [2]) { st with txq := [1] }) (fun t => decide (t.txq = [1, 2])) = true := by
  decide +kernel

theorem test_coopStep_serves_one_frame :
    nextIs (exec .coopStep { coop with
        cfg := { coop.cfg with bufSize := 64, rxChunkMax := 32 }, rbuf := List.replicate 64 0, rxq := r4 ++ rsp4
        readScript := [32], readCls := (waiting 3).readCls }) (fun t =>
      decide (t.res = .frame) && decide (t.txq.length = 18) && decide (t.rin = 32) && decide (t.rout = 14) &&
      decide (t.readCls.pend = false)) = true := by decide +kernel

theorem test_coopStep_no_frame :
    nextIs (exec .coopStep { coop with readCls := (waiting 0).readCls }) (fun t => decide (t.res = .noFrame)) = true := by
  decide +kernel

/-! ### Witnesses: a state and operands that meet the hypotheses of each obligation, clause by clause -/

theorem witness_running : Running st ∧ ParserRuns st ∧ InStep st ∧ RingInv st ∧ Engine st ∧ Receiving st := by decide +kernel

theorem witness_inv : Inv st := inv_of_holds (by decide +kernel)

theorem witness_decodeEncode :
    (Instr.msWrite 0xFFFF [0x01]).wf = true ∧ (Instr.rbGet 4294967295).wf = true ∧ (Instr.readErr rerrf).wf = true ∧
      (Instr.writeReq ⟨0, 0, [], 0⟩).wf = true := by decide

theorem witness_decodedIsEncoded : decode (0x11 :: [0x00, 0x00, 0x00, 0x05, 0x99]) = .ok (.rbGet 5, [0x99]) := by rfl

theorem witness_stepRunsDecoded : decode { st with port := [0x12, 0x20] }.port = .ok (.rbSize, [0x20]) := by rfl

/-- The state with a frame of the illegal type `EC04` on its port. -/
def illegal : State := { st with port := [0xEB, 0x90, 0x00, 0x0E, 0xEC, 0x04, 0x00, 0x00, 0x00, 0x04, 0x00, 0x01, 0x02, 0x03, 0xF8, 0x79, 0xC9, 0x16] }

theorem witness_illegalTypeDropped :
    Receiving illegal ∧ GoodFrame illegal 0xEC04 ⟨0x6C, 14, w4f.payload, 0xF879C916⟩ ∧
      readsError illegal.port (.unknownType 0xEC04 ⟨0x6C, 14, w4f.payload, 0xF879C916⟩ []) = true := by decide +kernel

/-- A false start on the port, a frame behind it. -/
theorem witness_falseStart :
    let s : State := { st with port := 0xEB :: 0xEB :: 0x90 :: 0x00 :: r4 }
    Receiving s ∧ (0xEB : Byte) ≠ 0x90 ∧ s.port = 0xEB :: 0xEB :: 0x90 :: 0x00 :: r4 := by decide +kernel

theorem witness_invStep : Inv { oneFunction with port := [0x12] } ∧
    step { oneFunction with port := [0x12] } = .next { oneFunction with res := .okCount 0 } :=
  ⟨inv_of_holds (by decide +kernel), by rfl⟩

theorem witness_contextOnlyGrows :
    nextIs (step { oneFunction with port := [0x12] }) (fun _ => true) = true ∧ oneFunction.inited = true ∧ lookup 0x0666 oneFunction.reg = some 7 := by decide +kernel

theorem witness_onlyRoutingWritesMemory :
    nextIs (exec .rbSize st) (fun _ => true) = true ∧ mayWriteMemory .rbSize = false := by decide +kernel

theorem witness_transmitsWholeFrames : Inv st ∧ nextIs (exec (.msRead 0 4) st) (fun t => decide (t.txq.length = 18)) = true :=
  ⟨witness_inv, by decide +kernel⟩

theorem witness_hostReadsOneByte :
    st.inited = true ∧ (15#16).toNat < st.cfg.memSize ∧ st.cfg.memSize ≤ (16#16).toNat ∧
      nextIs (step { st with port := 0xF0 :: (be16 15 ++ []) }) (fun t => decide (t.res = .okBytes [0xA5])) = true := by
  decide +kernel

/-- RB_PUT at the boundary: 31 bytes fit an empty ring of 32, 32 do not. -/
theorem witness_rbPut :
    ProducerCalls st ∧ RingInv st ∧ (List.replicate 31 (0 : Byte)).length + ringOcc st < st.cfg.bufSize ∧
      st.cfg.bufSize ≤ (List.replicate 32 (0 : Byte)).length + ringOcc st := by decide +kernel

theorem witness_rbGet_rbSize : st.inited = true ∧ st.parserStuck = false ∧ ConsumerCalls st ∧
    ConsumerCalls { st with ringCaller := some .parser } ∧ RingInv ring8 ∧ ringOcc ring8 = 2 := by
  decide +kernel

theorem witness_ringIsFifo :
    ring8.inited = true ∧ ring8.parserStuck = false ∧ ProducerCalls ring8 ∧ ConsumerCalls ring8 ∧ RingInv ring8 ∧
      [0x01, 0x02, 0x03, 0x04, 0x05].length + ringOcc ring8 < ring8.cfg.bufSize := by
  decide +kernel

theorem witness_checksum : Engine st ∧ 1 ≤ ([0x61] : List Byte).length ∧ 0 ≤ ([] : List Byte).length := by decide +kernel

theorem witness_crcTrailer : Engine st ∧ 4 ≤ 4 ∧ 4 ≤ [0x01, 0x02, 0x03, 0x04].length ∧ 18 ≤ w4.length := by decide +kernel

theorem witness_crcPreconditions :
    State.powerUp.crcInit = false ∧ st.crcInit = true ∧ ([] : List Byte).length < 1 ∧ 3 < 4 ∧ [0x01, 0x02, 0x03].length < 4 := by
  decide +kernel

theorem witness_encode : Engine st ∧ st.cfg.maxFrame ≤ (List.replicate 30 (0 : Byte)).length + 10 ∧ Fits st (List.replicate 29 0) := by
  decide +kernel

theorem witness_frameRoundTrip :
    Running (holding (w4 ++ [7])) ∧ ParserRuns (holding (w4 ++ [7])) ∧ (holding (w4 ++ [7])).ps = .seekSync ∧
      Fits (holding (w4 ++ [7])) w4f.payload ∧ ringLive (holding (w4 ++ [7])) = wireFrame 0xEC01 w4f.payload ++ [7] := by
  decide +kernel

theorem witness_frameRoundTrip_inv : Inv (holding (w4 ++ [7])) := inv_of_holds (by decide +kernel)

/-- A frame of 39 bytes, longer than the ring of 32, in three pieces. -/
theorem witness_frameRoundTrip_pieces :
    let f := wireFrame 0xEC01 (List.replicate 29 7)
    let pieces := [f.take 1, (f.drop 1).take 31, f.drop 32]
    Running st ∧ ParserRuns st ∧ st.ps = .seekSync ∧ Fits st (List.replicate 29 7) ∧ ProducerCalls st ∧ st.rin = st.rout ∧
      f.length = 39 ∧ (∀ p ∈ pieces, p.length < st.cfg.bufSize) ∧ pieces.flatten = f := by decide +kernel

theorem witness_seekSync :
    st.inited = true ∧ ParserRuns st ∧ invHolds st = true ∧ st.ps = .seekSync ∧ ringLive st = [] ∧
      (holding [0x55]).inited = true ∧ ParserRuns (holding [0x55]) ∧ (holding [0x55]).ps = .seekSync ∧ ringLive (holding [0x55]) = 0x55 :: [] ∧ (0x55 : Byte) ≠ 0xEB ∧
      ringLive (holding [0xEB, 0x90]) = 0xEB :: [0x90] ∧ invHolds (holding [0xEB, 0x90]) = true ∧ invHolds (holding [0x55]) = true := by decide +kernel

/-- READ_LENGTH: nothing there; two bytes; a bad second byte; sizes 36 and 35 around `MAX_FRAME - 4`; sizes 5 and 6. -/
theorem witness_readLength :
    (afterSync []).inited = true ∧ ParserRuns (afterSync []) ∧ invHolds (afterSync []) = true ∧ (afterSync []).ps = .readLength ∧ (ringLive (afterSync [])).take (4 - 1) = [] ∧
      (ringLive (afterSync [0x90, 0x00])).take 3 = [0x90, 0x00] ∧ invHolds (afterSync [0x12, 0x34, 0x56]) = true ∧
      (ringLive (afterSync [0x12, 0x34, 0x56])).take 3 = [0x12, 0x34, 0x56] ∧
      (afterSync []).cfg.maxFrame ≤ (u16be [0xEB, 0x90, 0x00, 0x24] 2).toNat + 4 ∧
      (u16be [0xEB, 0x90, 0x00, 0x23] 2).toNat + 4 < (afterSync []).cfg.maxFrame ∧ (u16be [0xEB, 0x90, 0x00, 0x05] 2).toNat < 6 ∧
      6 ≤ (u16be [0xEB, 0x90, 0x00, 0x06] 2).toNat := by decide +kernel

/-- READ_BODY: nothing there, one byte, and the rest of the frame with another behind it. -/
def inBody (b : List Byte) : State :=
  { assembledIn .readBody (r4.take 4) with rbuf := b ++ List.replicate (32 - b.length) 0, rin := b.length }

theorem witness_readBody :
    (inBody []).inited = true ∧ ParserRuns (inBody []) ∧ invHolds (inBody []) = true ∧ invHolds (inBody (r4.drop 4 ++ r4)) = true ∧ (inBody []).ps = .readBody ∧ ringLive (inBody []) = [] ∧
      ringLive (inBody [1]) = [1] ∧
      (ringLive (inBody (r4.drop 4 ++ r4))).take ((inBody []).asize.toNat + 4 - (inBody []).acnt) = r4.drop 4 := by
  decide +kernel

/-- A ROUTE state whose trailer is good. -/
abbrev GoodRoute (s : State) : Prop :=
  Running s ∧ ParserRuns s ∧ s.ps = .route ∧ u32be s.abuf s.asize.toNat = crcBitwise (s.abuf.take s.asize.toNat)

/-- The frame of `ty` and `payload`, assembled. -/
def routed (ty : U16) (payload : List Byte) : State := assembledIn .route (wireFrame ty payload)

theorem witness_routeDrops :
    let s := assembledIn .route [0xEB, 0x90, 0x00, 0x06, 0xEC, 0x01, 0x9D, 0x06, 0x9D, 0x37]
    Running s ∧ ParserRuns s ∧ s.ps = .route ∧ u32be s.abuf s.asize.toNat ≠ crcBitwise (s.abuf.take s.asize.toNat) := by
  decide +kernel

/-- Requests that are dropped: too short, a length field one too large, the wrong payload of a read, a bad function request, an
unknown low byte. -/
theorem witness_routeServes_dropped :
    GoodRoute (routed 0xEC01 [0x00, 0x00, 0x00]) ∧ GoodRoute (routed 0xEC01 [0x00, 0x00, 0x00, 0x02, 0x09]) ∧
      GoodRoute (routed 0xEC02 [0x00, 0x00, 0x00, 0x04, 0x00]) ∧ GoodRoute (routed 0xEC03 [0x06, 0x66, 0x00]) ∧ GoodRoute (routed 0xEC04 []) ∧
      slice (routed 0xEC01 [0x00, 0x00, 0x00]).abuf 6 (routed 0xEC01 [0x00, 0x00, 0x00]).asize.toNat = [0x00, 0x00, 0x00] ∧
      typeReq (u16be (routed 0xEC04 []).abuf 4) = true ∧ typeSub (u16be (routed 0xEC04 []).abuf 4) = 4 := by decide +kernel

/-- Requests that are served, a callback that returns and one that never does. -/
theorem witness_routeServes :
    GoodRoute (routed 0x8001 [0x00, 0x0F, 0x00, 0x01, 0x09]) ∧ GoodRoute (routed 0xEC02 [0x00, 0x10, 0x00, 0x04]) ∧
      GoodRoute { routed 0xEC03 [0x06, 0x66, 0x00, 0x00] with reg := [⟨0x0666, 7⟩], cbScript := [.returns 0 []] } ∧
      nextIs (exec (.dispatch 0x0666 []) { routed 0xEC03 [0x06, 0x66, 0x00, 0x00] with reg := [⟨0x0666, 7⟩], cbScript := [.returns 0 []] })
        (fun t => !t.parserStuck) = true ∧
      nextIs (exec (.dispatch 0x0666 []) { routed 0xEC03 [0x06, 0x66, 0x00, 0x00] with reg := [⟨0x0666, 7⟩], cbScript := [.neverReturns] })
        (fun t => t.parserStuck) = true ∧
      refusedAs (exec (.dispatch 0x0666 []) { routed 0xEC03 [0x06, 0x66, 0x00, 0x00] with reg := [⟨0x0666, 7⟩], cbScript := [.usesContext] })
        .callbackReentry = true := by decide +kernel

theorem witness_routeStores :
    GoodRoute (routed 0x6C02 [0x00, 0x00, 0x00, 0x00]) ∧ GoodRoute (routed 0x2C03 []) ∧ GoodRoute (routed 0x6C01 [1]) ∧
      invHolds (routed 0x6C02 [0x00, 0x00, 0x00, 0x00]) = true ∧ invHolds (routed 0x2C03 []) = true ∧ invHolds (routed 0x6C01 [1]) = true ∧
      (u16be (routed 0x2C03 []).abuf 4).getLsbD 15 = false ∧ typeSub (u16be (routed 0x6C01 [1]).abuf 4) = 1 := by
  decide +kernel

/-- A frame operand whose size and trailer agree with its payload. -/
def frameOf (ty : U16) (payload : List Byte) : Frame :=
  let size := BitVec.ofNat 16 (payload.length + 6)
  ⟨typeHi ty, size, payload, crcBitwise (frameHead ty size payload)⟩

/-- WRITE_REQ of no data at the end of the memory, of the last byte, and of one byte more. -/
theorem witness_writeReq :
    Receiving st ∧ GoodFrame st (frameType true 0x6C 1) (frameOf 0xEC01 (be16 16 ++ be16 0 ++ [])) ∧
      GoodFrame st (frameType true 0x6C 1) (frameOf 0xEC01 (be16 15 ++ be16 1 ++ [9])) ∧
      GoodFrame st (frameType true 0x6C 1) (frameOf 0xEC01 (be16 15 ++ be16 2 ++ [9, 9])) ∧ (15#16).toNat + 1 ≤ st.cfg.memSize ∧
      st.cfg.memSize < (15#16).toNat + 2 := by decide +kernel

/-- A memory larger than a frame: 25 bytes fit a reply, 26 do not. -/
def bigMem : State := { st with cfg := { cfg with memSize := 64 }, mem := mem 64 }

theorem witness_readReq :
    Receiving bigMem ∧
      GoodFrame bigMem (frameType true 0x6C 2) (frameOf 0xEC02 (be16 64 ++ be16 1)) ∧ bigMem.cfg.memSize ≤ (64#16).toNat ∧
      GoodFrame bigMem (frameType true 0x6C 2) (frameOf 0xEC02 (be16 63 ++ be16 2)) ∧ (63#16).toNat < bigMem.cfg.memSize ∧
      25 + 15 ≤ bigMem.cfg.maxFrame ∧ bigMem.cfg.maxFrame < min (26#16).toNat (64 - 0) + 15 := by decide +kernel

theorem witness_funcReq :
    Receiving oneFunction ∧
      GoodFrame oneFunction (frameType true 0x6C 3) (frameOf 0xEC03 (be16 0x0666 ++ be16 0 ++ [])) ∧
      (∀ e ∈ oneFunction.reg, e.code ≠ 0x0667) ∧ (∃ e ∈ oneFunction.reg, e.code = 0x0666) ∧ oneFunction.cbScript = [] ∧
      (List.replicate 25 (0 : Byte)).length ≤ oneFunction.cfg.maxRet := by decide +kernel

theorem witness_responsesAreStored :
    Receiving st ∧ GoodFrame st (frameType false rsp4f.hi 2) rsp4f ∧ GoodFrame st (frameType false ferrf.hi 3) ferrf := by
  decide +kernel

theorem witness_writeRemoteMemory :
    Running st ∧ (26#16).toNat = (List.replicate 26 (0 : Byte)).length ∧ st.cfg.maxFrame < 26 + 15 ∧
      (25#16).toNat = (List.replicate 25 (0 : Byte)).length ∧ 25 + 15 ≤ st.cfg.maxFrame ∧ (1#16).toNat ≠ ([] : List Byte).length := by
  decide +kernel

/-- The smallest `MAX_FRAME` a read request fits, and one below. -/
def tiny (n : Nat) : State := { st with cfg := { cfg with maxFrame := n }, abuf := List.replicate n 0 }

theorem witness_callsAreIssued :
    Running (tiny 14) ∧ (tiny 14).readCls.cstate = .idle ∧ (tiny 14).cfg.maxFrame ≤ 14 ∧ 14 < (tiny 15).cfg.maxFrame ∧
      Running (tiny 15) ∧ (tiny 15).funcCls.cstate = .idle ∧ ([] : List Byte).length + 15 ≤ (tiny 15).cfg.maxFrame ∧
      (tiny 15).cfg.maxFrame < [(1 : Byte)].length + 15 := by decide +kernel

theorem witness_classPreconditions :
    Running (waiting 3) ∧ (waiting 3).readCls.cstate = .waiting ∧ (waiting 3).funcCls.cstate = .idle ∧
      (classRegs .func (waiting 3)).cstate = .idle ∧
      ({ st with funcCls := waitingFor 0 1 } : State).funcCls.cstate = .waiting ∧
      ({ st with funcCls := waitingFor 0 1 } : State).readCls.cstate = .idle ∧
      ({ waiting 3 with funcCls := waitingFor 0 1 } : State).readCls.cstate = .waiting ∧ (1#16).toNat = [(9 : Byte)].length := by
  decide +kernel

theorem witness_corrDeliver :
    st.inited = true ∧ st.parserStuck = false ∧ (List.replicate 29 (0 : Byte)).length + 11 ≤ st.cfg.maxFrame ∧
      st.cfg.maxFrame < (List.replicate 30 (0 : Byte)).length + 11 ∧ typeSub 0x2C02 = 2 ∧ typeSub 0x6C03 = 3 ∧
      typeSub 0x6C01 ≠ 2 ∧ typeSub 0x6C01 ≠ 3 := by decide +kernel

theorem witness_corrWait :
    (classRegs .read (waiting 0)).cstate = .waiting ∧ (classRegs .read (waiting 0)).pend = false ∧
      (classRegs .read (waiting 0)).tcnt = 0 ∧ 0 < (classRegs .read (waiting 1)).tcnt ∧
      (classRegs .func { st with funcCls := signalled .waiting [0x2C, 0x03, 0x01] }).pend = true := by decide +kernel

/-- One body for each clause, at the lengths where the clauses meet; the echo register of `waiting 3` is 0. -/
theorem witness_corrValidate :
    (waiting 3).inited = true ∧ (classRegs .read (waiting 3)).echoSet = true ∧ [0x6C, 0x02].length < 3 ∧ u16be [0x2C, 0x02, 0x05] 0 = 0x2C02 ∧ u16be [0x6C, 0x02, 0x00, 0x00, 0x00] 0 = 0x6C02 ∧
      [0x6C, 0x02, 0x00, 0x00, 0x00].length < 6 ∧ u16be [0x6C, 0x02, 0x00, 0x01, 0x00, 0x00] 2 ≠ (classRegs .read (waiting 3)).echo ∧
      u16be [0x6C, 0x02, 0x00, 0x00, 0x00, 0x01] 2 = (classRegs .read (waiting 3)).echo ∧ (u16be [0x6C, 0x02, 0x00, 0x00, 0x00, 0x01] 4).toNat ≠ 6 - 6 ∧
      (u16be [0x6C, 0x02, 0x00, 0x00, 0x00, 0x00] 4).toNat = 6 - 6 ∧ u16be [0x6C, 0x03, 0x00] 0 ≠ 0x6C02 ∧ u16be [0x6C, 0x03, 0x00] 0 ≠ 0x2C02 := by decide +kernel

theorem witness_unansweredCall :
    (waiting 3).inited = true ∧ (classRegs .read (waiting 3)).cstate = .waiting ∧ (classRegs .read (waiting 3)).pend = false ∧
      2 < (classRegs .read (waiting 3)).tcnt ∧ (classRegs .read (waiting 3)).tcnt ≤ 3 := by decide +kernel

/-- A stale body in an idle class. -/
def stale (b : List Byte) : State := { st with readCls := signalled .idle b }

theorem witness_staleBody :
    Running (stale [0x2C, 0x02, 0x01]) ∧ invHolds (stale [0x2C, 0x02, 0x01]) = true ∧ (stale []).readCls.cstate = .idle ∧ (stale []).readCls.pend = true ∧
      (stale [0x2C, 0x02, 0x01]).readCls.slot = be16 0x2C02 ++ [1] ∧ invHolds (stale [0x6C, 0x02, 0x00, 0x00, 0x00, 0x01, 0x09]) = true ∧
      (stale [0x6C, 0x02, 0x00, 0x00, 0x00, 0x01, 0x09]).readCls.slot = be16 0x6C02 ++ be16 0 ++ be16 (BitVec.ofNat 16 [(9 : Byte)].length) ++ [9] := by
  decide +kernel

theorem witness_memoryService :
    Running bigMem ∧ bigMem.parserStuck = false ∧ configWf bigMem.cfg ∧ (63#16).toNat + 1 ≤ bigMem.cfg.memSize ∧
      bigMem.cfg.memSize < (63#16).toNat + 2 ∧ (63#16).toNat < bigMem.cfg.memSize ∧ bigMem.cfg.memSize ≤ (64#16).toNat := by
  decide +kernel

theorem witness_writeThenRead :
    Running st ∧ st.parserStuck = false ∧ configWf st.cfg ∧ st.cfg.memSize + 15 ≤ st.cfg.maxFrame ∧
      (2#16).toNat = [0x01, 0x02].length ∧ (14#16).toNat < st.cfg.memSize ∧ (14#16).toNat + 2 ≤ st.cfg.memSize := by decide +kernel

theorem witness_registerFunction :
    State.powerUp.inited = false ∧ st.inited = true ∧ (7 : Handle) ≠ nullHandle ∧ st.reg = [] ∧ oneFunction.inited = true ∧
      (∃ e ∈ oneFunction.reg, e.code = 0x0666) ∧ oneFunction.reg ≠ [] ∧ (∀ e ∈ oneFunction.reg, e.code ≠ 0x0777) ∧
      oneFunction.reg.length ≠ oneFunction.cfg.nFunc ∧
      ({ oneFunction with cfg := { cfg with nFunc := 1 } } : State).reg.length = { cfg with nFunc := 1 }.nFunc := by
  decide +kernel

theorem witness_dispatch :
    Running oneFunction ∧ oneFunction.parserStuck = false ∧ configWf oneFunction.cfg ∧
      (∀ e ∈ oneFunction.reg, e.code ≠ 0xDEAD) ∧ (∃ e ∈ oneFunction.reg, e.code = 0x0666) ∧
      (List.replicate 25 (0 : Byte)).length ≤ oneFunction.cfg.maxRet ∧
      oneFunction.cfg.maxRet < (List.replicate 26 (0 : Byte)).length := by decide +kernel

theorem witness_callbackContract :
    let s (a : CbAnswer) : State := { oneFunction with cbScript := [a] }
    refusedAs (exec (.dispatch 0x0666 []) (s (.returns 2 [1]))) .callbackContract = true ∧
      refusedAs (exec (.dispatch 0x0666 []) (s .usesContext)) .callbackReentry = true ∧
      nextIs (exec (.dispatch 0x0666 []) (s .neverReturns)) (fun t => t.parserStuck) = true ∧
      Running { st with parserStuck := true } ∧ parserAgentStep st.cfg (.msRead 0 0) = true ∧ ConsumerCalls st ∧
      parserAgentStep coop.cfg .coopStep = true ∧ parserAgentStep st.cfg .coopStep = false ∧ isFrame (.readReq r4f) = true := by
  decide +kernel

theorem witness_initContext : st.crcInit = true ∧ st.inited = true ∧ ({ st with inited := false } : State).inited = false := by
  decide +kernel

theorem witness_rxStep :
    st.inited = true ∧ AgentsRun st ∧ RingInv st ∧ st.rxHold = [] ∧ st.readScript = [] ∧
      st.cfg.rxOnFull = .retry ∧ ({ st with readScript := [3] } : State).readScript = 3 :: [] ∧
      ({ st with rxHold := [1] } : State).rxHold ≠ [] := by decide +kernel

theorem witness_coopStep :
    Running coop ∧ invHolds coop = true ∧ coop.cfg.sched = .cooperative ∧ coop.parserStuck = false ∧
      callbackKeepsContract coop.cfg (.returns 25 (List.replicate 25 0)) = true := by decide +kernel

/-- A cooperative machine with the bytes `b` in `rxq`, and a transport that yields them all. -/
def coopRx (b : List Byte) : State :=
  { coop with cfg := { coop.cfg with bufSize := 64, rxChunkMax := 32 }, rbuf := List.replicate 64 0, rxq := b, readScript := [32] }

/-- A callback outside its contract, a whole frame, a piece of one; then a READ_RSP, a READ_REQ and a WRITE_REQ on their way to the
host agent, each with a byte behind it, and one in the ring. -/
theorem witness_coopStepServesResponse :
    let ready (s : State) := Running s ∧ invHolds s = true ∧ s.cfg.sched = .cooperative ∧ s.parserStuck = false ∧ s.ps = .seekSync
    let steps (s : State) (p : Out → Bool) :=
      nextIs (exec .rxStep (s.scheduled .preemptive)) (fun u => p (parserSteps (ringOcc u + 2) u))
    let called : State := { coopRx f3 with reg := [⟨0x0666, 7⟩], cbScript := [.usesContext] }
    ready called ∧ steps called (refusedAs · .callbackReentry) = true ∧
      steps (coopRx r4) (fun o => nextIs o fun d => decide (d.res ≠ .hold)) = true ∧
      steps (coopRx [0xEB]) (fun o => nextIs o fun d => decide (d.res = .hold)) = true ∧
    let arrives (s : State) (f : List Byte) :=
      nextIs (exec .rxStep (s.scheduled .preemptive)) (fun u => decide (ringLive u = f ++ [7]))
    ready (coopRx (rsp4 ++ [7])) ∧ Fits (coopRx []) rsp4f.payload ∧
      arrives (coopRx (rsp4 ++ [7])) (wireFrame (frameType false 0x6C 0x02) rsp4f.payload) = true ∧
      ready (coopRx (r4 ++ [7])) ∧ r4f.payload = be16 0 ++ be16 4 ∧
      arrives (coopRx (r4 ++ [7])) (wireFrame (frameType true 0x6C 0x02) r4f.payload) = true ∧
      ready (coopRx (w4 ++ [7])) ∧ w4f.payload = be16 0 ++ be16 (BitVec.ofNat 16 4) ++ [0x00, 0x01, 0x02, 0x03] ∧
      arrives (coopRx (w4 ++ [7])) (wireFrame (frameType true 0x6C 0x01) w4f.payload) = true ∧
      ready { coop with rbuf := rsp4 ++ 7 :: List.replicate 13 0, rin := 19 } ∧
      arrives { coop with rbuf := rsp4 ++ 7 :: List.replicate 13 0, rin := 19 } rsp4 = true := by decide +kernel

theorem witness_stepPreconditions :
    Running coop ∧ coop.cfg.sched = .cooperative ∧ isFrame (.readReq r4f) = true ∧ Running st ∧
      st.cfg.sched ≠ .cooperative ∧ ParserRuns st ∧ st.ps ≠ .readLength ∧ st.ps ≠ .readBody ∧ st.ps ≠ .route ∧
      Running (inBody []) ∧ ParserRuns (inBody []) ∧ (inBody []).ps ≠ .seekSync ∧ ({ st with ringCaller := some .host } : State).ringCaller = some .host ∧
      (Agent.host ≠ .rx ∧ Agent.host ≠ .parser) ∧ ({ coop with ringCaller := some .rx } : State).ringCaller = some .rx ∧
      Agent.rx ≠ .host ∧ State.powerUp.inited = false ∧ needsContext .rbSize = true := by decide +kernel

theorem witness_remoteRead :
    Running st ∧ st.parserStuck = false ∧ configWf st.cfg ∧ st.cfg.memSize + 15 ≤ st.cfg.maxFrame ∧
      (0#16).toNat < st.cfg.memSize ∧ Receiving (waiting 3) ∧ st.cfg.maxFrame ≤ (waiting 3).cfg.maxFrame ∧
      (waiting 3).readCls.cstate = .waiting ∧ (waiting 3).readCls.echoSet = true ∧ (waiting 3).readCls.echo = 0 := by decide +kernel

theorem witness_remoteWrite :
    Running st ∧ configWf st.cfg ∧ (2#16).toNat = [0x01, 0x02].length ∧ [0x01, 0x02].length + 15 ≤ st.cfg.maxFrame ∧ Receiving st ∧
      (14#16).toNat + [0x01, 0x02].length ≤ st.cfg.memSize := by decide +kernel

theorem witness_remoteCall :
    let slave : State := { oneFunction with cbScript := [.returns 1 [9]] }
    let master : State := { st with funcCls := waitingFor 0x0666 1 }
    Running slave ∧ slave.parserStuck = false ∧ configWf slave.cfg ∧ (∃ e ∈ slave.reg, e.code = 0x0666) ∧
      slave.cbScript = .returns [(9 : Byte)].length [9] :: [] ∧ [(9 : Byte)].length ≤ slave.cfg.maxRet ∧ Receiving master ∧
      slave.cfg.maxFrame ≤ master.cfg.maxFrame ∧ master.funcCls.cstate = .waiting ∧ master.funcCls.echoSet = true ∧
      master.funcCls.echo = 0x0666 := by
  decide +kernel

end Sys2Proof.Tests
end

section
/-! PROOF. The step and the port: which instruction a step performs. -/

namespace Sys2Proof.Machine

/-- The equation of `step` for a port that decodes (spec/00_scope.md R11): rewriting with it turns a fact about a step into
one about `exec`. -/
theorem step_eq_exec_of_decode_ok {s : State} {i : Instr} {rest : List Byte} (hport : decode s.port = .ok (i, rest)) :
    step s = exec i { s with port := rest } := by
  rw [step, hport]

/-- Settles O4: the first arm of `step`, selected by what the port decodes to. -/
theorem stepRunsDecoded : Obligations.StepRunsDecoded :=
  fun _ _ _ hport => step_eq_exec_of_decode_ok hport

end Sys2Proof.Machine
end

section
/-! PROOF. Reasoning rules for an outcome: a property of the next state it may be, through every precondition and composition of
Machine/Ops.lean; and the registers that no clause of the invariant reads. -/

namespace Sys2Proof.Machine

/-! ### A property of the next state -/

/-- The outcome is a next state with the property `P`, or no next state at all. -/
def OnNext (P : State → Prop) : Out → Prop
  | .next t => P t
  | .fault _ => True
  | .refused _ => True

variable {P Q : State → Prop} {s t : State} {o a b : Out}

theorem onNext_iff : OnNext P o ↔ ∀ t, o = .next t → P t := by
  cases o <;> simp [OnNext]

theorem OnNext.mono (h : OnNext P o) (hPQ : ∀ t, P t → Q t) : OnNext Q o :=
  onNext_iff.mpr fun t ht => hPQ t (onNext_iff.mp h t ht)

theorem onNext_ite {c : Prop} [Decidable c] (ha : c → OnNext P a) (hb : ¬c → OnNext P b) :
    OnNext P (if c then a else b) := by
  split
  · exact ha ‹_›
  · exact hb ‹_›

theorem onNext_andThen {k : State → Out} (h : OnNext (fun t => OnNext P (k t)) o) : OnNext P (andThen o k) := by
  cases o with
  | next t => exact h
  | fault _ => trivial
  | refused _ => trivial

theorem onNext_requireInited (h : s.inited = true → OnNext P o) : OnNext P (requireInited s o) :=
  onNext_iff.mpr fun _ ht =>
    let ⟨hi, ho⟩ := requireInited_next ht
    onNext_iff.mp (h hi) _ ho

theorem onNext_requireCrc (h : s.crcInit = true → OnNext P o) : OnNext P (requireCrc s o) :=
  onNext_iff.mpr fun _ ht =>
    let ⟨hc, ho⟩ := requireCrc_next ht
    onNext_iff.mp (h hc) _ ho

theorem onNext_requireProducer (h : OnNext P o) : OnNext P (requireProducer s o) :=
  onNext_iff.mpr fun _ ht => onNext_iff.mp h _ (requireProducer_next ht).2

theorem onNext_requireConsumer (h : OnNext P o) : OnNext P (requireConsumer s o) :=
  onNext_iff.mpr fun _ ht => onNext_iff.mp h _ (requireConsumer_next ht).2

theorem onNext_requireParser {p : ParserState} (h : s.ps = p → OnNext P o) : OnNext P (requireParser p s o) :=
  onNext_iff.mpr fun _ ht =>
    let ⟨hp, ho⟩ := requireParser_next ht
    onNext_iff.mp (h hp) _ ho

theorem onNext_requireTrailer {buf : List Byte} {total : Nat} (h : OnNext P o) : OnNext P (requireTrailer buf total o) :=
  onNext_iff.mpr fun _ ht => onNext_iff.mp h _ (requireTrailer_next ht).2.2

/-- A step that holds where the agent does not step on its own (R307). -/
theorem onNext_onItsOwn (hold : P (answer .hold s)) (h : OnNext P o) : OnNext P (onItsOwn s o) := by
  refine onNext_iff.mpr fun t ht => ?_
  obtain ⟨_, rfl⟩ | ⟨_, ho⟩ := onItsOwn_next ht
  · exact hold
  · exact onNext_iff.mp h t ho

/-- A step that holds where the parser agent is inside a callback for ever (U5). -/
theorem onNext_parserAgent (hold : P (answer .hold s)) (h : OnNext P o) : OnNext P (parserAgent s o) := by
  refine onNext_iff.mpr fun t ht => ?_
  obtain ⟨_, rfl⟩ | ⟨_, ho⟩ := parserAgent_next ht
  · exact hold
  · exact onNext_iff.mp h t ho

/-- A PARSE instruction, of whichever of the four states (R190): it holds, is refused, or makes the step. -/
theorem onNext_parse {p : ParserState} (hold : P (answer .hold s)) (h : OnNext P o) :
    OnNext P (onItsOwn s <| parserAgent s <| requireParser p s o) :=
  onNext_onItsOwn hold (onNext_parserAgent hold (onNext_requireParser fun _ => h))

/-! ### The registers no clause of the invariant reads -/

/-- `s` with those registers of `u` that no clause of the invariant reads: the streams to and from the transport, the log, the
checksum's accumulator, and what the model keeps for its own answers and draws. -/
def State.adopt (s u : State) : State :=
  { s with
    crcAcc := u.crcAcc, rxq := u.rxq, txq := u.txq, log := u.log, parserStuck := u.parserStuck, port := u.port
    res := u.res, ringCaller := u.ringCaller, readScript := u.readScript, cbScript := u.cbScript, draws := u.draws }

/-- From `s` to `t` no register changes that a clause of the invariant reads. -/
def Quiet (s t : State) : Prop := t = s.adopt t

theorem quiet_iff : Quiet s t ↔ t = s.adopt t := Iff.rfl

theorem Quiet.trans {u : State} (hst : Quiet s t) (htu : Quiet t u) : Quiet s u :=
  quiet_iff.mpr ((quiet_iff.mp htu).trans (congrArg (State.adopt · u) (quiet_iff.mp hst) :))

theorem Quiet.mem_eq (h : Quiet s t) : t.mem = s.mem := (congrArg State.mem (quiet_iff.mp h) :)

theorem Quiet.cfg_eq (h : Quiet s t) : t.cfg = s.cfg := (congrArg State.cfg (quiet_iff.mp h) :)

theorem Quiet.inv (h : Quiet s t) (hs : Inv s) : Inv t := by
  rw [h]
  exact ⟨hs.cfg, hs.ring, hs.parser, hs.readCls, hs.funcCls, hs.registry, hs.hold, hs.crc, hs.mem⟩

theorem answer_quiet (r : Result) (s : State) : Quiet s (answer r s) := rfl

theorem raise_quiet (e : Event) (s : State) : Quiet s (raise e s) := rfl

theorem transmit_quiet (f : List Byte) (s : State) : Quiet s (transmit f s) := rfl

theorem Quiet.answer (h : Quiet s t) (r : Result) : Quiet s (answer r t) := h.trans (answer_quiet r t)

theorem transmitReply_quiet (f : Option (List Byte)) (s : State) : Quiet s (transmitReply f s) := by
  cases f <;> rfl

/-- A transport read moves bytes out of `rxq`, and draws (R301). -/
theorem transportTake_quiet (k : Nat) (s : State) : Quiet s (transportTake k s).2 := by
  rw [transportTake_spec]; rfl

theorem drawRead_quiet (s : State) : Quiet s (drawRead s).2 := by
  unfold drawRead; split <;> rfl

theorem transportRead_quiet (s : State) : Quiet s (transportRead s).2 :=
  (drawRead_quiet s).trans (transportTake_quiet _ _)

theorem drawCallback_quiet (cb : Handle) (arg : List Byte) (s : State) : Quiet s (drawCallback cb arg s).2 := by
  unfold drawCallback; split <;> rfl

theorem drawBody_quiet (body : List Byte) (s : State) : Quiet s (drawBody body s).2 := by
  unfold drawBody; split <;> rfl

/-! ### The operations that write none of the others -/

theorem msRead_quiet (addr len : U16) (s : State) : Quiet s (msRead addr len s) := by
  unfold msRead
  split
  · exact ((raise_quiet _ s).trans (transmitReply_quiet _ _)).answer _
  · dsimp only
    split <;> rfl

theorem dispatchReply_quiet (code : U16) (ret : List Byte) (s : State) : Quiet s (dispatchReply code ret s) := by
  unfold dispatchReply
  split <;> rfl

/-- A dispatch sends its reply, logs, and draws the callback's behaviour (R284, R286). -/
theorem dispatchCall_quiet (code : U16) (arg : List Byte) (s : State) : OnNext (Quiet s) (dispatchCall code arg s) := by
  unfold dispatchCall
  split
  · exact ((raise_quiet _ s).trans (transmitReply_quiet _ _)).answer _
  · rename_i cb _
    have hdraw := drawCallback_quiet cb arg s
    split
    · rename_i hd
      rw [hd] at hdraw
      exact onNext_ite (fun _ => hdraw.trans (dispatchReply_quiet _ _ _)) fun _ => trivial
    · rename_i u hd
      rw [hd] at hdraw
      exact hdraw.trans (show Quiet u (answer .hold { u with parserStuck := true }) from rfl)
    · trivial

theorem execWriteRemoteMemory_quiet (addr len : U16) (data : List Byte) (s : State) :
    OnNext (Quiet s) (execWriteRemoteMemory addr len data s) :=
  onNext_requireInited fun _ => onNext_requireCrc fun _ => onNext_ite (fun _ => trivial) fun _ => by
    split <;> exact rfl

theorem execListFunctions_quiet (s : State) : OnNext (Quiet s) (execListFunctions s) :=
  onNext_requireInited fun _ => rfl

theorem execRbSize_quiet (s : State) : OnNext (Quiet s) (execRbSize s) :=
  onNext_requireInited fun _ => rfl

theorem execCrcChecksum_quiet (data : List Byte) (n : Nat) (s : State) : OnNext (Quiet s) (execCrcChecksum data n s) :=
  onNext_requireCrc fun _ => onNext_ite (fun _ => rfl) fun _ => trivial

theorem execCrcStore_quiet (buf : List Byte) (total : Nat) (s : State) : OnNext (Quiet s) (execCrcStore buf total s) :=
  onNext_requireCrc fun _ => onNext_requireTrailer rfl

theorem execCrcVerify_quiet (buf : List Byte) (total : Nat) (s : State) : OnNext (Quiet s) (execCrcVerify buf total s) :=
  onNext_requireCrc fun _ => onNext_requireTrailer rfl

theorem execEncodeFrame_quiet (ty : U16) (payload : List Byte) (s : State) :
    OnNext (Quiet s) (execEncodeFrame ty payload s) :=
  onNext_requireCrc fun _ => by split <;> exact rfl

theorem execCorrValidate_quiet (c : CClass) (r : List Byte) (s : State) : OnNext (Quiet s) (execCorrValidate c r s) :=
  onNext_requireInited fun _ => rfl

theorem execMsRead_quiet (addr len : U16) (s : State) : OnNext (Quiet s) (execMsRead addr len s) :=
  onNext_requireInited fun _ => onNext_requireCrc fun _ => onNext_parserAgent rfl (msRead_quiet addr len s)

theorem execDispatch_quiet (code : U16) (arg : List Byte) (s : State) : OnNext (Quiet s) (execDispatch code arg s) :=
  onNext_requireInited fun _ => onNext_requireCrc fun _ => onNext_parserAgent rfl (dispatchCall_quiet code arg s)

theorem execTx_quiet (f : List Byte) (s : State) : OnNext (Quiet s) (execTx f s) :=
  onNext_requireInited fun _ => rfl

/-- What the host and the environment do besides instructions (R266, R300). -/
theorem execAct_quiet (act : EnvAct) (s : State) : OnNext (Quiet s) (execAct act s) := by
  cases act with
  | hostRead addr => exact onNext_requireInited fun _ => onNext_ite (fun _ => trivial) fun _ => rfl
  | rxAppend _ | txTake _ | answerRead _ | answerCallback _ | ringCaller _ => exact rfl

/-! ### What the other operations can do, said once -/

/-- A step of the RX agent: the chunk held back, else one read (R302). -/
theorem rxStepBy_eq (read : State → List Byte × State) (s : State) :
    rxStepBy read s =
      if s.rxHold ≠ [] then answer .done (rxDeliver s.rxHold s)
      else if (read s).1 = [] then answer .done (read s).2
      else answer .done (rxDeliver (read s).1 (read s).2) := by
  unfold rxStepBy
  cases hh : s.rxHold with
  | cons b rest => rfl
  | nil =>
    obtain ⟨chunk, t⟩ := read s
    cases chunk <;> rfl

/-- READ_LENGTH with the header assembled resynchronises, or goes on with a size field in range (R193). -/
theorem checkHeader_eq (s : State) :
    (∃ e, checkHeader s = resync (raise e s)) ∨
    (6 ≤ (u16be s.abuf 2).toNat ∧ (u16be s.abuf 2).toNat + 5 ≤ s.cfg.maxFrame ∧
      checkHeader s = { s with asize := u16be s.abuf 2, ps := .readBody }) := by
  unfold checkHeader
  dsimp only
  split
  · exact .inl ⟨_, rfl⟩
  · split
    · exact .inl ⟨_, rfl⟩
    · split
      · exact .inl ⟨_, rfl⟩
      · exact .inr ⟨by omega, by omega, rfl⟩

/-- The issue of a call ends with the request too large, or with the class waiting and the request sent (R225). -/
theorem onNext_issueCall {c : CClass} {ty : U16} {payload : List Byte} {echo : U16} (hlarge : P (answer .tooLarge s))
    (hissued : ∀ f, P (answer .issued
      (transmit f (setClass c (issueRegs echo s.cfg.timeoutTicks (classRegs c s)) s)))) :
    OnNext P (issueCall c ty payload echo s) :=
  onNext_ite (fun _ => trivial) fun _ => by
    split
    · exact hlarge
    · exact hissued _

/-- CORR_WAIT takes a signalled body, times out, or holds (R228). -/
theorem onNext_corrWait {c : CClass} (htake : ∀ r, P (answer r (setClass c (takeBody (classRegs c s)) s)))
    (htimeout : P (answer .timeout (setClass c { classRegs c s with cstate := .idle } s)))
    (hhold : P (answer .hold s)) : OnNext P (execCorrWait c s) :=
  onNext_requireInited fun _ => onNext_ite (fun _ => trivial) fun _ =>
    onNext_ite (fun _ => htake _) fun _ => onNext_ite (fun _ => htimeout) fun _ => hhold

/-- REGISTER_FUNCTION answers an error, or adds an entry whose code is new, where the registry has room (R281). -/
theorem onNext_registerFunction {code : U16} {cb : Handle} (herr : ∀ r, P (answer r s))
    (hadd : cb ≠ nullHandle → lookup code s.reg = none → s.reg = [] ∨ s.reg.length ≠ s.cfg.nFunc →
      P (answer .ok { s with reg := s.reg ++ [⟨code, cb⟩] })) :
    OnNext P (execRegisterFunction code cb s) :=
  onNext_ite (fun _ => herr _) fun hok => by
    have hcb : cb ≠ nullHandle := fun h => hok (.inr h)
    cases hreg : s.reg with
    | nil =>
      rw [hreg] at hadd
      exact hadd hcb rfl (.inl rfl)
    | cons e rest =>
      rw [hreg] at hadd
      exact onNext_ite (fun _ => herr _) fun hnew =>
        onNext_ite (fun _ => herr _) fun hroom => hadd hcb (by simpa using hnew) (.inr hroom)

/-- A body delivered signals its class, or is logged and dropped (R198). -/
theorem corrDeliver_eq (ty : U16) (body : List Byte) (s : State) :
    (∃ c, corrDeliver ty body s = answer .done
      (setClass c (signalBody (drawBody body s).1 (classRegs c s)) (drawBody body s).2)) ∨
    corrDeliver ty body s = answer .done (raise (.unknownType ty) s) := by
  unfold corrDeliver
  split
  · rename_i c _
    exact .inl ⟨c, rfl⟩
  · exact .inr rfl

end Sys2Proof.Machine
end

section
/-! PROOF. The invariant (Safety.lean): it holds right after reset, and every operation keeps it. -/

namespace Sys2Proof.Machine

variable {s t : State}

/-! ### Reset -/

/-- Settles O6: each register as `State.reset` writes it, by evaluation. -/
theorem resetValues : Obligations.ResetValues := by
  unfold Obligations.ResetValues
  refine ⟨rfl, rfl, rfl, rfl, fun c => ?_, rfl, rfl, rfl, rfl, rfl, rfl, rfl⟩
  cases c <;> exact ⟨rfl, rfl, rfl⟩

/-- An empty slot with no signal agrees with every legal configuration. -/
theorem classInv_reset {c : Config} (hc : configWf c) : ClassInv c ClassRegs.reset := by
  obtain ⟨_, hframe, _⟩ := hc
  exact ⟨rfl, by simp only [ClassRegs.reset]; omega, rfl, Nat.zero_le _, fun h => by cases h⟩

theorem configWf_standard : configWf Config.standard := by decide

/-- Settles O7: clause by clause; the stores have the lengths of the standard configuration. -/
theorem resetInv : Obligations.ResetInv where
  cfg := configWf_standard
  ring := ⟨List.length_replicate, by decide, by decide⟩
  parser := ⟨List.length_replicate, fun _ => rfl, nofun, nofun, nofun⟩
  readCls := classInv_reset configWf_standard
  funcCls := classInv_reset configWf_standard
  registry := ⟨List.nodup_nil, Nat.zero_le _, nofun⟩
  hold := ⟨Nat.zero_le _, fun _ => rfl⟩
  crc := ⟨fun _ => rfl, fun _ => rfl⟩
  mem := ⟨rfl, rfl⟩

/-! ### The classes -/

theorem Inv.classRegs (h : Inv s) (c : CClass) : ClassInv s.cfg (classRegs c s) := by
  cases c
  · exact h.readCls
  · exact h.funcCls

/-- Other registers for one class, if they agree. -/
theorem Inv.setClass (h : Inv s) (c : CClass) {r : ClassRegs} (hr : ClassInv s.cfg r) : Inv (setClass c r s) := by
  cases c
  · exact ⟨h.cfg, h.ring, h.parser, hr, h.funcCls, h.registry, h.hold, h.crc, h.mem⟩
  · exact ⟨h.cfg, h.ring, h.parser, h.readCls, hr, h.registry, h.hold, h.crc, h.mem⟩

theorem classInv_issue {c : Config} {r : ClassRegs} (echo : U16) (h : ClassInv c r) :
    ClassInv c (issueRegs echo c.timeoutTicks r) :=
  let ⟨hslot, hlen, hvalid, _, _⟩ := h
  ⟨hslot, hlen, hvalid, Nat.le_refl _, fun _ => rfl⟩

theorem classInv_take {c : Config} {r : ClassRegs} (h : ClassInv c r) : ClassInv c (takeBody r) :=
  let ⟨hslot, hlen, _, htick, _⟩ := h
  ⟨hslot, hlen, rfl, htick, nofun⟩

theorem classInv_idle {c : Config} {r : ClassRegs} (h : ClassInv c r) : ClassInv c { r with cstate := .idle } :=
  let ⟨hslot, hlen, hvalid, htick, _⟩ := h
  ⟨hslot, hlen, hvalid, htick, nofun⟩

theorem classInv_clear {c : Config} {r : ClassRegs} (h : ClassInv c r) : ClassInv c (clearClassFlags r) :=
  let ⟨hslot, hlen, _, htick, _⟩ := h
  ⟨hslot, hlen, rfl, htick, nofun⟩

theorem classInv_tick {c : Config} {r : ClassRegs} (h : ClassInv c r) : ClassInv c (tickRegs r) := by
  obtain ⟨hslot, hlen, hvalid, htick, hecho⟩ := h
  rw [tickRegs_eq]
  refine ⟨hslot, hlen, hvalid, ?_, hecho⟩
  show (if r.cstate = .waiting then r.tcnt - 1 else r.tcnt) ≤ c.timeoutTicks
  split <;> omega

theorem classInv_signal {c : Config} {r : ClassRegs} {body : List Byte} (h : ClassInv c r)
    (hbody : body.length + 9 ≤ c.maxFrame) : ClassInv c (signalBody body r) :=
  let ⟨_, _, _, htick, hecho⟩ := h
  ⟨rfl, hbody, rfl, htick, hecho⟩

/-- What a slot comes to hold of a body is no longer than R31 lets it be. -/
theorem drawBody_length {body : List Byte} (h : configWf s.cfg) : (drawBody body s).1.length + 9 ≤ s.cfg.maxFrame := by
  obtain ⟨_, hframe, _⟩ := h
  obtain ⟨hfits, hlong⟩ := drawBody_spec body s
  by_cases hb : body.length + 9 ≤ s.cfg.maxFrame
  · rw [hfits hb]; exact hb
  · obtain ⟨b, hlen, he⟩ := hlong (by omega)
    rw [he]; dsimp only; omega

theorem corrDeliver_inv (h : Inv s) (ty : U16) (body : List Byte) : Inv (corrDeliver ty body s) := by
  obtain ⟨c, he⟩ | he := corrDeliver_eq ty body s <;> rw [he]
  · have hq := drawBody_quiet body s
    have hu := hq.inv h
    refine (answer_quiet _ _).inv (hu.setClass c ?_)
    rw [hq.cfg_eq]
    exact classInv_signal (h.classRegs c) (drawBody_length h.cfg)
  · exact (answer_quiet _ _).inv ((raise_quiet _ _).inv h)

/-! ### The ring and the RX agent -/

theorem ringPut_inv {b : List Byte} (h : Inv s) (hp : ringPut b s = some t) : Inv t := by
  obtain ⟨_, he, hring, _⟩ := ringPut_some h.ring hp
  rw [he] at hring ⊢
  exact ⟨h.cfg, hring, h.parser, h.readCls, h.funcCls, h.registry, h.hold, h.crc, h.mem⟩

theorem ringGet_inv (h : Inv s) (m : Nat) : Inv (ringGet m s).2 := by
  obtain ⟨_, _, hring, _⟩ := ringGet_spec h.ring m
  exact ⟨h.cfg, hring, h.parser, h.readCls, h.funcCls, h.registry, h.hold, h.crc, h.mem⟩

/-- Another chunk held back, if it is one R302 lets the RX agent hold. -/
theorem Inv.withHold (h : Inv s) {chunk : List Byte} (hlen : chunk.length ≤ s.cfg.rxChunkMax)
    (hdrop : s.cfg.rxOnFull = .drop → chunk = []) : Inv { s with rxHold := chunk } :=
  ⟨h.cfg, h.ring, h.parser, h.readCls, h.funcCls, h.registry, ⟨hlen, hdrop⟩, h.crc, h.mem⟩

theorem rxDeliver_inv {chunk : List Byte} (h : Inv s) (hlen : chunk.length ≤ s.cfg.rxChunkMax) :
    Inv (rxDeliver chunk s) := by
  unfold rxDeliver
  split
  · exact (ringPut_inv h ‹_›).withHold (Nat.zero_le _) fun _ => rfl
  · split
    · rename_i hretry
      exact h.withHold hlen fun hdrop => by rw [hretry] at hdrop; cases hdrop
    · exact (raise_quiet _ _).inv (h.withHold (Nat.zero_le _) fun _ => rfl)

theorem transportTake_length (k : Nat) (s : State) : (transportTake k s).1.length ≤ s.cfg.rxChunkMax := by
  rw [transportTake_spec, List.length_take]
  omega

/-- A step of the RX agent keeps the invariant, whatever read it makes, as long as that moves at most a chunk. -/
theorem rxStepBy_inv {read : State → List Byte × State} (h : Inv s) (hq : Quiet s (read s).2)
    (hlen : (read s).1.length ≤ s.cfg.rxChunkMax) : Inv (rxStepBy read s) := by
  have hread : Inv (read s).2 := hq.inv h
  rw [rxStepBy_eq]
  split
  · exact (answer_quiet _ _).inv (rxDeliver_inv h h.hold.1)
  · split
    · exact (answer_quiet _ _).inv hread
    · exact (answer_quiet _ _).inv (rxDeliver_inv hread (by rw [hq.cfg_eq]; exact hlen))

theorem rxStep_inv (h : Inv s) : Inv (rxStep s) := by
  refine rxStepBy_inv h (transportRead_quiet s) ?_
  rw [← (drawRead_quiet s).cfg_eq]
  exact transportTake_length _ _

theorem promptStep_inv (h : Inv s) : Inv (rxStepBy promptRead s) :=
  rxStepBy_inv h (transportTake_quiet _ s) (transportTake_length _ s)

/-! ### The parser -/

/-- `acnt` and `asize` agree with `ps` (R29, R30). -/
def ParserAgrees (maxFrame : Nat) (ps : ParserState) (acnt : Nat) (asize : U16) : Prop :=
  match ps with
  | .seekSync => acnt = 0
  | .readLength => 1 ≤ acnt ∧ acnt ≤ 3
  | .readBody => (6 ≤ asize.toNat ∧ asize.toNat + 5 ≤ maxFrame) ∧ 4 ≤ acnt ∧ acnt < asize.toNat + 4
  | .route => (6 ≤ asize.toNat ∧ asize.toNat + 5 ≤ maxFrame) ∧ acnt = asize.toNat + 4

theorem parserInv_iff :
    ParserInv s ↔ s.abuf.length = s.cfg.maxFrame ∧ ParserAgrees s.cfg.maxFrame s.ps s.acnt s.asize := by
  unfold ParserAgrees
  cases hps : s.ps <;> simp [ParserInv, SizeInv, hps]

/-- Other parser registers, if they agree with `ps`; the log and the answer may change with them. -/
theorem Inv.withParser (h : Inv s) {ab : List Byte} {n : Nat} {size : U16} {p : ParserState} {l : List Event} {r : Result}
    (hbuf : ab.length = s.cfg.maxFrame) (hp : ParserAgrees s.cfg.maxFrame p n size) :
    Inv { s with abuf := ab, acnt := n, asize := size, ps := p, log := l, res := r } :=
  ⟨h.cfg, h.ring, parserInv_iff.mpr ⟨hbuf, hp⟩, h.readCls, h.funcCls, h.registry, h.hold, h.crc, h.mem⟩

theorem Inv.parserAgrees (h : Inv s) {p : ParserState} (hps : s.ps = p) : ParserAgrees s.cfg.maxFrame p s.acnt s.asize :=
  hps ▸ (parserInv_iff.mp h.parser).2

theorem Inv.abuf_length (h : Inv s) : s.abuf.length = s.cfg.maxFrame :=
  (parserInv_iff.mp h.parser).1

theorem resync_inv (h : Inv s) : Inv (resync s) :=
  h.withParser h.abuf_length rfl

theorem routeEnd_inv (h : Inv s) : Inv (routeEnd s) := by
  unfold routeEnd
  split
  · exact h
  · exact resync_inv h

theorem seekSyncOn_inv {r : List Byte} (h : Inv s) : Inv (seekSyncOn r s) := by
  obtain ⟨_, hframe, _⟩ := h.cfg
  have hbuf := h.abuf_length
  unfold seekSyncOn
  split
  · exact (answer_quiet _ _).inv h
  · split
    · exact (answer_quiet _ _).inv ((raise_quiet _ _).inv h)
    · exact h.withParser ((splice_length _ _ _ (by simp; omega)).trans hbuf) ⟨Nat.le_refl 1, (by decide : 1 ≤ 3)⟩

/-- Writing received bytes behind those assembled keeps the size of the buffer (R29). -/
theorem assemble_length {r : List Byte} (h : Inv s) (hfit : s.acnt + r.length ≤ s.cfg.maxFrame) :
    (splice s.abuf s.acnt r).length = s.cfg.maxFrame := by
  have hbuf := h.abuf_length
  exact (splice_length _ _ _ (by omega)).trans hbuf

theorem readLengthOn_inv {r : List Byte} (h : Inv s) (hps : s.ps = .readLength) (hr : r.length ≤ 4 - s.acnt) :
    Inv (readLengthOn r s) := by
  obtain ⟨_, hframe, _⟩ := h.cfg
  obtain ⟨hlow, hhigh⟩ := h.parserAgrees hps
  have hbuf := assemble_length (r := r) h (by omega)
  unfold readLengthOn
  dsimp only
  rw [assemble_acnt]
  split
  · split
    · exact (answer_quiet _ _).inv h
    · refine h.withParser hbuf ?_
      rw [assemble_ps, hps]
      exact ⟨Nat.le_add_right_of_le hlow, by rw [assemble_acnt]; omega⟩
  · obtain ⟨e, he⟩ | ⟨h6, hmax, he⟩ := checkHeader_eq (assemble r s) <;> rw [he]
    · exact h.withParser hbuf rfl
    · have hcount : 4 ≤ s.acnt + r.length ∧ s.acnt + r.length < (u16be (assemble r s).abuf 2).toNat + 4 := by omega
      exact h.withParser hbuf ⟨⟨h6, hmax⟩, hcount⟩

theorem readBodyOn_inv {r : List Byte} (h : Inv s) (hps : s.ps = .readBody)
    (hr : r.length ≤ s.asize.toNat + 4 - s.acnt) : Inv (readBodyOn r s) := by
  obtain ⟨⟨h6, hmax⟩, hlow, hhigh⟩ := h.parserAgrees hps
  have hbuf := assemble_length (r := r) h (by omega)
  unfold readBodyOn
  dsimp only
  rw [assemble_acnt]
  split
  · rename_i hfull
    exact h.withParser hbuf ⟨⟨h6, hmax⟩, hfull⟩
  · split
    · exact (answer_quiet _ _).inv h
    · refine h.withParser hbuf ?_
      rw [assemble_ps, hps]
      exact ⟨⟨h6, hmax⟩, Nat.le_add_right_of_le hlow, by rw [assemble_acnt, assemble_asize]; omega⟩

/-- A collecting step on no more bytes than it asks for (R192 to R194). -/
theorem collectOn_inv {r : List Byte} (h : Inv s) (hr : r.length ≤ wanted s) : Inv (collectOn r s) := by
  unfold collectOn
  unfold wanted at hr
  cases hps : s.ps with
  | seekSync => exact seekSyncOn_inv h
  | readLength => rw [hps] at hr; exact readLengthOn_inv h hps hr
  | readBody => rw [hps] at hr; exact readBodyOn_inv h hps hr
  | route => exact h

theorem collectStep_inv (h : Inv s) : Inv (collectStep s) :=
  collectOn_inv (ringGet_inv h (wanted s)) <| by
    show (ringPeek s _).length ≤ wanted s
    rw [ringPeek_length]
    exact Nat.min_le_left _ _

/-! ### ROUTE -/

/-- Another Memory Space, if it is canonical and inside `MEM_SIZE`. -/
theorem Inv.withMem (h : Inv s) {m : Mem} (hm : memWf m = true) (hb : memBelow s.cfg.memSize m = true) :
    Inv { s with mem := m } :=
  ⟨h.cfg, h.ring, h.parser, h.readCls, h.funcCls, h.registry, h.hold, h.crc, ⟨hm, hb⟩⟩

theorem msWrite_inv (h : Inv s) (addr : U16) (data : List Byte) : Inv (msWrite addr data s) := by
  have hloop := h.withMem (msWriteLoop_wf s.cfg.memSize addr.toNat data 0 _ h.mem.1)
    (msWriteLoop_below _ addr.toNat data 0 _ h.mem.2)
  unfold msWrite
  dsimp only
  split
  · exact (answer_quiet _ _).inv hloop
  · exact (answer_quiet _ _).inv ((raise_quiet _ _).inv hloop)

theorem dispatchCall_inv (h : Inv s) (code : U16) (arg : List Byte) : OnNext Inv (dispatchCall code arg s) :=
  (dispatchCall_quiet code arg s).mono fun _ hq => hq.inv h

theorem routeRequest_inv (h : Inv s) (ty : U16) (p : List Byte) : OnNext Inv (routeRequest ty p s) := by
  have hdropped : ∀ e, OnNext Inv (.next (answer .done (raise e s))) := fun e =>
    (answer_quiet _ _).inv ((raise_quiet e s).inv h)
  rw [routeRequest_spec]
  refine onNext_ite (fun _ => ?write) fun _ => onNext_ite (fun _ => ?read) fun _ => onNext_ite (fun _ => ?func) fun _ =>
    hdropped _
  case write => exact onNext_ite (fun _ => hdropped _) fun _ => msWrite_inv h _ _
  case read => exact onNext_ite (fun _ => hdropped _) fun _ => (msRead_quiet _ _ s).inv h
  case func => exact onNext_ite (fun _ => hdropped _) fun _ => dispatchCall_inv h _ _

theorem routeStep_inv (h : Inv s) : OnNext Inv (routeStep s) :=
  onNext_andThen <| OnNext.mono (P := Inv)
    (onNext_ite (fun _ => (answer_quiet _ _).inv ((raise_quiet _ _).inv h)) fun _ =>
      onNext_ite (fun _ => routeRequest_inv h _ _) fun _ => corrDeliver_inv h _ _)
    fun _ => routeEnd_inv

/-! ### The runs of steps -/

theorem pump_inv (fuel : Nat) (h : Inv s) : OnNext Inv (pump fuel s) := by
  induction fuel generalizing s with
  | zero => exact h
  | succ fuel ih =>
    exact onNext_ite (fun _ => h) fun _ =>
      onNext_ite (fun _ => onNext_andThen ((routeStep_inv h).mono fun _ ht => ih ht)) fun _ =>
        onNext_ite (fun _ => ih (collectStep_inv h)) fun _ =>
          onNext_ite (fun _ => h) fun _ => ih (promptStep_inv h)

theorem coopParse_inv (fuel : Nat) (h : Inv s) : OnNext Inv (coopParse fuel s) := by
  induction fuel generalizing s with
  | zero => exact (answer_quiet _ _).inv h
  | succ fuel ih =>
    have hcollect := collectStep_inv h
    exact onNext_ite
      (fun _ => onNext_andThen ((routeStep_inv h).mono fun _ ht => (answer_quiet _ _).inv ht)) fun _ =>
        onNext_ite (fun _ => hcollect) fun _ => ih hcollect

theorem coopEnd_inv (h : Inv s) : Inv (coopEnd s) := by
  unfold coopEnd
  split
  · exact h
  · split <;> exact (answer_quiet _ _).inv h

/-- The arrival of bytes (R300), whatever they are. -/
theorem receiveBytes_inv (bs : List Byte) (h : Inv s) : OnNext Inv (receiveBytes bs s) := by
  have happend : Inv { s with rxq := s.rxq ++ bs } := Quiet.inv (s := s) rfl h
  exact onNext_requireInited fun _ => onNext_requireCrc fun _ =>
    onNext_ite (fun _ => (answer_quiet _ _).inv happend) fun _ =>
      onNext_parserAgent ((answer_quiet _ _).inv happend) (pump_inv _ ((answer_quiet _ _).inv happend))

/-! ### The instructions -/

theorem issueCall_inv (h : Inv s) (c : CClass) (ty : U16) (payload : List Byte) (echo : U16) :
    OnNext Inv (issueCall c ty payload echo s) :=
  onNext_issueCall ((answer_quiet _ _).inv h) fun _ =>
    (answer_quiet _ _).inv ((transmit_quiet _ _).inv (h.setClass c (classInv_issue echo (h.classRegs c))))

theorem execCorrWait_inv (h : Inv s) (c : CClass) : OnNext Inv (execCorrWait c s) :=
  onNext_corrWait (fun _ => (answer_quiet _ _).inv (h.setClass c (classInv_take (h.classRegs c))))
    ((answer_quiet _ _).inv (h.setClass c (classInv_idle (h.classRegs c)))) ((answer_quiet _ _).inv h)

theorem execCorrTick_inv (h : Inv s) : OnNext Inv (execCorrTick s) :=
  onNext_requireInited fun _ => (answer_quiet _ _).inv
    ⟨h.cfg, h.ring, h.parser, classInv_tick h.readCls, classInv_tick h.funcCls, h.registry, h.hold, h.crc, h.mem⟩

/-- A registration with a new code, where there is room (R281, R290). -/
theorem Inv.register (h : Inv s) {code : U16} {cb : Handle} (hcb : cb ≠ nullHandle) (hnew : lookup code s.reg = none)
    (hroom : s.reg = [] ∨ s.reg.length ≠ s.cfg.nFunc) : Inv { s with reg := s.reg ++ [⟨code, cb⟩] } := by
  obtain ⟨hnodup, hlen, hnull⟩ := h.registry
  obtain ⟨_, _, _, _, _, _, hpos, _⟩ := h.cfg
  have hreg : RegistryInv { s with reg := s.reg ++ [⟨code, cb⟩] } := by
    refine ⟨?_, ?_, ?_⟩
    · rw [List.map_append, List.nodup_append]
      refine ⟨hnodup, by simp, ?_⟩
      simpa using lookup_none.mp hnew
    · rcases hroom with hempty | hfull
      · simpa [hempty] using hpos
      · simp only [List.length_append, List.length_singleton]; omega
    · simp only [List.mem_append, List.mem_singleton]
      rintro e (he | rfl)
      · exact hnull e he
      · exact hcb
  exact ⟨h.cfg, h.ring, h.parser, h.readCls, h.funcCls, hreg, h.hold, h.crc, h.mem⟩

theorem execRegisterFunction_inv (h : Inv s) (code : U16) (cb : Handle) : OnNext Inv (execRegisterFunction code cb s) :=
  onNext_registerFunction (fun _ => (answer_quiet _ _).inv h) fun hcb hnew hroom =>
    (answer_quiet _ _).inv (h.register hcb hnew hroom)

theorem execInitContext_inv (h : Inv s) (handle readFn writeFn : Handle) :
    OnNext Inv (execInitContext handle readFn writeFn s) :=
  onNext_requireCrc fun hcrc => onNext_ite (fun _ => trivial) fun _ => by
    obtain ⟨hlen, hin, _⟩ := h.ring
    have hpos : 0 < s.cfg.bufSize := Nat.zero_lt_of_lt hin
    exact
      { cfg := h.cfg
        ring := ⟨hlen, hpos, hpos⟩
        parser := parserInv_iff.mpr ⟨h.abuf_length, rfl⟩
        readCls := classInv_clear h.readCls
        funcCls := classInv_clear h.funcCls
        registry := ⟨List.nodup_nil, Nat.zero_le _, nofun⟩
        hold := ⟨Nat.zero_le _, fun _ => rfl⟩
        crc := ⟨fun _ => hcrc, h.crc.2⟩
        mem := h.mem }

theorem execCrcInit_inv (h : Inv s) : OnNext Inv (execCrcInit s) :=
  ⟨h.cfg, h.ring, h.parser, h.readCls, h.funcCls, h.registry, h.hold, ⟨fun _ => rfl, fun _ => rfl⟩, h.mem⟩

theorem execRbPut_inv (h : Inv s) (b : List Byte) : OnNext Inv (execRbPut b s) :=
  onNext_requireInited fun _ => onNext_requireProducer <| by
    split
    · exact (answer_quiet _ _).inv (ringPut_inv h ‹_›)
    · exact (answer_quiet _ _).inv h

theorem execRbGet_inv (h : Inv s) (m : Nat) : OnNext Inv (execRbGet m s) :=
  onNext_requireInited fun _ => onNext_requireConsumer <| onNext_parserAgent ((answer_quiet _ _).inv h)
    ((answer_quiet _ _).inv (ringGet_inv h m))

theorem execCoopStep_inv (h : Inv s) : OnNext Inv (execCoopStep s) :=
  onNext_requireInited fun _ => onNext_requireCrc fun _ => onNext_ite (fun _ => trivial) fun _ =>
    onNext_parserAgent ((answer_quiet _ _).inv h) <|
      onNext_andThen ((coopParse_inv _ (rxStep_inv h)).mono fun _ => coopEnd_inv)

/-- Every instruction keeps the invariant. -/
theorem exec_inv (h : Inv s) (i : Instr) : OnNext Inv (exec i s) := by
  have quiet : ∀ {o : Out}, OnNext (Quiet s) o → OnNext Inv o := fun hq => hq.mono fun _ ht => ht.inv h
  have hold : Inv (answer .hold s) := (answer_quiet _ _).inv h
  cases i with
  | writeReq f | readReq f | funcReq f | readRsp f | funcRsp f | readErr f | funcErr f => exact receiveBytes_inv _ h
  | initContext handle readFn writeFn => exact execInitContext_inv h handle readFn writeFn
  | writeRemoteMemory addr len data => exact quiet (execWriteRemoteMemory_quiet addr len data s)
  | readRemoteMemory addr len | callRemoteFunction code arg =>
    exact onNext_requireInited fun _ => onNext_requireCrc fun _ => issueCall_inv h _ _ _ _
  | registerFunction code cb => exact execRegisterFunction_inv h code cb
  | listFunctions => exact quiet (execListFunctions_quiet s)
  | rbPut b => exact execRbPut_inv h b
  | rbGet m => exact execRbGet_inv h m
  | rbSize => exact quiet (execRbSize_quiet s)
  | crcInit => exact execCrcInit_inv h
  | crcChecksum data n => exact quiet (execCrcChecksum_quiet data n s)
  | crcStore buf total => exact quiet (execCrcStore_quiet buf total s)
  | crcVerify buf total => exact quiet (execCrcVerify_quiet buf total s)
  | encodeFrame ty payload => exact quiet (execEncodeFrame_quiet ty payload s)
  | parseSeekSync | parseReadLength | parseReadBody =>
    exact onNext_requireInited fun _ => onNext_parse hold (collectStep_inv h)
  | parseRoute => exact onNext_requireInited fun _ => onNext_requireCrc fun _ => onNext_parse hold (routeStep_inv h)
  | corrDeliver ty payload => exact onNext_requireInited fun _ => onNext_parserAgent hold (corrDeliver_inv h _ _)
  | corrWait c => exact execCorrWait_inv h c
  | corrTick => exact execCorrTick_inv h
  | corrValidate c r => exact quiet (execCorrValidate_quiet c r s)
  | msWrite addr data => exact onNext_requireInited fun _ => onNext_parserAgent hold (msWrite_inv h addr data)
  | msRead addr len => exact quiet (execMsRead_quiet addr len s)
  | dispatch code arg => exact quiet (execDispatch_quiet code arg s)
  | rxStep => exact onNext_requireInited fun _ => onNext_onItsOwn hold (rxStep_inv h)
  | tx f => exact quiet (execTx_quiet f s)
  | coopStep => exact execCoopStep_inv h

theorem Inv.withPort (h : Inv s) (rest : List Byte) : Inv { s with port := rest } :=
  Quiet.inv (s := s) rfl h

/-- What the port holds besides instructions keeps the invariant. -/
theorem stepOther_inv (h : Inv s) (e : DecodeError) : OnNext Inv (stepOther e s) := by
  cases e with
  | empty => exact h
  | truncated | badClass _ => trivial
  | truncatedFrame bs => exact receiveBytes_inv bs (h.withPort _)
  | falseStart bs rest => exact receiveBytes_inv bs (h.withPort rest)
  | unknownType ty f rest => exact receiveBytes_inv _ (h.withPort rest)
  | unknownSelect b rest =>
    cases hd : decodeAct b rest with
    | ok p =>
      simp only [stepOther, hd]
      exact (execAct_quiet p.1 _).mono fun _ hq => hq.inv (h.withPort p.2)
    | error _ =>
      simp only [stepOther, hd]
      trivial

theorem step_inv (h : Inv s) : OnNext Inv (step s) := by
  unfold step
  cases decode s.port with
  | ok p => exact exec_inv (h.withPort p.2) p.1
  | error e => exact stepOther_inv h e

/-- Settles O8: whatever the port decodes to, what it stands for keeps the invariant (`exec_inv`, `stepOther_inv`). -/
theorem invStep : Obligations.InvStep :=
  fun _ t h ht => onNext_iff.mp (step_inv h) t ht

end Sys2Proof.Machine
end

section
/-! PROOF. Who writes the Memory Space (spec/10_state.md R36, R44): the steps that do not route a frame leave it alone. -/

namespace Sys2Proof.Machine

/-! ### The operations that leave the Memory Space alone -/

@[simp] theorem setClass_mem (c : CClass) (r : ClassRegs) (s : State) : (setClass c r s).mem = s.mem := by
  cases c <;> rfl

theorem corrDeliver_mem (ty : U16) (body : List Byte) (s : State) : (corrDeliver ty body s).mem = s.mem := by
  obtain ⟨c, he⟩ | he := corrDeliver_eq ty body s <;> rw [he]
  · rw [answer_mem, setClass_mem]
    exact (drawBody_quiet body s).mem_eq
  · rfl

theorem ringPut_mem {b : List Byte} {s t : State} (h : ringPut b s = some t) : t.mem = s.mem := by
  unfold ringPut at h
  split at h
  · cases h
  · cases h; rfl

theorem rxDeliver_mem (chunk : List Byte) (s : State) : (rxDeliver chunk s).mem = s.mem := by
  unfold rxDeliver
  split
  · rename_i t hput
    exact ringPut_mem (t := t) hput
  · split <;> rfl

theorem rxStep_mem (s : State) : (rxStep s).mem = s.mem := by
  have hread := (transportRead_quiet s).mem_eq
  unfold rxStep
  rw [rxStepBy_eq]
  split
  · exact rxDeliver_mem _ s
  · split
    · exact hread
    · exact (rxDeliver_mem _ _).trans hread

theorem checkHeader_mem (s : State) : (checkHeader s).mem = s.mem := by
  obtain ⟨e, he⟩ | ⟨_, _, he⟩ := checkHeader_eq s
  · rw [he]; rfl
  · rw [he]

theorem collectOn_mem (r : List Byte) (s : State) : (collectOn r s).mem = s.mem := by
  unfold collectOn
  split
  · unfold seekSyncOn
    split
    · rfl
    · split <;> rfl
  · unfold readLengthOn
    dsimp only
    split
    · split <;> rfl
    · exact checkHeader_mem _
  · unfold readBodyOn
    dsimp only
    split
    · rfl
    · split <;> rfl
  · rfl

theorem collectStep_mem (s : State) : (collectStep s).mem = s.mem := collectOn_mem _ _

theorem issueCall_mem (c : CClass) (ty : U16) (payload : List Byte) (echo : U16) (s : State) :
    OnNext (fun t => t.mem = s.mem) (issueCall c ty payload echo s) :=
  onNext_issueCall rfl fun _ => setClass_mem c _ s

/-! ### The instructions -/

/-- An instruction that performs no ROUTE step and is no MS_WRITE leaves the Memory Space alone. -/
theorem exec_mem (s : State) (i : Instr) (h : mayWriteMemory i = false) :
    OnNext (fun t => t.mem = s.mem) (exec i s) := by
  have quiet : ∀ {o : Out}, OnNext (Quiet s) o → OnNext (fun t => t.mem = s.mem) o :=
    fun hq => hq.mono fun _ => Quiet.mem_eq
  cases i with
  | writeReq _ | readReq _ | funcReq _ | readRsp _ | funcRsp _ | readErr _ | funcErr _ => cases h
  | parseRoute | msWrite _ _ | coopStep => cases h
  | initContext handle readFn writeFn =>
    exact onNext_requireCrc fun _ => onNext_ite (fun _ => trivial) fun _ => rfl
  | writeRemoteMemory addr len data => exact quiet (execWriteRemoteMemory_quiet addr len data s)
  | readRemoteMemory addr len | callRemoteFunction code arg =>
    exact onNext_requireInited fun _ => onNext_requireCrc fun _ => issueCall_mem _ _ _ _ s
  | registerFunction code cb => exact onNext_registerFunction (fun _ => rfl) fun _ _ _ => rfl
  | listFunctions => exact quiet (execListFunctions_quiet s)
  | rbPut b =>
    exact onNext_requireInited fun _ => onNext_requireProducer <| by
      split
      · rename_i t hput
        exact ringPut_mem (t := t) hput
      · exact rfl
  | rbGet m =>
    exact onNext_requireInited fun _ => onNext_requireConsumer <| onNext_parserAgent rfl rfl
  | rbSize => exact quiet (execRbSize_quiet s)
  | crcInit => exact rfl
  | crcChecksum data n => exact quiet (execCrcChecksum_quiet data n s)
  | crcStore buf total => exact quiet (execCrcStore_quiet buf total s)
  | crcVerify buf total => exact quiet (execCrcVerify_quiet buf total s)
  | encodeFrame ty payload => exact quiet (execEncodeFrame_quiet ty payload s)
  | parseSeekSync | parseReadLength | parseReadBody =>
    exact onNext_requireInited fun _ => onNext_parse rfl (collectStep_mem s)
  | corrDeliver ty payload =>
    exact onNext_requireInited fun _ => onNext_parserAgent rfl (corrDeliver_mem _ _ s)
  | corrWait c => exact onNext_corrWait (fun _ => setClass_mem c _ s) (setClass_mem c _ s) rfl
  | corrTick => exact onNext_requireInited fun _ => rfl
  | corrValidate c r => exact quiet (execCorrValidate_quiet c r s)
  | msRead addr len => exact quiet (execMsRead_quiet addr len s)
  | dispatch code arg => exact quiet (execDispatch_quiet code arg s)
  | rxStep => exact onNext_requireInited fun _ => onNext_onItsOwn rfl (rxStep_mem s)
  | tx f => exact quiet (execTx_quiet f s)

/-- Settles O11: instruction by instruction (`exec_mem`). -/
theorem onlyRoutingWritesMemory : Obligations.OnlyRoutingWritesMemory :=
  fun s t i ht hi => onNext_iff.mp (exec_mem s i hi) t ht

end Sys2Proof.Machine
end

section
/-! PROOF. The preconditions of the calls of a class, and what a call leaves to the other class (spec/44_correlation.md R224, R228;
spec/10_state.md R43). -/

namespace Sys2Proof.Machine

variable {s : State}

theorem readRemoteMemory_running (h : Running s) (addr len : U16) :
    exec (.readRemoteMemory addr len) s = issueCall .read 0xEC02 (readReqPayload addr len) addr s := by
  obtain ⟨hinit, hcrc, _⟩ := h
  rw [exec, execReadRemoteMemory, requireInited_pos hinit, requireCrc_pos hcrc]

theorem callRemoteFunction_running (h : Running s) (code : U16) (arg : List Byte) :
    exec (.callRemoteFunction code arg) s = issueCall .func 0xEC03 (keyedPayload code arg) code s := by
  obtain ⟨hinit, hcrc, _⟩ := h
  rw [exec, execCallRemoteFunction, requireInited_pos hinit, requireCrc_pos hcrc]

/-- A call on a class that waits is refused (R224). -/
theorem issueCall_busy {c : CClass} (h : (classRegs c s).cstate = .waiting) (ty : U16) (payload : List Byte) (echo : U16) :
    issueCall c ty payload echo s = .refused (.classBusy c) := by
  rw [issueCall, if_pos h]

/-- A call on an idle class completes, and leaves the registers of the other class as they are (R43). -/
theorem issueCall_idle {c d : CClass} (h : (classRegs c s).cstate = .idle) (hd : d ≠ c) (ty : U16) (payload : List Byte)
    (echo : U16) : ∃ t, issueCall c ty payload echo s = .next t ∧ classRegs d t = classRegs d s := by
  rw [issueCall, if_neg (by rw [h]; decide)]
  cases encodeIn s ty payload with
  | none => exact ⟨_, rfl, classRegs_answer _ _ _⟩
  | some f => exact ⟨_, rfl, by rw [classRegs_answer, classRegs_transmit, classRegs_setClass_other c d _ s hd]⟩

/-- CORR_WAIT of a class that does not wait is refused (R228). -/
theorem corrWait_idle {c : CClass} (hi : s.inited = true) (h : (classRegs c s).cstate = .idle) :
    exec (.corrWait c) s = .refused (.classNotWaiting c) := by
  rw [exec, execCorrWait, requireInited_pos hi]
  exact if_pos (by rw [h]; decide)

/-- A write asks nothing of the classes and touches neither (R221). -/
theorem writeRemoteMemory_classes (h : Running s) {addr len : U16} {data : List Byte} (hlen : len.toNat = data.length) :
    ∃ t, exec (.writeRemoteMemory addr len data) s = .next t ∧ t.readCls = s.readCls ∧ t.funcCls = s.funcCls := by
  obtain ⟨hinit, hcrc, _⟩ := h
  rw [exec, execWriteRemoteMemory, requireInited_pos hinit, requireCrc_pos hcrc, if_neg (not_not.mpr hlen)]
  cases encodeIn s 0xEC01 (be16 addr ++ be16 len ++ data) <;> exact ⟨_, rfl, rfl, rfl⟩

/-- Settles O37: a call is `issueCall` on its class, which looks at that class alone. -/
theorem classPreconditions : Obligations.ClassPreconditions := by
  intro s key len arg c hrun
  rw [readRemoteMemory_running hrun, callRemoteFunction_running hrun]
  have hinit : s.inited = true := hrun.1
  exact ⟨fun hbusy => issueCall_busy (c := .read) hbusy _ _ _, fun hbusy => issueCall_busy (c := .func) hbusy _ _ _,
    corrWait_idle hinit,
    fun _ hidle => issueCall_idle (c := .func) (d := .read) hidle (by decide) _ _ _,
    fun _ hidle => issueCall_idle (c := .read) (d := .func) hidle (by decide) _ _ _,
    fun _ _ hlen => writeRemoteMemory_classes hrun hlen⟩

end Sys2Proof.Machine
end

section
/-! PROOF. The log is output only (spec/10_state.md R41, spec/60_exceptions.md R350): every operation takes states that agree but
for their logs to outcomes that agree but for their logs. -/

namespace Sys2Proof.Machine

/-! ### Agreement but for the log -/

/-- The state with another log. -/
def State.relog (s : State) (l : List Event) : State := { s with log := l }

/-- The second state is the first with some log. -/
def EqButLog (s t : State) : Prop := ∃ l, t = s.relog l

/-- Two outcomes are one outcome, but for the log of a next state. -/
inductive SameButLog : Out → Out → Prop where
  | next {s t : State} (h : EqButLog s t) : SameButLog (.next s) (.next t)
  | fault (r : Fault) : SameButLog (.fault r) (.fault r)
  | refused (r : Refusal) : SameButLog (.refused r) (.refused r)

variable {s t : State} {o o' a a' b b' : Out}

/-! What is read of a state with another log. -/

@[simp] theorem relog_cfg (s : State) (l : List Event) : (s.relog l).cfg = s.cfg := rfl
@[simp] theorem relog_ps (s : State) (l : List Event) : (s.relog l).ps = s.ps := rfl
@[simp] theorem relog_mem (s : State) (l : List Event) : (s.relog l).mem = s.mem := rfl
@[simp] theorem relog_reg (s : State) (l : List Event) : (s.relog l).reg = s.reg := rfl
@[simp] theorem relog_rxHold (s : State) (l : List Event) : (s.relog l).rxHold = s.rxHold := rfl
@[simp] theorem relog_ringCaller (s : State) (l : List Event) : (s.relog l).ringCaller = s.ringCaller := rfl
@[simp] theorem relog_encodeIn (s : State) (l : List Event) (ty : U16) (payload : List Byte) :
    encodeIn (s.relog l) ty payload = encodeIn s ty payload := rfl
@[simp] theorem relog_ringOcc (s : State) (l : List Event) : ringOcc (s.relog l) = ringOcc s := rfl
@[simp] theorem relog_classRegs (c : CClass) (s : State) (l : List Event) :
    classRegs c (s.relog l) = classRegs c s := by cases c <;> rfl
@[simp] theorem relog_echoValue (c : CClass) (s : State) (l : List Event) :
    echoValue c (s.relog l) = echoValue c s := by rw [echoValue, relog_classRegs, echoValue]

theorem eqButLog_ite {c : Prop} [Decidable c] {x x' y y' : State} (hx : EqButLog x x') (hy : EqButLog y y') :
    EqButLog (if c then x else y) (if c then x' else y') := by
  split
  · exact hx
  · exact hy

theorem sameButLog_ite {c : Prop} [Decidable c] (ha : SameButLog a a') (hb : SameButLog b b') :
    SameButLog (if c then a else b) (if c then a' else b') := by
  split
  · exact ha
  · exact hb

theorem SameButLog.andThen {k k' : State → Out} (h : SameButLog o o')
    (hk : ∀ {t t'}, EqButLog t t' → SameButLog (k t) (k' t')) : SameButLog (andThen o k) (andThen o' k') := by
  cases h with
  | next ht => exact hk ht
  | fault r => exact .fault r
  | refused r => exact .refused r

theorem SameButLog.requireTrailer {buf : List Byte} {total : Nat} (h : SameButLog o o') :
    SameButLog (requireTrailer buf total o) (requireTrailer buf total o') :=
  sameButLog_ite (.refused _) (sameButLog_ite (.refused _) h)

namespace EqButLog

/-! ### The preconditions -/

theorem requireInited (h : EqButLog s t) (ho : SameButLog o o') : SameButLog (requireInited s o) (requireInited t o') := by
  obtain ⟨l, rfl⟩ := h
  exact sameButLog_ite ho (.refused _)

theorem requireCrc (h : EqButLog s t) (ho : SameButLog o o') : SameButLog (requireCrc s o) (requireCrc t o') := by
  obtain ⟨l, rfl⟩ := h
  exact sameButLog_ite ho (.refused _)

theorem requireParser (h : EqButLog s t) (p : ParserState) (ho : SameButLog o o') :
    SameButLog (requireParser p s o) (requireParser p t o') := by
  obtain ⟨l, rfl⟩ := h
  exact sameButLog_ite ho (.refused _)

theorem requireProducer (h : EqButLog s t) (ho : SameButLog o o') :
    SameButLog (requireProducer s o) (requireProducer t o') := by
  obtain ⟨l, rfl⟩ := h
  unfold Machine.requireProducer
  rw [relog_ringCaller]
  cases s.ringCaller with
  | none => exact ho
  | some a => exact sameButLog_ite ho (.refused _)

theorem requireConsumer (h : EqButLog s t) (ho : SameButLog o o') :
    SameButLog (requireConsumer s o) (requireConsumer t o') := by
  obtain ⟨l, rfl⟩ := h
  unfold Machine.requireConsumer
  rw [relog_ringCaller]
  cases s.ringCaller with
  | none => exact ho
  | some a => exact sameButLog_ite ho (.refused _)

theorem answer (h : EqButLog s t) (r : Result) : EqButLog (answer r s) (answer r t) := by
  obtain ⟨l, rfl⟩ := h
  exact ⟨l, rfl⟩

theorem onItsOwn (h : EqButLog s t) (ho : SameButLog o o') : SameButLog (onItsOwn s o) (onItsOwn t o') := by
  have hold := h.answer .hold
  obtain ⟨l, rfl⟩ := h
  exact sameButLog_ite (.next hold) ho

theorem parserAgent (h : EqButLog s t) (ho : SameButLog o o') : SameButLog (parserAgent s o) (parserAgent t o') := by
  have hold := h.answer .hold
  obtain ⟨l, rfl⟩ := h
  exact sameButLog_ite (.next hold) ho

/-! ### The shared operations -/

theorem raise (h : EqButLog s t) (e : Event) : EqButLog (raise e s) (raise e t) := by
  obtain ⟨l, rfl⟩ := h
  exact ⟨l ++ [e], rfl⟩

theorem transmit (h : EqButLog s t) (f : List Byte) : EqButLog (transmit f s) (transmit f t) := by
  obtain ⟨l, rfl⟩ := h
  exact ⟨l, rfl⟩

theorem transmitReply (h : EqButLog s t) (f : Option (List Byte)) : EqButLog (transmitReply f s) (transmitReply f t) := by
  cases f with
  | none => exact h
  | some f => exact h.transmit f

theorem setClass (h : EqButLog s t) (c : CClass) (r : ClassRegs) : EqButLog (setClass c r s) (setClass c r t) := by
  obtain ⟨l, rfl⟩ := h
  cases c <;> exact ⟨l, rfl⟩

theorem resync (h : EqButLog s t) : EqButLog (resync s) (resync t) := by
  obtain ⟨l, rfl⟩ := h
  exact ⟨l, rfl⟩

theorem routeEnd (h : EqButLog s t) : EqButLog (routeEnd s) (routeEnd t) := by
  have hend := h.resync
  obtain ⟨l, rfl⟩ := h
  exact eqButLog_ite ⟨l, rfl⟩ hend

end EqButLog

/-- What is drawn from a state, and the state after the draw, do not depend on the log. -/
theorem drawRead_relog (s : State) (l : List Event) : drawRead (s.relog l) = ((drawRead s).1, (drawRead s).2.relog l) := by
  unfold drawRead State.relog
  dsimp only
  split <;> rfl

theorem drawCallback_relog (cb : Handle) (arg : List Byte) (s : State) (l : List Event) :
    drawCallback cb arg (s.relog l) = ((drawCallback cb arg s).1, (drawCallback cb arg s).2.relog l) := by
  unfold drawCallback State.relog
  dsimp only
  split <;> rfl

theorem drawBody_relog (body : List Byte) (s : State) (l : List Event) :
    drawBody body (s.relog l) = ((drawBody body s).1, (drawBody body s).2.relog l) := by
  unfold drawBody
  rw [relog_cfg]
  split <;> rfl

theorem transportTake_relog (k : Nat) (s : State) (l : List Event) :
    transportTake k (s.relog l) = ((transportTake k s).1, (transportTake k s).2.relog l) := by
  rw [transportTake_spec, transportTake_spec]
  rfl

theorem transportRead_relog (s : State) (l : List Event) :
    transportRead (s.relog l) = ((transportRead s).1, (transportRead s).2.relog l) := by
  unfold transportRead
  rw [drawRead_relog]
  exact transportTake_relog _ _ _

theorem promptRead_relog (s : State) (l : List Event) :
    promptRead (s.relog l) = ((promptRead s).1, (promptRead s).2.relog l) :=
  transportTake_relog _ _ _

theorem ringPut_relog (b : List Byte) (s : State) (l : List Event) :
    ringPut b (s.relog l) = (ringPut b s).map (State.relog · l) := by
  unfold ringPut
  rw [relog_cfg, relog_ringOcc]
  split <;> rfl

namespace EqButLog

/-! ### The RX agent -/

theorem rxDeliver (h : EqButLog s t) (chunk : List Byte) : EqButLog (rxDeliver chunk s) (rxDeliver chunk t) := by
  obtain ⟨l, rfl⟩ := h
  unfold Machine.rxDeliver
  rw [ringPut_relog, relog_cfg]
  cases ringPut chunk s with
  | some u => exact ⟨l, rfl⟩
  | none => cases s.cfg.rxOnFull <;> exact ⟨_, rfl⟩

theorem rxStepBy {read : State → List Byte × State}
    (hread : ∀ s l, read (s.relog l) = ((read s).1, (read s).2.relog l)) (h : EqButLog s t) :
    EqButLog (rxStepBy read s) (rxStepBy read t) := by
  obtain ⟨l, rfl⟩ := h
  have hafter : EqButLog (read s).2 ((read s).2.relog l) := ⟨l, rfl⟩
  rw [rxStepBy_eq, rxStepBy_eq, hread, relog_rxHold]
  exact eqButLog_ite ((rxDeliver ⟨l, rfl⟩ _).answer _)
    (eqButLog_ite (hafter.answer _) ((hafter.rxDeliver _).answer _))

theorem rxStep (h : EqButLog s t) : EqButLog (rxStep s) (rxStep t) := h.rxStepBy transportRead_relog

/-! ### The parser -/

theorem seekSyncOn (h : EqButLog s t) (r : List Byte) : EqButLog (seekSyncOn r s) (seekSyncOn r t) := by
  cases r with
  | nil => exact h.answer _
  | cons b _ =>
    have hbad := (h.raise (.badSync1 b)).answer .done
    obtain ⟨l, rfl⟩ := h
    exact eqButLog_ite hbad ⟨l, rfl⟩

theorem assemble (h : EqButLog s t) (r : List Byte) : EqButLog (assemble r s) (assemble r t) := by
  obtain ⟨l, rfl⟩ := h
  exact ⟨l, rfl⟩

theorem checkHeader (h : EqButLog s t) : EqButLog (checkHeader s) (checkHeader t) := by
  have hdrop : ∀ e, EqButLog (Machine.resync (Machine.raise e s)) (Machine.resync (Machine.raise e t)) :=
    fun e => (h.raise e).resync
  obtain ⟨l, rfl⟩ := h
  exact eqButLog_ite (hdrop _) (eqButLog_ite (hdrop _) (eqButLog_ite (hdrop _) ⟨l, rfl⟩))

theorem readLengthOn (h : EqButLog s t) (r : List Byte) : EqButLog (readLengthOn r s) (readLengthOn r t) := by
  have hassemble := h.assemble r
  have hhold := h.answer .hold
  obtain ⟨l, rfl⟩ := h
  exact eqButLog_ite (eqButLog_ite hhold (hassemble.answer _)) (hassemble.checkHeader.answer _)

theorem readBodyOn (h : EqButLog s t) (r : List Byte) : EqButLog (readBodyOn r s) (readBodyOn r t) := by
  have hassemble := h.assemble r
  have hhold := h.answer .hold
  obtain ⟨l, rfl⟩ := h
  exact eqButLog_ite ⟨l, rfl⟩ (eqButLog_ite hhold (hassemble.answer _))

theorem collectOn (h : EqButLog s t) (r : List Byte) : EqButLog (collectOn r s) (collectOn r t) := by
  have hseek := h.seekSyncOn r
  have hlength := h.readLengthOn r
  have hbody := h.readBodyOn r
  obtain ⟨l, rfl⟩ := h
  unfold Machine.collectOn
  rw [relog_ps]
  cases s.ps with
  | seekSync => exact hseek
  | readLength => exact hlength
  | readBody => exact hbody
  | route => exact ⟨l, rfl⟩

theorem collectStep (h : EqButLog s t) : EqButLog (collectStep s) (collectStep t) := by
  obtain ⟨l, rfl⟩ := h
  exact collectOn (s := (ringGet (wanted s) s).2) ⟨l, rfl⟩ (ringGet (wanted s) s).1

/-! ### ROUTE -/

theorem corrDeliver (h : EqButLog s t) (ty : U16) (body : List Byte) :
    EqButLog (corrDeliver ty body s) (corrDeliver ty body t) := by
  obtain ⟨l, rfl⟩ := h
  unfold Machine.corrDeliver
  rw [drawBody_relog]
  cases responseClass (typeSub ty) with
  | none => exact ⟨_, rfl⟩
  | some c =>
    dsimp only
    rw [relog_classRegs]
    exact (setClass ⟨l, rfl⟩ c _).answer _

theorem msWrite (h : EqButLog s t) (addr : U16) (data : List Byte) :
    EqButLog (msWrite addr data s) (msWrite addr data t) := by
  obtain ⟨l, rfl⟩ := h
  unfold Machine.msWrite
  dsimp only
  rw [relog_cfg, relog_mem]
  cases (msWriteLoop s.cfg.memSize addr.toNat 0 data s.mem).2 <;> exact ⟨_, rfl⟩

theorem msRead (h : EqButLog s t) (addr len : U16) : EqButLog (msRead addr len s) (msRead addr len t) := by
  obtain ⟨l, rfl⟩ := h
  have hs : EqButLog s (s.relog l) := ⟨l, rfl⟩
  unfold Machine.msRead
  refine eqButLog_ite (((hs.raise _).transmitReply _).answer _) ?_
  dsimp only
  rw [relog_cfg, relog_mem, relog_encodeIn]
  cases encodeIn s 0x6C02 (keyedPayload addr (memReadBytes s.mem addr.toNat (msReadLen s.cfg.memSize addr len))) with
  | none => exact (hs.raise _).answer _
  | some f => exact (hs.transmit f).answer _

theorem dispatchReply (h : EqButLog s t) (code : U16) (ret : List Byte) :
    EqButLog (dispatchReply code ret s) (dispatchReply code ret t) := by
  obtain ⟨l, rfl⟩ := h
  unfold Machine.dispatchReply
  rw [relog_encodeIn]
  cases encodeIn s 0x6C03 (keyedPayload code ret) <;> exact ⟨_, rfl⟩

theorem dispatchCall (h : EqButLog s t) (code : U16) (arg : List Byte) :
    SameButLog (dispatchCall code arg s) (dispatchCall code arg t) := by
  have hunknown := ((h.raise (.unknownFunction code)).transmitReply (encodeIn s 0x2C03 (errPayload wireErrorCode))).answer
    .unknownFunction
  obtain ⟨l, rfl⟩ := h
  unfold Machine.dispatchCall
  rw [relog_reg]
  cases lookup code s.reg with
  | none => exact .next hunknown
  | some cb =>
    dsimp only
    rw [drawCallback_relog]
    obtain ⟨a, u⟩ := drawCallback cb arg s
    have hu : EqButLog u (u.relog l) := ⟨l, rfl⟩
    cases a with
    | returns declared ret => exact sameButLog_ite (.next (hu.dispatchReply _ _)) (.refused _)
    | neverReturns => exact .next ⟨l, rfl⟩
    | usesContext => exact .refused _

theorem routeRequest (h : EqButLog s t) (ty : U16) (p : List Byte) :
    SameButLog (routeRequest ty p s) (routeRequest ty p t) := by
  have hdrop : ∀ e, SameButLog (.next (Machine.answer .done (Machine.raise e s)))
      (.next (Machine.answer .done (Machine.raise e t))) := fun e => .next ((h.raise e).answer _)
  rw [routeRequest_spec, routeRequest_spec]
  exact sameButLog_ite (sameButLog_ite (hdrop _) (.next (h.msWrite _ _))) <|
    sameButLog_ite (sameButLog_ite (hdrop _) (.next (h.msRead _ _))) <|
    sameButLog_ite (sameButLog_ite (hdrop _) (h.dispatchCall _ _)) (hdrop _)

theorem routeStep (h : EqButLog s t) : SameButLog (routeStep s) (routeStep t) := by
  obtain ⟨l, rfl⟩ := h
  have hs : EqButLog s (s.relog l) := ⟨l, rfl⟩
  refine SameButLog.andThen ?_ fun ht => .next ht.routeEnd
  exact sameButLog_ite (.next ((hs.raise _).answer _)) <|
    sameButLog_ite (hs.routeRequest _ _) (.next (hs.corrDeliver _ _))

/-! ### The runs of steps -/

theorem pump (fuel : Nat) (h : EqButLog s t) : SameButLog (pump fuel s) (pump fuel t) := by
  induction fuel generalizing s t with
  | zero => exact .next h
  | succ fuel ih =>
    have hroute := h.routeStep.andThen fun ht => ih ht
    have hcollect := ih h.collectStep
    have hrx := ih (h.rxStepBy promptRead_relog)
    obtain ⟨l, rfl⟩ := h
    exact sameButLog_ite (.next ⟨l, rfl⟩) <| sameButLog_ite hroute <| sameButLog_ite hcollect <|
      sameButLog_ite (.next ⟨l, rfl⟩) hrx

theorem res_eq (h : EqButLog s t) : t.res = s.res := by
  obtain ⟨l, rfl⟩ := h
  rfl

theorem parserStuck_eq (h : EqButLog s t) : t.parserStuck = s.parserStuck := by
  obtain ⟨l, rfl⟩ := h
  rfl

theorem coopParse (fuel : Nat) (h : EqButLog s t) : SameButLog (coopParse fuel s) (coopParse fuel t) := by
  induction fuel generalizing s t with
  | zero => exact .next (h.answer _)
  | succ fuel ih =>
    have hcollect := h.collectStep
    have hroute := h.routeStep
    obtain ⟨l, rfl⟩ := h
    refine sameButLog_ite (hroute.andThen fun ht => ?_) ?_
    · rw [ht.parserStuck_eq]
      exact .next (ht.answer _)
    · dsimp only
      rw [hcollect.res_eq]
      exact sameButLog_ite (.next hcollect) (ih hcollect)

theorem coopEnd (h : EqButLog s t) : EqButLog (coopEnd s) (coopEnd t) := by
  have hanswer := h.answer
  obtain ⟨l, rfl⟩ := h
  exact eqButLog_ite ⟨l, rfl⟩ (eqButLog_ite (hanswer _) (hanswer _))

theorem receiveBytes (h : EqButLog s t) (bs : List Byte) : SameButLog (receiveBytes bs s) (receiveBytes bs t) := by
  obtain ⟨l, rfl⟩ := h
  have hs : EqButLog s (s.relog l) := ⟨l, rfl⟩
  have happend : EqButLog { s with rxq := s.rxq ++ bs } { s.relog l with rxq := s.rxq ++ bs } := ⟨l, rfl⟩
  exact hs.requireInited <| hs.requireCrc <| sameButLog_ite (.next (happend.answer _)) <|
    happend.parserAgent (pump _ (happend.answer _))

/-! ### The instructions -/

theorem issueCall (h : EqButLog s t) (c : CClass) (ty : U16) (payload : List Byte) (echo : U16) :
    SameButLog (issueCall c ty payload echo s) (issueCall c ty payload echo t) := by
  have hset := h.setClass c
  have hlarge := h.answer .tooLarge
  obtain ⟨l, rfl⟩ := h
  unfold Machine.issueCall
  rw [relog_classRegs, relog_encodeIn]
  refine sameButLog_ite (.refused _) ?_
  cases encodeIn s ty payload with
  | none => exact .next hlarge
  | some f => exact .next (((hset _).transmit f).answer _)

theorem execWriteRemoteMemory (h : EqButLog s t) (addr len : U16) (data : List Byte) :
    SameButLog (execWriteRemoteMemory addr len data s) (execWriteRemoteMemory addr len data t) := by
  refine h.requireInited <| h.requireCrc <| sameButLog_ite (.refused _) ?_
  obtain ⟨l, rfl⟩ := h
  rw [relog_encodeIn]
  cases encodeIn s 0xEC01 (be16 addr ++ be16 len ++ data) <;> exact .next ⟨l, rfl⟩

theorem execRegisterFunction (h : EqButLog s t) (code : U16) (cb : Handle) :
    SameButLog (execRegisterFunction code cb s) (execRegisterFunction code cb t) := by
  have hanswer : ∀ r, SameButLog (.next (Machine.answer r s)) (.next (Machine.answer r t)) := fun r => .next (h.answer r)
  obtain ⟨l, rfl⟩ := h
  refine sameButLog_ite (hanswer _) ?_
  rw [relog_reg]
  cases s.reg with
  | nil => exact .next ⟨l, rfl⟩
  | cons e rest => exact sameButLog_ite (hanswer _) (sameButLog_ite (hanswer _) (.next ⟨l, rfl⟩))

theorem execRbPut (h : EqButLog s t) (b : List Byte) : SameButLog (execRbPut b s) (execRbPut b t) := by
  refine h.requireInited (h.requireProducer ?_)
  obtain ⟨l, rfl⟩ := h
  rw [ringPut_relog]
  cases ringPut b s <;> exact .next ⟨l, rfl⟩

theorem execRbGet (h : EqButLog s t) (m : Nat) : SameButLog (execRbGet m s) (execRbGet m t) := by
  refine h.requireInited (h.requireConsumer (h.parserAgent ?_))
  obtain ⟨l, rfl⟩ := h
  exact .next ⟨l, rfl⟩

theorem execEncodeFrame (h : EqButLog s t) (ty : U16) (payload : List Byte) :
    SameButLog (execEncodeFrame ty payload s) (execEncodeFrame ty payload t) := by
  refine h.requireCrc ?_
  obtain ⟨l, rfl⟩ := h
  rw [relog_encodeIn]
  cases encodeIn s ty payload <;> exact .next ⟨l, rfl⟩

theorem execCorrWait (h : EqButLog s t) (c : CClass) : SameButLog (execCorrWait c s) (execCorrWait c t) := by
  have hset := h.setClass c
  have hhold := h.answer .hold
  refine h.requireInited ?_
  obtain ⟨l, rfl⟩ := h
  dsimp only
  rw [relog_classRegs, relog_echoValue]
  exact sameButLog_ite (.refused _) <| sameButLog_ite (.next ((hset _).answer _)) <|
    sameButLog_ite (.next ((hset _).answer _)) (.next hhold)

/-- A PARSE instruction, of whichever of the four states (R190). -/
theorem parse (h : EqButLog s t) (p : ParserState) (ho : SameButLog o o') :
    SameButLog (Machine.onItsOwn s <| Machine.parserAgent s <| Machine.requireParser p s o)
      (Machine.onItsOwn t <| Machine.parserAgent t <| Machine.requireParser p t o') :=
  h.onItsOwn (h.parserAgent (h.requireParser p ho))

theorem execCoopStep (h : EqButLog s t) : SameButLog (execCoopStep s) (execCoopStep t) := by
  have hrx := h.rxStep
  have hruns := h.parserAgent <| (hrx.coopParse (ringOcc (Machine.rxStep s) + 2)).andThen fun hu => .next hu.coopEnd
  refine h.requireInited (h.requireCrc ?_)
  obtain ⟨l, rfl⟩ := h
  obtain ⟨l', hl⟩ := hrx
  have hocc : ringOcc (Machine.rxStep (s.relog l)) = ringOcc (Machine.rxStep s) := by rw [hl, relog_ringOcc]
  dsimp only
  rw [hocc]
  exact sameButLog_ite (.refused _) hruns

/-- Every instruction. -/
theorem exec (h : EqButLog s t) (i : Instr) : SameButLog (exec i s) (exec i t) := by
  have hs := h
  obtain ⟨l, rfl⟩ := h
  cases i with
  | writeReq f | readReq f | funcReq f | readRsp f | funcRsp f | readErr f | funcErr f => exact hs.receiveBytes _
  | initContext handle readFn writeFn =>
    exact hs.requireCrc (sameButLog_ite (.refused _) (.next ⟨[], rfl⟩))
  | writeRemoteMemory addr len data => exact hs.execWriteRemoteMemory addr len data
  | readRemoteMemory addr len | callRemoteFunction code arg =>
    exact hs.requireInited (hs.requireCrc (hs.issueCall _ _ _ _))
  | registerFunction code cb => exact hs.execRegisterFunction code cb
  | listFunctions | rbSize | corrTick | tx f => exact hs.requireInited (.next ⟨l, rfl⟩)
  | rbPut b => exact hs.execRbPut b
  | rbGet m => exact hs.execRbGet m
  | crcInit => exact .next ⟨l, rfl⟩
  | crcChecksum data n => exact hs.requireCrc (sameButLog_ite (.next ⟨l, rfl⟩) (.refused _))
  | crcStore buf total | crcVerify buf total => exact hs.requireCrc (SameButLog.requireTrailer (.next ⟨l, rfl⟩))
  | encodeFrame ty payload => exact hs.execEncodeFrame ty payload
  | parseSeekSync | parseReadLength | parseReadBody => exact hs.requireInited (hs.parse _ (.next hs.collectStep))
  | parseRoute => exact hs.requireInited (hs.requireCrc (hs.parse _ hs.routeStep))
  | corrDeliver ty payload => exact hs.requireInited (hs.parserAgent (.next (hs.corrDeliver _ _)))
  | corrWait c => exact hs.execCorrWait c
  | corrValidate c r =>
    refine hs.requireInited ?_
    rw [relog_echoValue]
    exact .next (hs.answer _)
  | msWrite addr data => exact hs.requireInited (hs.parserAgent (.next (hs.msWrite addr data)))
  | msRead addr len => exact hs.requireInited (hs.requireCrc (hs.parserAgent (.next (hs.msRead addr len))))
  | dispatch code arg => exact hs.requireInited (hs.requireCrc (hs.parserAgent (hs.dispatchCall code arg)))
  | rxStep => exact hs.requireInited (hs.onItsOwn (.next hs.rxStep))
  | coopStep => exact hs.execCoopStep

theorem execAct (h : EqButLog s t) (act : EnvAct) : SameButLog (execAct act s) (execAct act t) := by
  have hs := h
  obtain ⟨l, rfl⟩ := h
  cases act with
  | hostRead addr => exact hs.requireInited (sameButLog_ite (.fault _) (.next ⟨l, rfl⟩))
  | rxAppend _ | txTake _ | answerRead _ | answerCallback _ | ringCaller _ => exact .next ⟨l, rfl⟩

theorem withPort (h : EqButLog s t) (rest : List Byte) : EqButLog { s with port := rest } { t with port := rest } := by
  obtain ⟨l, rfl⟩ := h
  exact ⟨l, rfl⟩

/-- What the port holds besides instructions. -/
theorem stepOther (h : EqButLog s t) (e : DecodeError) : SameButLog (stepOther e s) (stepOther e t) := by
  cases e with
  | empty => exact .next h
  | truncated | badClass _ => exact .refused _
  | truncatedFrame bs => exact (h.withPort _).receiveBytes bs
  | falseStart bs rest => exact (h.withPort rest).receiveBytes bs
  | unknownType ty f rest => exact (h.withPort rest).receiveBytes _
  | unknownSelect b rest =>
    unfold Machine.stepOther
    dsimp only
    cases decodeAct b rest with
    | ok p => exact (h.withPort p.2).execAct p.1
    | error r => exact .refused r

theorem step (h : EqButLog s t) : SameButLog (step s) (step t) := by
  have hport : t.port = s.port := by obtain ⟨l, rfl⟩ := h; rfl
  unfold Machine.step
  rw [hport]
  cases decode s.port with
  | ok p => exact (h.withPort p.2).exec p.1
  | error e => exact h.stepOther e

end EqButLog

/-- Settles O10: the two states agree but for the log, so their steps do (`EqButLog.step`). -/
theorem logIsNeverRead : Obligations.LogIsNeverRead := by
  intro s l
  have hstep : SameButLog (step s) (step { s with log := l }) := EqButLog.step ⟨l, rfl⟩
  generalize step { s with log := l } = o' at hstep ⊢
  generalize step s = o at hstep ⊢
  cases hstep with
  | next h =>
    obtain ⟨l', rfl⟩ := h
    exact ⟨l', rfl⟩
  | fault r => rfl
  | refused r => rfl

end Sys2Proof.Machine
end

section
/-! PROOF. Decode and encode agree (spec/30_encoding.md R90 to R106; log entry 4), as one equivalence: a byte string decodes to an
instruction and a rest exactly when the instruction is well-formed and the string is its encoding followed by the rest. -/

namespace Sys2Proof

open BitVec (extractLsb' extractLsb'_append_eq_of_le extractLsb'_append_eq_of_add_le extractLsb'_eq_self
  extractLsb'_append_extractLsb'_eq_extractLsb')

/-! ### Words of two and four bytes -/

theorem be16_append (a b : Byte) : be16 (a ++ b) = [a, b] :=
  congrArg₂ (fun x y => [x, y]) ((extractLsb'_append_eq_of_le (Nat.le_refl 8)).trans extractLsb'_eq_self)
    ((extractLsb'_append_eq_of_add_le (Nat.le_refl 8)).trans extractLsb'_eq_self)

theorem be32_append (a b c d : Byte) : be32 (a ++ b ++ (c ++ d)) = [a, b, c, d] := by
  have hhigh (start : Nat) : extractLsb' (16 + start) 8 (a ++ b ++ (c ++ d)) = extractLsb' start 8 (a ++ b) := by
    rw [extractLsb'_append_eq_of_le (by omega)]
    exact congrArg (extractLsb' · 8 (a ++ b)) (Nat.add_sub_cancel_left 16 start)
  have hlow (start : Nat) (h : start + 8 ≤ 16) : extractLsb' start 8 (a ++ b ++ (c ++ d)) = extractLsb' start 8 (c ++ d) :=
    extractLsb'_append_eq_of_add_le h
  have hab := be16_append a b
  have hcd := be16_append c d
  simp only [be16, List.cons.injEq, and_true] at hab hcd
  simp only [be32, List.cons.injEq, and_true]
  exact ⟨(hhigh 8).trans hab.1, (hhigh 0).trans hab.2, (hlow 8 (by omega)).trans hcd.1, (hlow 0 (by omega)).trans hcd.2⟩

theorem drop_eq_byteAt_cons {bs : List Byte} {n : Nat} (h : n < bs.length) : bs.drop n = byteAt bs n :: bs.drop (n + 1) := by
  rw [List.drop_eq_getElem_cons h, byteAt, List.getD_eq_getElem _ _ h]

/-- The two bytes at an index are the big-endian form of the word read there. -/
theorem drop_eq_be16 {bs : List Byte} {n : Nat} (h : n + 2 ≤ bs.length) :
    bs.drop n = be16 (u16be bs n) ++ bs.drop (n + 2) := by
  rw [u16be, be16_append, drop_eq_byteAt_cons (by omega), drop_eq_byteAt_cons (by omega)]
  rfl

theorem drop_eq_be32 {bs : List Byte} {n : Nat} (h : n + 4 ≤ bs.length) :
    bs.drop n = be32 (u32be bs n) ++ bs.drop (n + 4) := by
  rw [u32be, be32_append, drop_eq_byteAt_cons (by omega), drop_eq_byteAt_cons (by omega), drop_eq_byteAt_cons (by omega),
    drop_eq_byteAt_cons (by omega)]
  rfl

/-! ### The type field (R93) -/

@[simp] theorem typeReq_frameType (req : Bool) (hi : BitVec 7) (sub : Byte) : typeReq (frameType req hi sub) = req := by
  show BitVec.getLsbD (BitVec.ofBool req ++ hi ++ sub : BitVec (1 + 7 + 8)) 15 = req
  simp only [BitVec.getLsbD_append]
  simp

@[simp] theorem typeHi_frameType (req : Bool) (hi : BitVec 7) (sub : Byte) : typeHi (frameType req hi sub) = hi :=
  (extractLsb'_append_eq_of_le (Nat.le_refl 8)).trans
    ((extractLsb'_append_eq_of_add_le (Nat.le_refl 7)).trans extractLsb'_eq_self)

@[simp] theorem typeSub_frameType (req : Bool) (hi : BitVec 7) (sub : Byte) : typeSub (frameType req hi sub) = sub :=
  (extractLsb'_append_eq_of_add_le (Nat.le_refl 8)).trans extractLsb'_eq_self

theorem frameType_of_fields (ty : U16) : frameType (typeReq ty) (typeHi ty) (typeSub ty) = ty := by
  have hreq : BitVec.ofBool (typeReq ty) = extractLsb' 15 1 ty := by
    ext i h
    obtain rfl : i = 0 := by omega
    simp [typeReq]
  have hhigh : extractLsb' 15 1 ty ++ typeHi ty = extractLsb' 8 8 ty := extractLsb'_append_extractLsb'_eq_extractLsb' rfl
  rw [frameType, hreq]
  exact (congrArg (· ++ typeSub ty) hhigh).trans (append_extract16 ty)

/-! ### Operands: what a reader reads is what its writer writes -/

/-- The reader `get` and the writer `put` agree on the operands `ok`: a string reads as an operand and a rest exactly when it is
the operand's bytes followed by the rest. -/
def Codec {α : Type} (get : List Byte → Option (α × List Byte)) (put : α → List Byte) (ok : α → Prop) : Prop :=
  ∀ bs a rest, get bs = some (a, rest) ↔ ok a ∧ bs = put a ++ rest

theorem codec_u16 : Codec getU16 be16 fun _ => True := by
  intro bs a rest
  constructor
  · intro h
    simp only [getU16, Option.ite_none_right_eq_some, Option.some.injEq, Prod.mk.injEq] at h
    obtain ⟨hlen, rfl, rfl⟩ := h
    exact ⟨trivial, drop_eq_be16 (n := 0) hlen⟩
  · rintro ⟨-, rfl⟩
    rw [getU16, if_pos (by simp), show u16be (be16 a ++ rest) 0 = a from u16be_be16 [] a rest]
    rfl

theorem codec_u32 : Codec getU32 be32 fun _ => True := by
  intro bs a rest
  constructor
  · intro h
    simp only [getU32, Option.ite_none_right_eq_some, Option.some.injEq, Prod.mk.injEq] at h
    obtain ⟨hlen, rfl, rfl⟩ := h
    exact ⟨trivial, drop_eq_be32 (n := 0) hlen⟩
  · rintro ⟨-, rfl⟩
    rw [getU32, if_pos (by simp), show u32be (be32 a ++ rest) 0 = a from u32be_be32 [] a rest]
    rfl

theorem codec_nat : Codec getNat putNat fun n => n < 4294967296 := by
  intro bs n rest
  simp only [getNat, Option.map_eq_some_iff, Prod.exists, codec_u32 bs, Prod.mk.injEq, putNat]
  constructor
  · rintro ⟨w, _, ⟨-, rfl⟩, rfl, rfl⟩
    exact ⟨w.isLt, by rw [BitVec.ofNat_toNat, BitVec.setWidth_eq]⟩
  · rintro ⟨hn, rfl⟩
    exact ⟨_, _, ⟨trivial, rfl⟩, by rw [BitVec.toNat_ofNat, Nat.mod_eq_of_lt hn], rfl⟩

theorem getBytes_eq_some {n : Nat} {bs b rest : List Byte} :
    getBytes n bs = some (b, rest) ↔ b.length = n ∧ bs = b ++ rest := by
  simp only [getBytes, Option.ite_none_right_eq_some, Option.some.injEq, Prod.mk.injEq]
  constructor
  · rintro ⟨hlen, rfl, rfl⟩
    exact ⟨List.length_take_of_le hlen, (List.take_append_drop n bs).symm⟩
  · rintro ⟨rfl, rfl⟩
    exact ⟨by simp, List.take_left, List.drop_left⟩

theorem codec_str : Codec getStr putStr fun b => b.length < 4294967296 := by
  intro bs b rest
  simp only [getStr, Option.bind_eq_some_iff, Prod.exists, codec_nat bs, getBytes_eq_some, putStr]
  constructor
  · rintro ⟨_, _, ⟨hn, rfl⟩, rfl, rfl⟩
    exact ⟨hn, (List.append_assoc ..).symm⟩
  · rintro ⟨hb, rfl⟩
    exact ⟨_, _, ⟨hb, List.append_assoc ..⟩, rfl, rfl⟩

theorem codec_str16 : Codec getStr16 (fun b => be16 (len16 b) ++ b) fun b => b.length < 65536 := by
  intro bs b rest
  simp only [getStr16, Option.bind_eq_some_iff, Prod.exists, codec_u16 bs, getBytes_eq_some, len16]
  constructor
  · rintro ⟨w, _, ⟨-, rfl⟩, hb, rfl⟩
    exact ⟨hb ▸ w.isLt, by rw [hb, BitVec.ofNat_toNat, BitVec.setWidth_eq, List.append_assoc]⟩
  · rintro ⟨hb, rfl⟩
    exact ⟨_, _, ⟨trivial, List.append_assoc ..⟩, by rw [BitVec.toNat_ofNat, Nat.mod_eq_of_lt hb], rfl⟩

theorem Codec.pair {α β : Type} {ga : List Byte → Option (α × List Byte)} {pa : α → List Byte} {oka : α → Prop}
    {gb : List Byte → Option (β × List Byte)} {pb : β → List Byte} {okb : β → Prop} (ha : Codec ga pa oka)
    (hb : Codec gb pb okb) : Codec (get2 ga gb) (fun p => pa p.1 ++ pb p.2) fun p => oka p.1 ∧ okb p.2 := by
  rintro bs ⟨a, b⟩ rest
  simp only [get2, Option.bind_eq_some_iff, Option.map_eq_some_iff, Prod.exists, ha bs, hb _, Prod.mk.injEq]
  constructor
  · rintro ⟨_, _, ⟨hoka, rfl⟩, _, _, ⟨hokb, rfl⟩, ⟨rfl, rfl⟩, rfl⟩
    exact ⟨⟨hoka, hokb⟩, (List.append_assoc ..).symm⟩
  · rintro ⟨⟨hoka, hokb⟩, rfl⟩
    exact ⟨a, _, ⟨hoka, List.append_assoc ..⟩, b, rest, ⟨hokb, rfl⟩, ⟨rfl, rfl⟩, rfl⟩

/-- A class operand, or nothing where the byte names no class. -/
def getClass (bs : List Byte) : Option (CClass × List Byte) :=
  (getU8 bs).bind fun p => (classOf p.1).map fun c => (c, p.2)

theorem classOf_eq_some {b : Byte} {c : CClass} : classOf b = some c ↔ putClass c = [b] := by
  unfold classOf
  split
  next h0 => obtain rfl : b = 0 := BitVec.eq_of_toNat_eq h0; cases c <;> decide
  next h1 => obtain rfl : b = 1 := BitVec.eq_of_toNat_eq h1; cases c <;> decide
  next h0 h1 =>
    have hne0 : 0#8 ≠ b := fun h => h0 (congrArg BitVec.toNat h).symm
    have hne1 : 1#8 ≠ b := fun h => h1 (congrArg BitVec.toNat h).symm
    cases c <;> simp [putClass, hne0, hne1]

theorem codec_class : Codec getClass putClass fun _ => True := by
  intro bs c rest
  simp only [getClass, Option.bind_eq_some_iff, Option.map_eq_some_iff, Prod.exists, Prod.mk.injEq]
  constructor
  · rintro ⟨b, tail, hget, c, hc, rfl, rfl⟩
    rcases bs with _ | ⟨b', tail'⟩ <;> cases hget
    exact ⟨trivial, by rw [classOf_eq_some.mp hc]; rfl⟩
  · rintro ⟨-, rfl⟩
    cases c <;> exact ⟨_, _, rfl, _, rfl, rfl, rfl⟩

theorem codec_nothing : Codec (fun bs => some ((), bs)) (fun _ => []) fun _ => True := by
  intro bs _ rest
  simp

/-- The operands of a row: their reader and their writer, which agree on the operands that fit the layout (log entry 4). -/
structure Operands (α : Type) where
  get : List Byte → Option (α × List Byte)
  put : α → List Byte
  ok : α → Prop
  codec : Codec get put ok

namespace Operands

/-- A u16. -/
def word16 : Operands U16 := ⟨_, _, _, codec_u16⟩
/-- A handle or a u32. -/
def word32 : Operands U32 := ⟨_, _, _, codec_u32⟩
/-- A natural number. -/
def number : Operands Nat := ⟨_, _, _, codec_nat⟩
/-- A byte string, its length in four bytes. -/
def str : Operands (List Byte) := ⟨_, _, _, codec_str⟩
/-- A byte string, its length in two bytes. -/
def str16 : Operands (List Byte) := ⟨_, _, _, codec_str16⟩
/-- A correlation class. -/
def cclass : Operands CClass := ⟨_, _, _, codec_class⟩
/-- No operand. -/
def nothing : Operands Unit := ⟨_, _, _, codec_nothing⟩
/-- One operand after the other. -/
def pair {α β : Type} (a : Operands α) (b : Operands β) : Operands (α × β) := ⟨_, _, _, a.codec.pair b.codec⟩

@[simp] theorem word16_ok (a : U16) : word16.ok a ↔ True := Iff.rfl
@[simp] theorem word32_ok (a : U32) : word32.ok a ↔ True := Iff.rfl
@[simp] theorem number_ok (n : Nat) : number.ok n ↔ n < 4294967296 := Iff.rfl
@[simp] theorem str_ok (b : List Byte) : str.ok b ↔ b.length < 4294967296 := Iff.rfl
@[simp] theorem str16_ok (b : List Byte) : str16.ok b ↔ b.length < 65536 := Iff.rfl
@[simp] theorem cclass_ok (c : CClass) : cclass.ok c ↔ True := Iff.rfl
@[simp] theorem nothing_ok (a : Unit) : nothing.ok a ↔ True := Iff.rfl
@[simp] theorem pair_ok {α β : Type} (a : Operands α) (b : Operands β) (p : α × β) :
    (a.pair b).ok p ↔ a.ok p.1 ∧ b.ok p.2 := Iff.rfl
@[simp] theorem pair_put {α β : Type} (a : Operands α) (b : Operands β) (p : α × β) :
    (a.pair b).put p = a.put p.1 ++ b.put p.2 := rfl
@[simp] theorem word16_put (a : U16) : word16.put a = be16 a := rfl
@[simp] theorem word32_put (a : U32) : word32.put a = be32 a := rfl
@[simp] theorem str_put (b : List Byte) : str.put b = putStr b := rfl

end Operands

/-! ### Host commands and unit operations, row by row (R104, R106) -/

/-- A row of the table: its select code, what its operands are, and the instruction they make. -/
structure Row {α : Type} (code : Byte) (ops : Operands α) (mk : α → Instr) : Prop where
  selects : ∀ bs i rest, decodeSelect code bs = .ok (i, rest) ↔ ∃ a, ops.get bs = some (a, rest) ∧ mk a = i
  encodes : ∀ a, encode (mk a) = code :: ops.put a
  wf : ∀ a, (mk a).wf = true ↔ ops.ok a

section

variable {α : Type} {code b : Byte} {ops : Operands α} {mk : α → Instr} {bs rest : List Byte} {i j : Instr}

theorem Row.sound (h : Row code ops mk) (hb : b.toNat = code.toNat) (hd : decodeSelect b bs = .ok (i, rest)) :
    i.wf = true ∧ b :: bs = encode i ++ rest := by
  obtain rfl := BitVec.eq_of_toNat_eq hb
  obtain ⟨a, ha, rfl⟩ := (h.selects _ _ _).mp hd
  obtain ⟨hok, rfl⟩ := (ops.codec _ _ _).mp ha
  exact ⟨(h.wf a).mpr hok, by rw [h.encodes, List.cons_append]⟩

theorem Row.complete (h : Row code ops mk) {a : α} (hcode : code ≠ sync1) (hwf : (mk a).wf = true) (rest : List Byte) :
    decode (encode (mk a) ++ rest) = .ok (mk a, rest) := by
  rw [h.encodes, List.cons_append, decode, if_neg hcode]
  exact (h.selects _ _ _).mpr ⟨a, (ops.codec _ _ _).mpr ⟨(h.wf a).mp hwf, rfl⟩, rfl⟩

theorem decoded_eq_ok {p : Option (α × List Byte)} : decoded p mk = .ok (i, rest) ↔ ∃ a, p = some (a, rest) ∧ mk a = i := by
  rcases p with _ | ⟨a, tail⟩
  · simp [decoded]
  · simp only [decoded, Except.ok.injEq, Prod.mk.injEq, Option.some.injEq]
    constructor
    · rintro ⟨rfl, rfl⟩; exact ⟨a, ⟨rfl, rfl⟩, rfl⟩
    · rintro ⟨_, ⟨rfl, rfl⟩, rfl⟩; exact ⟨rfl, rfl⟩

theorem decodeClass_eq_ok {k : CClass → List Byte → Except DecodeError (Instr × List Byte)} :
    decodeClass bs k = .ok (i, rest) ↔ ∃ c tail, getClass bs = some (c, tail) ∧ k c tail = .ok (i, rest) := by
  rcases bs with _ | ⟨b, tail⟩
  · simp [decodeClass, getClass, getU8]
  · cases hc : classOf b <;> simp [decodeClass, getClass, getU8, hc]

theorem bare_selects : (.ok (i, bs) : Except DecodeError (Instr × List Byte)) = .ok (j, rest) ↔
    ∃ a, Operands.nothing.get bs = some (a, rest) ∧ i = j :=
  decoded_eq_ok (p := some ((), bs)) (mk := fun _ => i)

theorem corrWait_selects : decodeSelect 0x51 bs = .ok (i, rest) ↔
    ∃ c, Operands.cclass.get bs = some (c, rest) ∧ .corrWait c = i := by
  simp [decodeSelect, decodeClass_eq_ok, Operands.cclass]

theorem corrValidate_selects : decodeSelect 0x53 bs = .ok (i, rest) ↔
    ∃ p, (Operands.cclass.pair Operands.str).get bs = some (p, rest) ∧ .corrValidate p.1 p.2 = i := by
  show decodeClass bs (fun c tail => decoded (getStr tail) (.corrValidate c)) = _ ↔ _
  rw [decodeClass_eq_ok]
  simp only [decoded_eq_ok, Operands.pair, get2, Option.bind_eq_some_iff, Option.map_eq_some_iff, Prod.exists, Prod.mk.injEq]
  constructor
  · rintro ⟨c, tail, hc, r, hr, rfl⟩
    exact ⟨c, r, ⟨c, tail, hc, r, rest, hr, ⟨rfl, rfl⟩, rfl⟩, rfl⟩
  · rintro ⟨_, _, ⟨c, tail, hc, r, _, hr, ⟨rfl, rfl⟩, rfl⟩, rfl⟩
    exact ⟨c, tail, hc, r, hr, rfl⟩

end

open Operands

/-! The layout of each row (log entry 4). -/

theorem row_initContext : Row 0x40 (word32.pair (word32.pair word32)) (fun p => .initContext p.1 p.2.1 p.2.2) :=
  ⟨fun _ _ _ => decoded_eq_ok, fun _ => by simp [encode], fun _ => by simp [Instr.wf]⟩

theorem row_writeRemoteMemory : Row 0x41 (word16.pair (word16.pair str)) (fun p => .writeRemoteMemory p.1 p.2.1 p.2.2) :=
  ⟨fun _ _ _ => decoded_eq_ok, fun _ => by simp [encode], fun _ => by simp [Instr.wf]⟩

theorem row_readRemoteMemory : Row 0x42 (word16.pair word16) (fun p => .readRemoteMemory p.1 p.2) :=
  ⟨fun _ _ _ => decoded_eq_ok, fun _ => rfl, fun _ => by simp [Instr.wf]⟩

theorem row_registerFunction : Row 0x43 (word16.pair word32) (fun p => .registerFunction p.1 p.2) :=
  ⟨fun _ _ _ => decoded_eq_ok, fun _ => rfl, fun _ => by simp [Instr.wf]⟩

theorem row_callRemoteFunction : Row 0x44 (word16.pair str) (fun p => .callRemoteFunction p.1 p.2) :=
  ⟨fun _ _ _ => decoded_eq_ok, fun _ => rfl, fun _ => by simp [Instr.wf]⟩

theorem row_listFunctions : Row 0x45 nothing (fun _ => .listFunctions) :=
  ⟨fun _ _ _ => bare_selects, fun _ => rfl, fun _ => by simp [Instr.wf]⟩

theorem row_rbPut : Row 0x10 str .rbPut :=
  ⟨fun _ _ _ => decoded_eq_ok, fun _ => rfl, fun _ => by simp [Instr.wf]⟩

theorem row_rbGet : Row 0x11 number .rbGet :=
  ⟨fun _ _ _ => decoded_eq_ok, fun _ => rfl, fun _ => by simp [Instr.wf]⟩

theorem row_rbSize : Row 0x12 nothing (fun _ => .rbSize) :=
  ⟨fun _ _ _ => bare_selects, fun _ => rfl, fun _ => by simp [Instr.wf]⟩

theorem row_crcInit : Row 0x20 nothing (fun _ => .crcInit) :=
  ⟨fun _ _ _ => bare_selects, fun _ => rfl, fun _ => by simp [Instr.wf]⟩

theorem row_crcChecksum : Row 0x21 (str.pair number) (fun p => .crcChecksum p.1 p.2) :=
  ⟨fun _ _ _ => decoded_eq_ok, fun _ => rfl, fun _ => by simp [Instr.wf]⟩

theorem row_crcStore : Row 0x22 (str.pair number) (fun p => .crcStore p.1 p.2) :=
  ⟨fun _ _ _ => decoded_eq_ok, fun _ => rfl, fun _ => by simp [Instr.wf]⟩

theorem row_crcVerify : Row 0x23 (str.pair number) (fun p => .crcVerify p.1 p.2) :=
  ⟨fun _ _ _ => decoded_eq_ok, fun _ => rfl, fun _ => by simp [Instr.wf]⟩

theorem row_encodeFrame : Row 0x30 (word16.pair str) (fun p => .encodeFrame p.1 p.2) :=
  ⟨fun _ _ _ => decoded_eq_ok, fun _ => rfl, fun _ => by simp [Instr.wf]⟩

theorem row_parseSeekSync : Row 0x31 nothing (fun _ => .parseSeekSync) :=
  ⟨fun _ _ _ => bare_selects, fun _ => rfl, fun _ => by simp [Instr.wf]⟩

theorem row_parseReadLength : Row 0x32 nothing (fun _ => .parseReadLength) :=
  ⟨fun _ _ _ => bare_selects, fun _ => rfl, fun _ => by simp [Instr.wf]⟩

theorem row_parseReadBody : Row 0x33 nothing (fun _ => .parseReadBody) :=
  ⟨fun _ _ _ => bare_selects, fun _ => rfl, fun _ => by simp [Instr.wf]⟩

theorem row_parseRoute : Row 0x34 nothing (fun _ => .parseRoute) :=
  ⟨fun _ _ _ => bare_selects, fun _ => rfl, fun _ => by simp [Instr.wf]⟩

theorem row_corrDeliver : Row 0x50 (word16.pair str) (fun p => .corrDeliver p.1 p.2) :=
  ⟨fun _ _ _ => decoded_eq_ok, fun _ => rfl, fun _ => by simp [Instr.wf]⟩

theorem row_corrWait : Row 0x51 cclass .corrWait :=
  ⟨fun _ _ _ => corrWait_selects, fun _ => rfl, fun _ => by simp [Instr.wf]⟩

theorem row_corrTick : Row 0x52 nothing (fun _ => .corrTick) :=
  ⟨fun _ _ _ => bare_selects, fun _ => rfl, fun _ => by simp [Instr.wf]⟩

theorem row_corrValidate : Row 0x53 (cclass.pair str) (fun p => .corrValidate p.1 p.2) :=
  ⟨fun _ _ _ => corrValidate_selects, fun _ => rfl, fun _ => by simp [Instr.wf]⟩

theorem row_msWrite : Row 0x60 (word16.pair str16) (fun p => .msWrite p.1 p.2) :=
  ⟨fun _ _ _ => decoded_eq_ok, fun _ => rfl, fun _ => by simp [Instr.wf]⟩

theorem row_msRead : Row 0x61 (word16.pair word16) (fun p => .msRead p.1 p.2) :=
  ⟨fun _ _ _ => decoded_eq_ok, fun _ => rfl, fun _ => by simp [Instr.wf]⟩

theorem row_dispatch : Row 0x70 (word16.pair str) (fun p => .dispatch p.1 p.2) :=
  ⟨fun _ _ _ => decoded_eq_ok, fun _ => rfl, fun _ => by simp [Instr.wf]⟩

theorem row_rxStep : Row 0x80 nothing (fun _ => .rxStep) :=
  ⟨fun _ _ _ => bare_selects, fun _ => rfl, fun _ => by simp [Instr.wf]⟩

theorem row_tx : Row 0x81 str .tx :=
  ⟨fun _ _ _ => decoded_eq_ok, fun _ => rfl, fun _ => by simp [Instr.wf]⟩

theorem row_coopStep : Row 0x82 nothing (fun _ => .coopStep) :=
  ⟨fun _ _ _ => bare_selects, fun _ => rfl, fun _ => by simp [Instr.wf]⟩

/-- What a select code starts is well-formed, and was read from its encoding. -/
theorem decodeSelect_sound {b : Byte} {bs rest : List Byte} {i : Instr} (h : decodeSelect b bs = .ok (i, rest)) :
    i.wf = true ∧ b :: bs = encode i ++ rest := by
  have hd := h
  unfold decodeSelect at hd
  split at hd
  next hb => exact row_initContext.sound hb h
  next hb => exact row_writeRemoteMemory.sound hb h
  next hb => exact row_readRemoteMemory.sound hb h
  next hb => exact row_registerFunction.sound hb h
  next hb => exact row_callRemoteFunction.sound hb h
  next hb => exact row_listFunctions.sound hb h
  next hb => exact row_rbPut.sound hb h
  next hb => exact row_rbGet.sound hb h
  next hb => exact row_rbSize.sound hb h
  next hb => exact row_crcInit.sound hb h
  next hb => exact row_crcChecksum.sound hb h
  next hb => exact row_crcStore.sound hb h
  next hb => exact row_crcVerify.sound hb h
  next hb => exact row_encodeFrame.sound hb h
  next hb => exact row_parseSeekSync.sound hb h
  next hb => exact row_parseReadLength.sound hb h
  next hb => exact row_parseReadBody.sound hb h
  next hb => exact row_parseRoute.sound hb h
  next hb => exact row_corrDeliver.sound hb h
  next hb => exact row_corrWait.sound hb h
  next hb => exact row_corrTick.sound hb h
  next hb => exact row_corrValidate.sound hb h
  next hb => exact row_msWrite.sound hb h
  next hb => exact row_msRead.sound hb h
  next hb => exact row_dispatch.sound hb h
  next hb => exact row_rxStep.sound hb h
  next hb => exact row_tx.sound hb h
  next hb => exact row_coopStep.sound hb h
  next => cases hd

/-! ### Frames (R90, R92, R101) -/

theorem eq_frameType {ty : U16} {req : Bool} {hi : BitVec 7} {sub : Byte} (hreq : typeReq ty = req) (hhi : hi = typeHi ty)
    (hsub : (typeSub ty).toNat = sub.toNat) : ty = frameType req hi sub := by
  rw [← hreq, hhi, ← BitVec.eq_of_toNat_eq hsub, frameType_of_fields]

/-- The row a frame's type names is one whose encoding is the frame. -/
theorem frameInstr_sound {ty : U16} {f : Frame} {i : Instr} (hhi : f.hi = typeHi ty) (hf : frameWf f = true)
    (h : frameInstr ty f = some i) : i.wf = true ∧ encode i = frameBytes ty f := by
  have row {req : Bool} {sub : Byte} (hreq : typeReq ty = req) (hsub : (typeSub ty).toNat = sub.toNat) :
      frameBytes (frameType req f.hi sub) f = frameBytes ty f := by rw [← eq_frameType hreq hhi hsub]
  unfold frameInstr at h
  split at h
  next hreq =>
    split at h <;> cases h
    next hsub => exact ⟨hf, row (sub := 1) hreq hsub⟩
    next hsub => exact ⟨hf, row (sub := 2) hreq hsub⟩
    next hsub => exact ⟨hf, row (sub := 3) hreq hsub⟩
  next hreq =>
    replace hreq := eq_false_of_ne_true hreq
    split at h <;> cases h
    next hsub =>
      split
      next herr => exact ⟨by simp [Instr.wf, herr, hf], row (sub := 2) hreq hsub⟩
      next herr => exact ⟨by simp [Instr.wf, herr, hf], row (sub := 2) hreq hsub⟩
    next hsub =>
      split
      next herr => exact ⟨by simp [Instr.wf, herr, hf], row (sub := 3) hreq hsub⟩
      next herr => exact ⟨by simp [Instr.wf, herr, hf], row (sub := 3) hreq hsub⟩

/-- What the decoder answers for the bytes of a frame: its row, or that its type is of no row (R102). -/
def decodedFrame (ty : U16) (f : Frame) (rest : List Byte) : Except DecodeError (Instr × List Byte) :=
  match frameInstr ty f with
  | some i => .ok (i, rest)
  | none => .error (.unknownType ty f rest)

theorem decodedFrame_eq_ok {ty : U16} {f : Frame} {i : Instr} {rest rest' : List Byte} :
    decodedFrame ty f rest' = .ok (i, rest) ↔ frameInstr ty f = some i ∧ rest' = rest := by
  unfold decodedFrame
  cases frameInstr ty f <;> simp

/-- The decoder reads a frame from the frame's own bytes. -/
theorem decode_frameBytes {ty : U16} {f : Frame} (hhi : f.hi = typeHi ty) (hf : frameWf f = true) (rest : List Byte) :
    decode (frameBytes ty f ++ rest) = decodedFrame ty f rest := by
  obtain ⟨hi, size, payload, crc⟩ := f
  obtain rfl : hi = typeHi ty := hhi
  have hlen : payload.length = size.toNat - 6 := of_decide_eq_true hf
  obtain ⟨tail, htail⟩ : ∃ tail, tail = payload ++ (be32 crc ++ rest) := ⟨_, rfl⟩
  obtain ⟨bs, hbs⟩ : ∃ bs, bs = sync2 :: (be16 size ++ (be16 ty ++ tail)) := ⟨_, rfl⟩
  have hsize : u16be bs 1 = size := hbs ▸ u16be_be16 [sync2] size _
  have hty : u16be bs 3 = ty := hbs ▸ u16be_be16 (sync2 :: be16 size) ty _
  have hdrop : bs.drop 5 = tail := hbs ▸ rfl
  have hpayload : tail.take payload.length = payload := htail ▸ List.take_left
  have hcrc : u32be tail payload.length = crc := htail ▸ u32be_be32 payload crc rest
  have hrest : tail.drop (payload.length + 4) = rest := by rw [htail, ← List.drop_drop, List.drop_left]; rfl
  have hbytes : frameBytes ty ⟨typeHi ty, size, payload, crc⟩ ++ rest = sync1 :: bs := by
    simp [hbs, htail, frameBytes, frameHead]
  rw [hbytes, decode, if_pos rfl, decodeFrame, if_neg (by simp [hbs, byteAt]), if_neg (by simp [hbs]; omega)]
  dsimp only
  rw [hsize, hty, hdrop, ← hlen, if_neg (by simp [htail]), hpayload, hcrc, hrest]
  rfl

/-- Bytes that are long enough, by the size they carry, are those of a frame (R92, R95). -/
theorem exists_frameBytes {bs : List Byte} (hsync : byteAt bs 0 = sync2) (hlen : (u16be bs 1).toNat - 6 + 9 ≤ bs.length) :
    ∃ ty f rest, f.hi = typeHi ty ∧ frameWf f = true ∧ sync1 :: bs = frameBytes ty f ++ rest := by
  obtain ⟨n, hn⟩ : ∃ n, n = (u16be bs 1).toNat - 6 := ⟨_, rfl⟩
  obtain ⟨tail, htail⟩ : ∃ tail, tail = bs.drop 5 := ⟨_, rfl⟩
  have htlen : n + 4 ≤ tail.length := by rw [htail, List.length_drop]; omega
  refine ⟨u16be bs 3, ⟨typeHi (u16be bs 3), u16be bs 1, tail.take n, u32be tail n⟩, tail.drop (n + 4), rfl, ?_, ?_⟩
  · exact decide_eq_true (by rw [List.length_take_of_le (by omega), hn])
  · have hhead : bs = sync2 :: bs.drop 1 := hsync ▸ drop_eq_byteAt_cons (n := 0) (by omega)
    have hsize : bs.drop 1 = be16 (u16be bs 1) ++ bs.drop 3 := drop_eq_be16 (by omega)
    have hty : bs.drop 3 = be16 (u16be bs 3) ++ tail := htail ▸ drop_eq_be16 (by omega)
    have hcrc : tail = tail.take n ++ (be32 (u32be tail n) ++ tail.drop (n + 4)) := by
      rw [← drop_eq_be32 htlen, List.take_append_drop]
    calc sync1 :: bs
        = sync1 :: sync2 :: (be16 (u16be bs 1) ++ (be16 (u16be bs 3) ++ tail)) := by rw [← hty, ← hsize, ← hhead]
      _ = sync1 :: sync2 :: (be16 (u16be bs 1) ++ (be16 (u16be bs 3) ++
            (tail.take n ++ (be32 (u32be tail n) ++ tail.drop (n + 4))))) := by rw [← hcrc]
      _ = _ := by simp [frameBytes, frameHead]

/-- After the first sync byte the decoder finds a whole frame, or an error that names none (R193, R386). -/
theorem decodeFrame_cases (bs : List Byte) :
    (∃ ty f rest, f.hi = typeHi ty ∧ frameWf f = true ∧ sync1 :: bs = frameBytes ty f ++ rest) ∨
      ∃ e, decodeFrame bs = .error e ∧ ∀ ty f rest, e ≠ .unknownType ty f rest := by
  by_cases hfalse : bs ≠ [] ∧ byteAt bs 0 ≠ sync2
  · exact .inr ⟨_, if_pos hfalse, by simp⟩
  by_cases hshort : bs.length < 5
  · exact .inr ⟨_, (if_neg hfalse).trans (if_pos hshort), by simp⟩
  by_cases hcut : (bs.drop 5).length < (u16be bs 1).toNat - 6 + 4
  · exact .inr ⟨_, (if_neg hfalse).trans ((if_neg hshort).trans (if_pos hcut)), by simp⟩
  · rw [List.length_drop] at hcut
    have hsync : byteAt bs 0 = sync2 := by
      by_contra hne
      exact hfalse ⟨fun hnil => hshort (by simp [hnil]), hne⟩
    exact .inl (exists_frameBytes hsync (by omega))

/-! ### The two directions -/

/-- What is decoded is well-formed, and was read from its encoding. -/
theorem decode_sound {bs rest : List Byte} {i : Instr} (h : decode bs = .ok (i, rest)) :
    i.wf = true ∧ bs = encode i ++ rest := by
  rcases bs with _ | ⟨b, bs⟩
  · cases h
  by_cases hb : b = sync1
  · subst hb
    obtain ⟨ty, f, tail, hhi, hf, hbytes⟩ | ⟨e, herr, -⟩ := decodeFrame_cases bs
    · rw [hbytes, decode_frameBytes hhi hf] at h
      obtain ⟨hrow, rfl⟩ := decodedFrame_eq_ok.mp h
      obtain ⟨hwf, henc⟩ := frameInstr_sound hhi hf hrow
      exact ⟨hwf, by rw [hbytes, henc]⟩
    · rw [decode, if_pos rfl, herr] at h
      cases h
  · rw [decode, if_neg hb] at h
    exact decodeSelect_sound h

/-- A frame is decoded from its bytes, as the row its type names. -/
theorem decode_frame_of_row {req : Bool} {sub : Byte} {f : Frame} {i : Instr} (hf : frameWf f = true)
    (hrow : frameInstr (frameType req f.hi sub) f = some i) (rest : List Byte) :
    decode (frameBytes (frameType req f.hi sub) f ++ rest) = .ok (i, rest) := by
  rw [decode_frameBytes (typeHi_frameType ..).symm hf]
  exact decodedFrame_eq_ok.mpr ⟨hrow, rfl⟩

/-- A well-formed instruction is decoded from its encoding, whatever follows. -/
theorem decode_encode (i : Instr) (rest : List Byte) (hwf : i.wf = true) : decode (encode i ++ rest) = .ok (i, rest) := by
  cases i with
  | writeReq f => exact decode_frame_of_row (req := true) (sub := 0x01) hwf (by simp [frameInstr]) rest
  | readReq f => exact decode_frame_of_row (req := true) (sub := 0x02) hwf (by simp [frameInstr]) rest
  | funcReq f => exact decode_frame_of_row (req := true) (sub := 0x03) hwf (by simp [frameInstr]) rest
  | readRsp f =>
    obtain ⟨hf, hhi⟩ : frameWf f = true ∧ f.hi ≠ errHi := by simpa [Instr.wf] using hwf
    exact decode_frame_of_row (req := false) (sub := 0x02) hf (by simp [frameInstr, hhi]) rest
  | funcRsp f =>
    obtain ⟨hf, hhi⟩ : frameWf f = true ∧ f.hi ≠ errHi := by simpa [Instr.wf] using hwf
    exact decode_frame_of_row (req := false) (sub := 0x03) hf (by simp [frameInstr, hhi]) rest
  | readErr f =>
    obtain ⟨hf, hhi⟩ : frameWf f = true ∧ f.hi = errHi := by simpa [Instr.wf] using hwf
    exact decode_frame_of_row (req := false) (sub := 0x02) hf (by simp [frameInstr, hhi]) rest
  | funcErr f =>
    obtain ⟨hf, hhi⟩ : frameWf f = true ∧ f.hi = errHi := by simpa [Instr.wf] using hwf
    exact decode_frame_of_row (req := false) (sub := 0x03) hf (by simp [frameInstr, hhi]) rest
  | initContext handle readFn writeFn => exact row_initContext.complete (a := (handle, readFn, writeFn)) (by decide) hwf rest
  | writeRemoteMemory addr len data => exact row_writeRemoteMemory.complete (a := (addr, len, data)) (by decide) hwf rest
  | readRemoteMemory addr len => exact row_readRemoteMemory.complete (a := (addr, len)) (by decide) hwf rest
  | registerFunction code callback => exact row_registerFunction.complete (a := (code, callback)) (by decide) hwf rest
  | callRemoteFunction code arg => exact row_callRemoteFunction.complete (a := (code, arg)) (by decide) hwf rest
  | listFunctions => exact row_listFunctions.complete (a := ()) (by decide) hwf rest
  | rbPut b => exact row_rbPut.complete (a := b) (by decide) hwf rest
  | rbGet m => exact row_rbGet.complete (a := m) (by decide) hwf rest
  | rbSize => exact row_rbSize.complete (a := ()) (by decide) hwf rest
  | crcInit => exact row_crcInit.complete (a := ()) (by decide) hwf rest
  | crcChecksum data n => exact row_crcChecksum.complete (a := (data, n)) (by decide) hwf rest
  | crcStore buf total => exact row_crcStore.complete (a := (buf, total)) (by decide) hwf rest
  | crcVerify buf total => exact row_crcVerify.complete (a := (buf, total)) (by decide) hwf rest
  | encodeFrame ty payload => exact row_encodeFrame.complete (a := (ty, payload)) (by decide) hwf rest
  | parseSeekSync => exact row_parseSeekSync.complete (a := ()) (by decide) hwf rest
  | parseReadLength => exact row_parseReadLength.complete (a := ()) (by decide) hwf rest
  | parseReadBody => exact row_parseReadBody.complete (a := ()) (by decide) hwf rest
  | parseRoute => exact row_parseRoute.complete (a := ()) (by decide) hwf rest
  | corrDeliver ty payload => exact row_corrDeliver.complete (a := (ty, payload)) (by decide) hwf rest
  | corrWait c => exact row_corrWait.complete (a := c) (by decide) hwf rest
  | corrTick => exact row_corrTick.complete (a := ()) (by decide) hwf rest
  | corrValidate c r => exact row_corrValidate.complete (a := (c, r)) (by decide) hwf rest
  | msWrite addr data => exact row_msWrite.complete (a := (addr, data)) (by decide) hwf rest
  | msRead addr len => exact row_msRead.complete (a := (addr, len)) (by decide) hwf rest
  | dispatch code arg => exact row_dispatch.complete (a := (code, arg)) (by decide) hwf rest
  | rxStep => exact row_rxStep.complete (a := ()) (by decide) hwf rest
  | tx f => exact row_tx.complete (a := f) (by decide) hwf rest
  | coopStep => exact row_coopStep.complete (a := ()) (by decide) hwf rest

/-- Decode and encode agree: the decoder reads exactly the encodings of the well-formed instructions. -/
theorem decode_eq_ok {bs rest : List Byte} {i : Instr} : decode bs = .ok (i, rest) ↔ i.wf = true ∧ bs = encode i ++ rest :=
  ⟨decode_sound, fun ⟨hwf, hbytes⟩ => hbytes ▸ decode_encode i rest hwf⟩

/-- Settles O1: the one direction of the equivalence (`decode_encode`). -/
theorem decodeEncode : Obligations.DecodeEncode := fun _ _ hwf => decode_eq_ok.mpr ⟨hwf, rfl⟩

/-- Settles O2: the other direction (`decode_sound`). -/
theorem decodedIsEncoded : Obligations.DecodedIsEncoded := fun _ _ _ => decode_eq_ok.mp

/-- Settles O3: each word is the encoding of its well-formed instruction. -/
theorem specWordsDecode : Obligations.SpecWordsDecode := by
  refine ⟨?_, ?_, ?_, ?_, ?_, ?_, ?_, ?_⟩ <;> exact decode_eq_ok.mpr (by decide)

end Sys2Proof
end

section
/-! PROOF. The arrival of a whole frame (spec/30_encoding.md R100 to R102, spec/43_frame_parser.md R195 to R200): what the routing of
its assembled bytes leaves of the state, for every type of the table and for the illegal ones. -/

namespace Sys2Proof

/-! ### A type that is of no row (R102) -/

theorem decoded_ne_unknownType {α : Type} (p : Option (α × List Byte)) (mk : α → Instr) (ty : U16) (f : Frame) (rest : List Byte) :
    decoded p mk ≠ .error (.unknownType ty f rest) := by
  cases p <;> simp [decoded]

theorem decodeClass_ne_unknownType {k : CClass → List Byte → Except DecodeError (Instr × List Byte)} {ty : U16} {f : Frame}
    {rest : List Byte} (hk : ∀ c tail, k c tail ≠ .error (.unknownType ty f rest)) (bs : List Byte) :
    decodeClass bs k ≠ .error (.unknownType ty f rest) := by
  rcases bs with _ | ⟨b, tail⟩
  · simp [decodeClass]
  · cases hc : classOf b <;> simp [decodeClass, hc, hk]

/-- Only a frame is of an unknown type. -/
theorem decodeSelect_ne_unknownType (b : Byte) (bs : List Byte) (ty : U16) (f : Frame) (rest : List Byte) :
    decodeSelect b bs ≠ .error (.unknownType ty f rest) := by
  unfold decodeSelect
  split <;> simp [decoded_ne_unknownType, decodeClass_ne_unknownType]

theorem decodedFrame_eq_unknownType {ty ty' : U16} {f f' : Frame} {rest rest' : List Byte} :
    decodedFrame ty' f' rest' = .error (.unknownType ty f rest) ↔
      frameInstr ty' f' = none ∧ ty' = ty ∧ f' = f ∧ rest' = rest := by
  unfold decodedFrame
  cases frameInstr ty' f' <;> simp

/-- A type the decoder calls unknown is the type of no row. -/
theorem frameInstr_of_unknownType {bs rest : List Byte} {ty : U16} {f : Frame}
    (h : decode bs = .error (.unknownType ty f rest)) : frameInstr ty f = none := by
  rcases bs with _ | ⟨b, bs⟩
  · cases h
  by_cases hb : b = sync1
  · subst hb
    obtain ⟨ty', f', tail, hhi, hf, hbytes⟩ | ⟨e, herr, hne⟩ := decodeFrame_cases bs
    · rw [hbytes, decode_frameBytes hhi hf] at h
      obtain ⟨hnone, rfl, rfl, -⟩ := decodedFrame_eq_unknownType.mp h
      exact hnone
    · rw [decode, if_pos rfl, herr] at h
      exact absurd (Except.error.inj h) (hne ty f rest)
  · rw [decode, if_neg hb] at h
    exact absurd h (decodeSelect_ne_unknownType b bs ty f rest)

theorem typeSub_of_frameInstr_none {ty : U16} {f : Frame} (h : frameInstr ty f = none) :
    (typeReq ty = true → typeSub ty ≠ 0x01) ∧ typeSub ty ≠ 0x02 ∧ typeSub ty ≠ 0x03 := by
  unfold frameInstr at h
  refine ⟨fun hreq hsub => ?_, fun hsub => ?_, fun hsub => ?_⟩
  · simp [hreq, hsub] at h
  · cases hreq : typeReq ty <;> simp [hreq, hsub] at h
  · cases hreq : typeReq ty <;> simp [hreq, hsub] at h

end Sys2Proof

namespace Sys2Proof.Machine

variable {s : State} {ty : U16} {f : Frame}

/-! ### From the arrival to the routing -/

/-- The state in which a frame that arrived whole is routed: its bytes have passed the ring, over storage `b`, and are
assembled. -/
def arrived (ty : U16) (f : Frame) (b : List Byte) (s : State) : State :=
  assembled ty f (s.ringPassed (f.size.toNat + 4) b)

/-- Back between frames, the arrival has changed the ring, the dead buffer, `asize` and the answer. -/
theorem resync_arrived (h : InStep s) (b : List Byte) :
    resync (arrived ty f b s) =
      { s.ringPassed (f.size.toNat + 4) b with abuf := (arrived ty f b s).abuf, asize := f.size, res := .done } := by
  obtain ⟨hps, hacnt, -⟩ := h
  simp only [resync, arrived, assembled, State.ringPassed, hps, hacnt]

/-- What serving the frame wrote, in registers that are not the parser's, is all that comes on top of that: the frame condition
of every arrival. -/
theorem resync_update_arrived {update : State → State} (h : InStep s) (b : List Byte)
    (hupdate : ∀ x, resync (update x) = update (resync x)) :
    resync (update (arrived ty f b s)) =
      update { s.ringPassed (f.size.toNat + 4) b with abuf := (arrived ty f b s).abuf, asize := f.size, res := .done } := by
  rw [hupdate, resync_arrived h]

/-- What ROUTE does with a frame of type `ty` and payload `p` whose trailer is good (R195). -/
def served (ty : U16) (p : List Byte) (s : State) : Out :=
  if typeReq ty then routeRequest ty p s else .next (corrDeliver ty (be16 ty ++ p) s)

/-- A good frame that arrives whole is served in the state of its arrival, and the parser is between frames again. -/
theorem receiveFrame_served (hr : Receiving s) (hg : GoodFrame s ty f) :
    ∃ b, ∀ u, served ty f.payload (arrived ty f b s) = .next u → u.parserStuck = false →
      receiveFrame ty f s = .next (resync u) := by
  obtain ⟨b, -, hrecv⟩ := receiveFrame_good hr hg
  refine ⟨b, fun u hserved hruns => ?_⟩
  have hrouted : routeStep (arrived ty f b s) =
      andThen (served ty f.payload (arrived ty f b s)) fun t => .next (routeEnd t) := routeStep_assembled hr.1.2.2 hg
  calc receiveFrame ty f s = routeStep (arrived ty f b s) := hrecv
    _ = .next (routeEnd u) := by rw [hrouted, hserved, andThen_of_next]
    _ = .next (resync u) := by rw [routeEnd_runs hruns]; rfl

/-! ### What each type is served with -/

/-- A payload of a key, a length and the data of that length (R98), as the routing reads it. -/
theorem keyed_fields {p data : List Byte} {key : U16} (hp : p = be16 key ++ be16 (BitVec.ofNat 16 data.length) ++ data)
    (hdata : data.length < 65536) :
    u16be p 0 = key ∧ (u16be p 2).toNat = data.length ∧ p.length = 4 + data.length ∧ p.drop 4 = data := by
  subst hp
  have hkey := u16be_be16 [] key (be16 (BitVec.ofNat 16 data.length) ++ data)
  have hlen := u16be_be16 (be16 key) (BitVec.ofNat 16 data.length) data
  refine ⟨by simpa using hkey, ?_, by simp; omega, rfl⟩
  rw [List.append_assoc, show u16be _ 2 = _ from hlen, BitVec.toNat_ofNat, Nat.mod_eq_of_lt hdata]

/-- The data of a frame is shorter than its 16-bit size. -/
theorem GoodFrame.data_lt (hg : GoodFrame s ty f) {head data : List Byte} (hp : f.payload = head ++ data) :
    data.length < 65536 := by
  have hsize := f.size.isLt
  have hlen : f.payload.length + 6 = f.size.toNat := hg.2.1
  rw [hp, List.length_append] at hlen
  omega

theorem served_write {p data : List Byte} {addr : U16} (hi : BitVec 7)
    (hp : p = be16 addr ++ be16 (BitVec.ofNat 16 data.length) ++ data) (hdata : data.length < 65536) (s : State) :
    served (frameType true hi 0x01) p s = .next (msWrite addr data s) := by
  obtain ⟨hkey, hlen, hplen, hdrop⟩ := keyed_fields hp hdata
  rw [served, if_pos (typeReq_frameType ..), routeRequest_spec, typeSub_frameType, if_pos rfl, if_neg (by omega), hkey, hdrop]

theorem served_read {p : List Byte} {addr len : U16} (hi : BitVec 7) (hp : p = be16 addr ++ be16 len) (s : State) :
    served (frameType true hi 0x02) p s = .next (msRead addr len s) := by
  subst hp
  have haddr : u16be (be16 addr ++ be16 len) 0 = addr := u16be_be16 [] addr (be16 len)
  have hlen : u16be (be16 addr ++ be16 len) 2 = len := u16be_be16 (be16 addr) len []
  rw [served, if_pos (typeReq_frameType ..), routeRequest_spec, typeSub_frameType, if_neg (by decide), if_pos rfl,
    if_neg (by simp), haddr, hlen]

theorem served_func {p arg : List Byte} {code : U16} (hi : BitVec 7)
    (hp : p = be16 code ++ be16 (BitVec.ofNat 16 arg.length) ++ arg) (harg : arg.length < 65536) (s : State) :
    served (frameType true hi 0x03) p s = dispatchCall code arg s := by
  obtain ⟨hkey, hlen, hplen, hdrop⟩ := keyed_fields hp harg
  rw [served, if_pos (typeReq_frameType ..), routeRequest_spec, typeSub_frameType, if_neg (by decide), if_neg (by decide),
    if_pos rfl, if_neg (by omega), hkey, hdrop]

theorem served_response {p : List Byte} {sub : Byte} {c : CClass} (hi : BitVec 7) (hsub : responseClass sub = some c) (s : State)
    (hp : p.length + 11 ≤ s.cfg.maxFrame) :
    served (frameType false hi sub) p s =
      .next (answer .done (setClass c (signalBody (be16 (frameType false hi sub) ++ p) (classRegs c s)) s)) := by
  rw [served, if_neg (by simp), corrDeliver_fits _ (by simp; omega), typeSub_frameType, hsub]

theorem served_illegal (p : List Byte) (hnone : frameInstr ty f = none) (hp : p.length + 11 ≤ s.cfg.maxFrame) :
    served ty p s = .next (answer .done (raise (.unknownType ty) s)) := by
  obtain ⟨h1, h2, h3⟩ := typeSub_of_frameInstr_none hnone
  cases hreq : typeReq ty with
  | true => rw [served, if_pos hreq, routeRequest_spec, if_neg (h1 hreq), if_neg h2, if_neg h3]
  | false => rw [served, if_neg (by simp [hreq]), corrDeliver_fits ty (by simp; omega), responseClass_none h2 h3]

theorem GoodFrame.fits (hg : GoodFrame s ty f) : f.payload.length + 11 ≤ s.cfg.maxFrame := by
  obtain ⟨hmax, hlen, -⟩ := hg
  omega

/-- The parameters leave room for the shortest replies (R7). -/
theorem maxFrame_ge {c : Config} (h : configWf c) : 15 ≤ c.maxFrame := by
  obtain ⟨-, -, -, -, -, hret, -⟩ := h
  omega

theorem msWrite_parserStuck (addr : U16) (data : List Byte) (s : State) :
    (msWrite addr data s).parserStuck = s.parserStuck := by
  unfold msWrite
  dsimp only
  split <;> rfl

theorem msRead_parserStuck (addr len : U16) (s : State) : (msRead addr len s).parserStuck = s.parserStuck := by
  unfold msRead transmitReply
  split
  · split <;> rfl
  · dsimp only
    split <;> rfl

/-! ### The arrivals -/

/-- A false start is dropped at its fourth byte (R193, R200). -/
theorem receiveBytes_falseStart {b : Byte} (c d : Byte) (hr : Receiving s) (hb : b ≠ 0x90) :
    ∃ t, receiveBytes [0xEB, b, c, d] s = .next t ∧
      t = { s.ringPassed 4 t.rbuf with abuf := t.abuf, log := s.log ++ [.badSync2 b], res := .done } := by
  obtain ⟨hps, hacnt, -, hhold, hrxq⟩ := hr.2.2.1
  have hstart : falseStart b c d 0 s = answer .done s := by
    simp [falseStart, answer, hps, hacnt]
  obtain ⟨storage, fuel, -, hrecv⟩ :=
    receiveBytes_takes hr (takes_falseStart hb hr.2.1.2) hstart fun _ => rfl
  refine ⟨_, hrecv.trans (pump_ends (fuel + 1) (.inr rfl) rfl hhold rfl), ?_⟩
  simp [falseStart, State.io, State.ringPassed, hps, hacnt, hrxq]

/-- Settles O5: the parser routes the frame as of an unknown type (`served_illegal`), and takes the four bytes of a false start
(`receiveBytes_falseStart`). -/
theorem illegalTypeDropped : Obligations.IllegalTypeDropped := by
  intro s hr
  refine ⟨fun ty f rest hg hport => ?_, fun b c d rest hb hport => ?_⟩
  · have hstep : step s = receiveFrame ty f { s with port := rest } := by rw [step, hport]; rfl
    obtain ⟨b, hrecv⟩ := receiveFrame_served (s := { s with port := rest }) hr hg
    obtain ⟨-, ⟨-, hruns⟩, hin, -⟩ := hr
    have hserved := served_illegal (s := arrived ty f b { s with port := rest }) f.payload (frameInstr_of_unknownType hport)
      (GoodFrame.fits hg)
    exact ⟨_, hstep.trans (hrecv _ hserved hruns),
      resync_update_arrived (s := { s with port := rest }) (update := fun x => { x with log := _, res := _ }) hin b
        fun _ => rfl⟩
  · have hdecode : decode s.port = .error (.falseStart [0xEB, b, c, d] rest) := by
      have hfalse : b :: c :: d :: rest ≠ [] ∧ byteAt (b :: c :: d :: rest) 0 ≠ sync2 := ⟨by simp, hb⟩
      rw [hport]
      exact if_pos hfalse
    have hstep : step s = receiveBytes [0xEB, b, c, d] { s with port := rest } := by rw [step, hdecode]; rfl
    obtain ⟨t, hrecv, ht⟩ := receiveBytes_falseStart (s := { s with port := rest }) c d hr hb
    exact ⟨t, hstep.trans hrecv, ht⟩

/-- Settles O31: the frame is served by MS_WRITE (`msWrite_spec`). -/
theorem writeReqStoresData : Obligations.WriteReqStoresData := by
  intro s f addr data hr hg hp
  obtain ⟨b, hrecv⟩ := receiveFrame_served hr hg
  obtain ⟨-, ⟨-, hruns⟩, hin, -⟩ := hr
  have hserved := served_write f.hi hp (GoodFrame.data_lt hg hp) (arrived (frameType true f.hi 0x01) f b s)
  obtain ⟨hmem, hfits, hover⟩ := msWrite_spec addr data (arrived (frameType true f.hi 0x01) f b s)
  refine ⟨_, hrecv _ hserved ((msWrite_parserStuck ..).trans hruns), hmem, fun hroom => ?_, fun hne hlong => ?_⟩
  · rw [hfits hroom]
    exact resync_update_arrived (update := fun x => { x with mem := _, res := _ }) hin b fun _ => rfl
  · rw [hover hne hlong]
    exact resync_update_arrived (update := fun x => { x with mem := _, res := _, log := _ }) hin b fun _ => rfl

/-- Settles O32: the frame is served by MS_READ (`msRead_spec`). -/
theorem readReqIsAnswered : Obligations.ReadReqIsAnswered := by
  intro s f addr len hr hg hp
  obtain ⟨b, hrecv⟩ := receiveFrame_served hr hg
  obtain ⟨⟨-, -, htable⟩, ⟨-, hruns⟩, hin, hcfg, -⟩ := hr
  have hserved := served_read f.hi hp (arrived (frameType true f.hi 0x02) f b s)
  have hread := msRead_spec addr len (arrived (frameType true f.hi 0x02) f b s) htable (maxFrame_ge hcfg)
  refine ⟨_, hrecv _ hserved ((msRead_parserStuck ..).trans hruns), fun haddr => ?_, fun haddr => ?_⟩
  · rw [hread.trans (if_pos haddr)]
    exact resync_update_arrived (update := fun x => { x with log := _, txq := _, res := _ }) hin b fun _ => rfl
  · replace hread := hread.trans (if_neg (Nat.not_le.mpr haddr))
    refine ⟨_, memReadBytes_length .., fun j hj => memReadBytes_byteAt _ _ _ _ (by simpa using hj), fun hfit => ?_,
      fun hlarge => ?_⟩
    · rw [hread.trans (if_pos hfit)]
      exact resync_update_arrived (update := fun x => { x with txq := _, res := _ }) hin b fun _ => rfl
    · rw [hread.trans (if_neg (Nat.not_le.mpr hlarge))]
      exact resync_update_arrived (update := fun x => { x with log := _, res := _ }) hin b fun _ => rfl

/-- Settles O33: the frame is served by DISPATCH (`dispatchCall_unknown`, `dispatchCall_known`). -/
theorem funcReqIsAnswered : Obligations.FuncReqIsAnswered := by
  intro s f code arg hr hg hp
  obtain ⟨b, hrecv⟩ := receiveFrame_served hr hg
  obtain ⟨⟨-, -, htable⟩, ⟨-, hruns⟩, hin, hcfg, -⟩ := hr
  have hserved := served_func f.hi hp (GoodFrame.data_lt hg hp) (arrived (frameType true f.hi 0x03) f b s)
  refine ⟨fun hnone => ?_, fun hsome => ?_⟩
  · have hcall := dispatchCall_unknown code arg (arrived (frameType true f.hi 0x03) f b s) htable (maxFrame_ge hcfg) hnone
    exact ⟨_, hrecv _ (hserved.trans hcall) hruns,
      resync_update_arrived (update := fun x => { x with log := _, txq := _, res := _ }) hin b fun _ => rfl⟩
  · obtain ⟨-, -, -, -, -, hmaxRet, -⟩ := hcfg
    obtain ⟨hreturns, -, -, hfree⟩ :=
      dispatchCall_known code arg (arrived (frameType true f.hi 0x03) f b s) htable hmaxRet hsome
    refine ⟨fun ret later hscript hret => ?_, fun hscript => ?_⟩
    · have hcall := (hreturns _ ret later hscript).trans (if_pos ⟨rfl, hret⟩)
      exact ⟨_, hrecv _ (hserved.trans hcall) hruns,
        resync_update_arrived (update := fun x => { x with cbScript := _, txq := _, res := _ }) hin b fun _ => rfl⟩
    · obtain ⟨ret, hret, hcall⟩ := hfree hscript
      exact ⟨_, ret, hrecv _ (hserved.trans hcall) hruns, hret,
        resync_update_arrived (update := fun x => { x with draws := _, txq := _, res := _ }) hin b fun _ => rfl⟩

/-- A good response of class `c` that arrives whole signals the class with its type and payload (R198). -/
theorem receiveFrame_response {sub : Byte} {c : CClass} (hsub : responseClass sub = some c) (hr : Receiving s)
    (hg : GoodFrame s (frameType false f.hi sub) f) :
    ∃ b, receiveFrame (frameType false f.hi sub) f s = .next (resync (answer .done
      (setClass c (signalBody (be16 (frameType false f.hi sub) ++ f.payload) (classRegs c s))
        (arrived (frameType false f.hi sub) f b s)))) := by
  obtain ⟨b, hrecv⟩ := receiveFrame_served hr hg
  obtain ⟨-, ⟨-, hruns⟩, -⟩ := hr
  have hserved := served_response f.hi hsub (arrived (frameType false f.hi sub) f b s) (GoodFrame.fits hg)
  refine ⟨b, ?_⟩
  cases c <;> exact hrecv _ hserved hruns

/-- Settles O34: both rows of a class arrive alike (`receiveFrame_response`). -/
theorem responsesAreStored : Obligations.ResponsesAreStored := by
  intro s f hr
  refine ⟨fun hg => ?_, fun hg => ?_⟩
  · obtain ⟨b, hrecv⟩ := receiveFrame_response (c := .read) rfl hr hg
    obtain ⟨-, -, hin, -⟩ := hr
    exact ⟨_, hrecv, hrecv,
      resync_update_arrived (update := fun x => { x with readCls := _, res := _ }) hin b fun _ => rfl⟩
  · obtain ⟨b, hrecv⟩ := receiveFrame_response (c := .func) rfl hr hg
    obtain ⟨-, -, hin, -⟩ := hr
    exact ⟨_, hrecv, hrecv,
      resync_update_arrived (update := fun x => { x with funcCls := _, res := _ }) hin b fun _ => rfl⟩

end Sys2Proof.Machine
end

section
/-! PROOF. The ring buffer operations RB_PUT, RB_GET and RB_SIZE (spec/40_ring_buffer.md R131 to R137): what each answers and
writes, and what a run of gets returns after a put. -/

namespace Sys2Proof.Machine

variable {s : State}

/-! ### One equation per operation and answer -/

/-- A put that fits (R131), by the producer. -/
theorem rbPut_fits {b : List Byte} (hinit : s.inited = true) (hcalls : ProducerCalls s)
    (hfits : b.length + ringOcc s < s.cfg.bufSize) :
    exec (.rbPut b) s = .next (answer (.okCount b.length)
      { s with rbuf := ringStore s.cfg.bufSize s.rbuf s.rin b, rin := (s.rin + b.length) % s.cfg.bufSize }) := by
  rw [exec, execRbPut, requireInited_pos hinit, requireProducer_pos hcalls, ringPut_fits hfits]

/-- A put that would close the reserved slot (R131, R132), by the producer. -/
theorem rbPut_rejected {b : List Byte} (hinit : s.inited = true) (hcalls : ProducerCalls s)
    (hfull : s.cfg.bufSize ≤ b.length + ringOcc s) : exec (.rbPut b) s = .next (answer .capacityExceeded s) := by
  rw [exec, execRbPut, requireInited_pos hinit, requireProducer_pos hcalls, ringPut_none.mpr hfull]

/-- What RB_GET asks of a state: the context initialised, the ring in range, and the caller its consumer (R136), in no callback
that never returns (U5). -/
structure CanGet (s : State) : Prop where
  inited : s.inited = true
  runs : s.parserStuck = false
  calls : ConsumerCalls s
  ring : RingInv s

/-- A get (R133), by the consumer. -/
theorem rbGet_eq (h : CanGet s) (m : Nat) :
    exec (.rbGet m) s = .next (answer (.okBytes (ringGet m s).1) (ringGet m s).2) := by
  rw [exec, execRbGet, requireInited_pos h.inited, requireConsumer_pos h.calls, parserAgent_runs h.runs]

theorem rbSize_eq (hinit : s.inited = true) : exec .rbSize s = .next (answer (.okCount (ringOcc s)) s) := by
  rw [exec, execRbSize, requireInited_pos hinit]

/-! ### The bytes -/

theorem byteAt_ringPeek (s : State) {j k : Nat} (hj : j < k) :
    byteAt (ringPeek s k) j = byteAt s.rbuf ((s.rout + j) % s.cfg.bufSize) := by
  simp [byteAt, ringPeek, hj]

/-- Settles O14: the put is rejected (`rbPut_rejected`) or made (`rbPut_fits`), and then its bytes read back (`ringStore_read`)
and no others have changed (`ringStore_other`). -/
theorem rbPutAllOrNothing : Obligations.RbPutAllOrNothing := by
  intro s b hinit hcalls hring
  refine ⟨rfl, rbPut_rejected hinit hcalls, fun hfits => ?_⟩
  obtain ⟨hstorage, hrin, -⟩ := hring
  exact ⟨_, rbPut_fits hinit hcalls hfits, rfl, ringStore_length ..,
    fun k hk => ringStore_read _ b s.rbuf s.rin k (by omega) hstorage hk (by omega), ringStore_other _ b s.rbuf s.rin⟩

/-- Settles O15: the bytes a get answers are a peek from the tail on (`rbGet_eq`, `byteAt_ringPeek`). -/
theorem rbGetOldestBytes : Obligations.RbGetOldestBytes := by
  intro s m hinit hruns hcalls hring
  have hlength : (ringGet m s).1.length = min m (ringOcc s) := ringPeek_length ..
  refine ⟨rfl, (ringGet m s).1, hlength, fun j hj => byteAt_ringPeek s (hlength ▸ hj), ?_⟩
  rw [rbGet_eq ⟨hinit, hruns, hcalls, hring⟩, hlength]
  rfl

/-- Settles O16: the laws of the occupancy (`ringOcc_cases`, `ringOcc_zero`, `ringOcc_lt`). -/
theorem rbSizeIsOccupancy : Obligations.RbSizeIsOccupancy := fun _ hinit hring =>
  ⟨rfl, _, rbSize_eq hinit, ringOcc_cases hring, ringOcc_zero hring, Nat.le_sub_one_of_lt (ringOcc_lt hring)⟩

/-! ### First in, first out -/

/-- A get leaves a state of which the next get can be made. -/
theorem CanGet.get (h : CanGet s) (m : Nat) (r : Result) : CanGet (answer r (ringGet m s).2) := by
  obtain ⟨-, -, hring, -⟩ := ringGet_spec h.ring m
  exact ⟨h.inited, h.runs, h.calls, hring⟩

/-- The first of several gets returns its bytes in front of what the others return. -/
theorem successiveGets_cons (h : CanGet s) (m : Nat) (ms : List Nat) :
    successiveGets (m :: ms) s =
      (successiveGets ms (answer (.okBytes (ringGet m s).1) (ringGet m s).2)).map fun p => ((ringGet m s).1 ++ p.1, p.2) := by
  simp only [successiveGets, rbGet_eq h, answer_res]

/-- Successive gets return the front of the live bytes, as much as they ask for together, and leave the rest (R133). -/
theorem successiveGets_spec (ms : List Nat) (h : CanGet s) :
    ∃ u, successiveGets ms s = some ((ringLive s).take ms.sum, u) ∧ ringLive u = (ringLive s).drop ms.sum := by
  induction ms generalizing s with
  | nil => exact ⟨s, rfl, rfl⟩
  | cons m ms ih =>
    obtain ⟨hbytes, -, -, hrest⟩ := ringGet_spec h.ring m
    obtain ⟨u, hgets, hlive⟩ := ih (h.get m (.okBytes (ringGet m s).1))
    have hanswer : ringLive (answer (.okBytes (ringGet m s).1) (ringGet m s).2) = (ringLive s).drop m := hrest
    rw [hanswer] at hgets hlive
    refine ⟨u, ?_, ?_⟩
    · rw [successiveGets_cons h, hgets, Option.map_some, hbytes, List.sum_cons, List.take_add]
    · rw [hlive, List.drop_drop, List.sum_cons]

/-- Settles O17: the put appends to the live bytes (`ringPut_some`), and gets take them from the front
(`successiveGets_spec`). -/
theorem ringIsFifo : Obligations.RingIsFifo := by
  intro s b ms hinit hruns hproducer hconsumer hring hfits
  obtain ⟨-, -, hring', hlive⟩ := ringPut_some hring (ringPut_fits hfits)
  obtain ⟨u, hgets, hrest⟩ := successiveGets_spec ms
    (s := answer (.okCount b.length)
      { s with rbuf := ringStore s.cfg.bufSize s.rbuf s.rin b, rin := (s.rin + b.length) % s.cfg.bufSize })
    ⟨hinit, hruns, hconsumer, hring'⟩
  exact ⟨_, u, rbPut_fits hinit hproducer hfits, hlive ▸ hgets, hlive ▸ hrest⟩

end Sys2Proof.Machine
end

section
/-! PROOF. Who may step (spec/40_ring_buffer.md R136, spec/43_frame_parser.md R190, spec/47_ingress_pump.md R307, R310,
spec/70_reset_and_hazards.md R374, R389): by the scheduling model, the parser state, the caller, and INITIALIZE. -/

namespace Sys2Proof.Machine

variable {s : State}

/-! ### The scheduling model (R307, R310, R389) -/

theorem coopStep_notCooperative (h : Running s) (hs : AgentsRun s) : exec .coopStep s = .refused .notCooperative := by
  obtain ⟨hinit, hcrc, -⟩ := h
  rw [exec, execCoopStep, requireInited_pos hinit, requireCrc_pos hcrc, if_pos hs]

/-- A wire frame as an instruction is the arrival of its own bytes (R90, R300). -/
theorem exec_frame {i : Instr} (h : isFrame i = true) (s : State) : exec i s = receiveBytes (encode i) s := by
  cases i with
  | writeReq _ | readReq _ | funcReq _ | readRsp _ | funcRsp _ | readErr _ | funcErr _ => rfl
  | _ => cases h

/-- Bytes that arrive wait for the host agent (R307). -/
theorem receiveBytes_cooperative (h : Running s) (hs : s.cfg.sched = .cooperative) (bs : List Byte) :
    receiveBytes bs s = .next { s with rxq := s.rxq ++ bs, res := .hold } := by
  obtain ⟨hinit, hcrc, -⟩ := h
  rw [receiveBytes, requireInited_pos hinit, requireCrc_pos hcrc]
  exact if_pos hs

theorem rxStep_cooperative (hinit : s.inited = true) (hs : s.cfg.sched = .cooperative) :
    exec .rxStep s = .next { s with res := .hold } := by
  rw [exec, execRxStep, requireInited_pos hinit, onItsOwn_cooperative hs]

/-! ### The PARSE instructions (R190) -/

/-- The PARSE instruction that belongs to a parser state (R190). -/
def parseInstr : ParserState → Instr
  | .seekSync => .parseSeekSync
  | .readLength => .parseReadLength
  | .readBody => .parseReadBody
  | .route => .parseRoute

/-- On a running context all four ask for the same: an agent that steps on its own, and their own parser state. -/
theorem parseInstr_running (h : Running s) (p : ParserState) :
    ∃ k, exec (parseInstr p) s = onItsOwn s (parserAgent s (requireParser p s k)) := by
  obtain ⟨hinit, hcrc, -⟩ := h
  cases p with
  | seekSync | readLength | readBody => exact ⟨_, requireInited_pos hinit _⟩
  | route => exact ⟨_, (requireInited_pos hinit _).trans (requireCrc_pos hcrc _)⟩

theorem parseInstr_cooperative (h : Running s) (hs : s.cfg.sched = .cooperative) (p : ParserState) :
    exec (parseInstr p) s = .next { s with res := .hold } := by
  obtain ⟨k, hparse⟩ := parseInstr_running h p
  rw [hparse, onItsOwn_cooperative hs]

theorem parseInstr_otherState (h : Running s) (hruns : ParserRuns s) {p : ParserState} (hp : s.ps ≠ p) :
    exec (parseInstr p) s = .refused (.otherParserState s.ps) := by
  obtain ⟨k, hparse⟩ := parseInstr_running h p
  obtain ⟨hown, hstuck⟩ := hruns
  rw [hparse, onItsOwn_runs hown, parserAgent_runs hstuck, requireParser, if_neg hp]

/-! ### A second producer and a second consumer of the ring (R136, U2) -/

theorem rbPut_secondProducer {a : Agent} (hinit : s.inited = true) (hcaller : s.ringCaller = some a)
    (ha : a ≠ ringProducer s.cfg) (b : List Byte) : exec (.rbPut b) s = .refused (.secondProducer a) := by
  rw [exec, execRbPut, requireInited_pos hinit, requireProducer_neg hcaller ha]

theorem rbGet_secondConsumer {a : Agent} (hinit : s.inited = true) (hcaller : s.ringCaller = some a)
    (ha : a ≠ ringConsumer s.cfg) (m : Nat) : exec (.rbGet m) s = .refused (.secondConsumer a) := by
  rw [exec, execRbGet, requireInited_pos hinit, requireConsumer_neg hcaller ha]

/-- Both refusals, for the producer and the consumer that the scheduling model names. -/
theorem ring_secondCaller {a producer consumer : Agent} (hinit : s.inited = true) (hcaller : s.ringCaller = some a)
    (hp : ringProducer s.cfg = producer) (hc : ringConsumer s.cfg = consumer) (b : List Byte) (m : Nat) :
    (a ≠ producer → exec (.rbPut b) s = .refused (.secondProducer a)) ∧
      (a ≠ consumer → exec (.rbGet m) s = .refused (.secondConsumer a)) := by
  subst hp hc
  exact ⟨fun ha => rbPut_secondProducer hinit hcaller ha b, fun ha => rbGet_secondConsumer hinit hcaller ha m⟩

/-! ### Before INITIALIZE (R374, U3) -/

theorem exec_notInitialized (h : s.inited = false) {i : Instr} (hi : needsContext i = true) :
    exec i s = .refused .notInitialized := by
  cases i with
  | initContext _ _ _ | registerFunction _ _ => cases hi
  | crcInit | crcChecksum _ _ | crcStore _ _ | crcVerify _ _ | encodeFrame _ _ => cases hi
  | _ => exact requireInited_neg h _

theorem registerFunction_notInitialized (h : s.inited = false) (code : U16) (cb : Handle) :
    exec (.registerFunction code cb) s = .next { s with res := .invalidParam } := by
  rw [exec, execRegisterFunction, if_pos (.inl h)]
  rfl

/-- Settles O57: one refusal or hold per precondition, in the order of the statement. -/
theorem stepPreconditions : Obligations.StepPreconditions := by
  intro s i code cb a b m
  refine ⟨fun hrun => ⟨coopStep_notCooperative hrun, fun hs hi => ?_, fun hs => ?_, fun hruns => ?_⟩,
    fun hinit hcaller => ⟨fun hs => ?_, fun hs => ?_⟩,
    fun hinit => ⟨exec_notInitialized hinit, registerFunction_notInitialized hinit code cb⟩⟩
  · rw [exec_frame hi, receiveBytes_cooperative hrun hs]
  · have hhold := parseInstr_cooperative hrun hs
    exact ⟨rxStep_cooperative hrun.1 hs, hhold .seekSync, hhold .readLength, hhold .readBody, hhold .route⟩
  · exact ⟨parseInstr_otherState hrun hruns, parseInstr_otherState hrun hruns, parseInstr_otherState hrun hruns,
      parseInstr_otherState hrun hruns⟩
  · exact ring_secondCaller hinit hcaller (if_neg hs) (if_neg hs) b m
  · exact ring_secondCaller hinit hcaller (if_pos hs) (if_pos hs) b m

end Sys2Proof.Machine
end

section
/-! PROOF. The CRC engine operations CRC_INIT, CRC_CHECKSUM, CRC_STORE and CRC_VERIFY (spec/41_crc32.md R151 to R158): what each
answers and writes over the generated table, and the trailer that verifies as soon as it is stored. -/

namespace Sys2Proof.Machine

variable {s : State} {data buf : List Byte} {n total : Nat}

/-! ### The values -/

/-- The unrolled eight steps are the iterated step (R151). -/
theorem crcShift8_eq_iterate (c : U32) : crcShift8 c = crcShift^[8] c := rfl

theorem crcTableGen_getElem? {i : Nat} (h : i < 256) : crcTableGen[i]? = some (crcShift^[8] (BitVec.ofNat 32 i)) := by
  simp [crcTableGen, crcTableEntry, crcShift8_eq_iterate, h]

/-- The accumulator is the checksum before the final XOR (R153). -/
theorem crcAccumulate_gen_eq (data : List Byte) : crcAccumulate crcTableGen data = crcBitwise data ^^^ crcOnes := by
  rw [← crcAccumulate_gen, BitVec.xor_assoc, BitVec.xor_self, BitVec.xor_zero]

theorem crcStoreTrailer_length (tbl : List U32) (h4 : 4 ≤ total) (hlen : total ≤ buf.length) :
    (crcStoreTrailer tbl buf total).length = buf.length :=
  splice_length _ _ _ (by rw [be32_length]; omega)

/-- The stored trailer is the checksum of the bytes before it (R158, its law (a)). -/
theorem crcVerifyTrailer_storeTrailer (h4 : 4 ≤ total) (hlen : total ≤ buf.length) :
    crcVerifyTrailer crcTableGen (crcStoreTrailer crcTableGen buf total) total = true := by
  have hhead : (buf.take (total - 4)).length = total - 4 := List.length_take_of_le (by omega)
  have hword := u32be_be32 (buf.take (total - 4)) (crcBitwise (buf.take (total - 4))) (buf.drop total)
  rw [hhead] at hword
  rw [crcVerifyTrailer_gen, crcStoreTrailer_gen buf total h4, List.append_assoc, List.take_left' hhead, hword,
    decide_eq_true rfl]

/-! ### One equation per operation -/

theorem requireTrailer_pos (h4 : 4 ≤ total) (hlen : total ≤ buf.length) (k : Out) : requireTrailer buf total k = k := by
  rw [requireTrailer, if_neg (by omega), if_neg (by omega)]

/-- The checksum of a prefix (R153), which is the bit-by-bit one (R155). -/
theorem crcChecksum_eq (h : Engine s) (hn : n ≤ data.length) :
    exec (.crcChecksum data n) s = .next (answer (.okWord (crcBitwise (data.take n)))
      { s with crcAcc := crcBitwise (data.take n) ^^^ crcOnes }) := by
  obtain ⟨hready, htable⟩ := h
  rw [exec, execCrcChecksum, requireCrc_pos hready, if_pos hn, checksumIn, htable, crcChecksum_gen, crcAccumulate_gen_eq]

theorem crcStore_eq (h : Engine s) (h4 : 4 ≤ total) (hlen : total ≤ buf.length) :
    exec (.crcStore buf total) s = .next (answer (.okBytes (crcStoreTrailer crcTableGen buf total)) s) := by
  obtain ⟨hready, htable⟩ := h
  rw [exec, execCrcStore, requireCrc_pos hready, requireTrailer_pos h4 hlen, htable]

theorem crcVerify_eq (h : Engine s) (h4 : 4 ≤ total) (hlen : total ≤ buf.length) :
    exec (.crcVerify buf total) s = .next (answer (.okBool (crcVerifyTrailer crcTableGen buf total)) s) := by
  obtain ⟨hready, htable⟩ := h
  rw [exec, execCrcVerify, requireCrc_pos hready, requireTrailer_pos h4 hlen, htable]

/-- CRC_VERIFY of what CRC_STORE answers (R158, its law (a)). -/
theorem crcVerify_stored (h : Engine s) (h4 : 4 ≤ total) (hlen : total ≤ buf.length) :
    exec (.crcVerify (crcStoreTrailer crcTableGen buf total) total) s = .next (answer (.okBool true) s) := by
  rw [crcVerify_eq h h4 (hlen.trans_eq (crcStoreTrailer_length _ h4 hlen).symm), crcVerifyTrailer_storeTrailer h4 hlen]

/-! ### The statements -/

/-- Settles O18: the generated table entry by entry (`crcTableGen_getElem?`); run again, CRC_INIT writes the same values. -/
theorem crcInitTable : Obligations.CrcInitTable := fun s =>
  ⟨rfl, answer .done { s with crcTable := crcTableGen, crcInit := true }, rfl, rfl, crcTableGen_length,
    fun _ => crcTableGen_getElem?, rfl⟩

/-- Settles O19: the checksum over the generated table is the bit-by-bit one (`crcChecksum_eq`). -/
theorem checksumIsBitwise : Obligations.ChecksumIsBitwise :=
  fun _ _ _ hengine hn => ⟨rfl, crcChecksum_eq hengine hn⟩

/-- Settles O20: the answer of CRC_STORE (`crcStore_eq`) written out as bytes (`crcStoreTrailer_gen`). -/
theorem crcStoreWritesTrailer : Obligations.CrcStoreWritesTrailer := by
  intro s buf total hengine h4 hlen
  refine ⟨rfl, ?_⟩
  rw [crcStore_eq hengine h4 hlen, crcStoreTrailer_gen buf total h4]
  rfl

/-- Settles O21: the answer of CRC_VERIFY as a comparison (`crcVerifyTrailer_gen`), and of a buffer just stored
(`crcVerify_stored`): CRC_STORE leaves the engine ready. -/
theorem crcVerifyJudgesTrailer : Obligations.CrcVerifyJudgesTrailer := by
  intro s buf total hengine h4 hlen
  refine ⟨rfl, ?_, _, _, crcStore_eq hengine h4 hlen, rfl, crcVerify_stored (s := answer _ s) hengine h4 hlen⟩
  rw [crcVerify_eq hengine h4 hlen, crcVerifyTrailer_gen]
  rfl

end Sys2Proof.Machine
end

section
/-! PROOF. The frame encoder (spec/42_frame_encoder.md R171 to R174): what ENCODE answers, and that a parser fed the bytes of a
frame, whole or in pieces, assembles exactly them. -/

namespace Sys2Proof.Machine

variable {s : State} {ty : U16} {payload : List Byte} {f : Frame}

/-! ### ENCODE -/

/-- The answer of ENCODE over the generated table (R171). -/
theorem encodeFrame_eq (h : Engine s) (ty : U16) (payload : List Byte) :
    exec (.encodeFrame ty payload) s =
      .next (answer (if Fits s payload then .okBytes (wireFrame ty payload) else .tooLarge) s) := by
  obtain ⟨hready, htable⟩ := h
  rw [exec, execEncodeFrame, requireCrc_pos hready, encodeIn_engine htable]
  by_cases hfits : Fits s payload
  · rw [if_pos hfits, if_pos hfits]
  · rw [if_neg hfits, if_neg hfits]

/-- Settles O23: the two answers of ENCODE (`encodeFrame_eq`), by whether the payload fits. -/
theorem encodeBuildsFrame : Obligations.EncodeBuildsFrame := by
  intro s ty payload hengine
  refine ⟨rfl, fun hlarge => ?_, fun hfits => ?_⟩
  · rw [encodeFrame_eq hengine, if_neg (Nat.not_lt.mpr hlarge)]
    rfl
  · rw [encodeFrame_eq hengine, if_pos hfits]
    rfl

/-! ### An encoded frame as a received one -/

/-- The fields the parser reads out of the bytes of ENCODE(type, payload) (R171). -/
def encodedFrame (ty : U16) (payload : List Byte) : Frame :=
  let size := BitVec.ofNat 16 (payload.length + 6)
  { hi := typeHi ty, size, payload, crc := crcBitwise (frameHead ty size payload) }

theorem frameBytes_encodedFrame (ty : U16) (payload : List Byte) :
    frameBytes ty (encodedFrame ty payload) = wireFrame ty payload := rfl

/-- A payload that fits gives a size the 16 bits can carry (R7). -/
theorem encodedFrame_size (hc : configWf s.cfg) (hfits : Fits s payload) (ty : U16) :
    (encodedFrame ty payload).size.toNat = payload.length + 6 := by
  obtain ⟨-, -, hmax, -⟩ := hc
  exact (BitVec.toNat_ofNat ..).trans (Nat.mod_eq_of_lt (by omega))

/-- An encoded frame passes the parser's checks. -/
theorem goodFrame_encoded (hc : configWf s.cfg) (hfits : Fits s payload) (ty : U16) :
    GoodFrame s ty (encodedFrame ty payload) := by
  have hsize := encodedFrame_size hc hfits ty
  exact ⟨by omega, hsize.symm, rfl⟩

/-! ### A frame assembled -/

/-- The parser has assembled the frame of a type and payload: it is in ROUTE over exactly those bytes, they pass the integrity
check and give back the type and the payload (R174), and `rest` is in the ring. -/
def HoldsFrame (ty : U16) (payload rest : List Byte) (v : State) : Prop :=
  v.ps = .route ∧ v.asize.toNat = payload.length + 6 ∧ v.acnt = v.asize.toNat + 4 ∧
    v.abuf.take v.acnt = wireFrame ty payload ∧
    exec (.crcVerify v.abuf v.acnt) v = .next { v with res := .okBool true } ∧
    u16be v.abuf 4 = ty ∧ slice v.abuf 6 v.asize.toNat = payload ∧ ringLive v = rest

/-- CRC_VERIFY passes an assembled good frame (R195), whatever the last step answered. -/
theorem crcVerify_assembled (he : Engine s) (hg : GoodFrame s ty f) (r : Result) :
    exec (.crcVerify (assembled ty f s).abuf (f.size.toNat + 4)) (answer r (assembled ty f s)) =
      .next (answer (.okBool true) (assembled ty f s)) := by
  have hlen : f.size.toNat + 4 ≤ (assembled ty f s).abuf.length := by
    rw [assembled, List.length_append, frameBytes_length hg.2.1]
    omega
  obtain ⟨-, -, -, htrailer⟩ := assembled_fields hg
  rw [crcVerify_eq (s := answer r (assembled ty f s)) he (by omega) hlen, crcVerifyTrailer_gen, Nat.add_sub_cancel,
    decide_eq_true htrailer.symm]
  rfl

theorem holdsFrame_assembled (he : Engine s) (hc : configWf s.cfg) (hfits : Fits s payload) (ty : U16) (r : Result) :
    HoldsFrame ty payload (ringLive s) (answer r (assembled ty (encodedFrame ty payload) s)) := by
  have hg := goodFrame_encoded hc hfits ty
  obtain ⟨htype, hpayload, -, -⟩ := assembled_fields hg
  exact ⟨rfl, encodedFrame_size hc hfits ty, rfl, List.take_left' (frameBytes_length hg.2.1), crcVerify_assembled he hg r,
    htype, hpayload, rfl⟩

/-- The whole frame in the ring: each collecting step takes all it asks for, so three of them assemble it (R174). -/
theorem parse_whole {rest : List Byte} (hrun : Running s) (hp : ParserRuns s) (hinv : Inv s) (hps : s.ps = .seekSync)
    (hfits : Fits s payload) (hlive : ringLive s = wireFrame ty payload ++ rest) :
    ∃ t u v, exec .parseSeekSync s = .next t ∧ exec .parseReadLength t = .next u ∧ exec .parseReadBody u = .next v ∧
      HoldsFrame ty payload rest v := by
  obtain ⟨hinit, hengine⟩ := hrun
  obtain ⟨t, u, i, hst, htu, huv, -, hrest, htps, hups, -, -, ⟨_, _, ht⟩, ⟨_, _, hu⟩⟩ :=
    collect_ring hinv.ring hps (goodFrame_encoded hinv.cfg hfits ty) hlive
  refine ⟨t, u, _, (parseSeekSync_eq hinit hp hps).trans (congrArg _ hst), ?_, ?_,
    hrest ▸ holdsFrame_assembled (s := { s with rout := i }) hengine hinv.cfg hfits ty .done⟩
  · subst ht
    exact (parseReadLength_eq (by exact hinit) (by exact hp) htps).trans (congrArg _ htu)
  · subst hu
    exact (parseReadBody_eq (by exact hinit) (by exact hp) hups).trans (congrArg _ huv)

/-! ### A frame fed in pieces -/

/-- Equal indices leave no byte live (R24). -/
theorem ringLive_empty (h : s.rin = s.rout) : ringLive s = [] := by
  simp [ringLive, ringPeek, ringOcc, h]

/-- What the last step answered plays no part in a collecting step that takes bytes from the ring. -/
theorem collectStep_answer (r : Result) (hring : RingInv s) (hp : s.ps ≠ .route) (hw : 0 < wanted s)
    (hne : s.rin ≠ s.rout) : collectStep (answer r s) = collectStep s := by
  have hocc : ringOcc s ≠ 0 := fun h => hne ((ringOcc_zero hring).mp h)
  have hbytes : (ringGet (wanted s) s).1 ≠ [] := by
    refine List.ne_nil_of_length_pos ?_
    rw [show (ringGet (wanted s) s).1.length = min (wanted s) (ringOcc s) from ringPeek_length ..]
    omega
  exact collectOn_res hbytes (ringGet (wanted s) s).2 r hp

/-- The PARSE instruction of an agent that steps on its own, before ROUTE, is the collecting step of its state. -/
theorem parseStep_collects (hinit : s.inited = true) (hruns : ParserRuns s) (hp : s.ps ≠ .route) :
    parseStep s = .next (collectStep s) := by
  unfold parseStep
  cases hps : s.ps with
  | seekSync => exact parseSeekSync_eq hinit hruns hps
  | readLength => exact parseReadLength_eq hinit hruns hps
  | readBody => exact parseReadBody_eq hinit hruns hps
  | route => exact absurd hps hp

theorem parseWhileBytes_empty (n : Nat) (h : s.rin = s.rout) : parseWhileBytes n s = .next s := by
  cases n with
  | zero => rfl
  | succ n => exact if_pos (.inr h)

theorem parseWhileBytes_collects (n : Nat) (hinit : s.inited = true) (hruns : ParserRuns s) (hp : s.ps ≠ .route)
    (hne : s.rin ≠ s.rout) : parseWhileBytes (n + 1) s = parseWhileBytes n (collectStep s) := by
  rw [parseWhileBytes, if_neg (by simp [hp, hne]), parseStep_collects hinit hruns hp, andThen_of_next]

/-- The state in which the parser has taken the first `n` bytes of a frame, over a ring of storage `b` and indices `i` and `o`;
`r` is what the last step answered. -/
abbrev fed (ty : U16) (f : Frame) (s : State) (n : Nat) (b : List Byte) (i o : Nat) (r : Result) : State :=
  answer r ((partialFrame ty f n s).io b i o s.rxq)

/-- The parser takes all that is in the ring, the next `m` bytes of the frame. -/
theorem parseWhileBytes_drains (hg : GoodFrame s ty f) (hinit : s.inited = true) (hruns : ParserRuns s) {b : List Byte}
    {i : Nat} (m : Nat) :
    ∀ (fuel n o : Nat) (r : Result), m ≤ fuel → n + m ≤ (frameBytes ty f).length → RingInv (fed ty f s n b i o r) →
      ringLive (fed ty f s n b i o r) = ((frameBytes ty f).drop n).take m →
      ∃ r', parseWhileBytes fuel (fed ty f s n b i o r) = .next (fed ty f s (n + m) b i i r') := by
  have htakes := takes_frame hg hruns.2
  induction m using Nat.strong_induction_on with
  | _ m ih =>
    intro fuel n o r hfuel hn hring hlive
    have hocc : ringOcc (fed ty f s n b i o r) = m := by
      rw [← ringLive_length, hlive, List.length_take, List.length_drop]
      omega
    have hempty := ringOcc_zero hring
    rcases Nat.eq_zero_or_pos m with rfl | hm
    · have hio : i = o := hempty.mp hocc
      subst hio
      exact ⟨r, parseWhileBytes_empty fuel rfl⟩
    · obtain ⟨fuel, rfl⟩ : ∃ k, fuel = k + 1 := ⟨fuel - 1, by omega⟩
      have hne : i ≠ o := fun h => absurd (hempty.mpr h) (by omega)
      obtain ⟨hcollects, hwanted⟩ := htakes.collects n (by omega)
      obtain ⟨k, o', hk, hkm, hstep, hring', hlive'⟩ :=
        htakes.collectStep (b := b) (i := i) (o := o) (q := s.rxq) hring hm hn hlive
      obtain ⟨r', hrest⟩ := ih (m - k) (by omega) fuel (n + k) o' .done (by omega) (by omega) hring' hlive'
      refine ⟨r', ?_⟩
      rw [parseWhileBytes_collects (s := fed ty f s n b i o r) fuel hinit hruns hcollects hne,
        collectStep_answer (s := (partialFrame ty f n s).io b i o s.rxq) r hring hcollects hwanted hne, hstep,
        show n + m = n + k + (m - k) by omega]
      exact hrest

/-- A piece that fits is put into the empty ring (R131). -/
theorem rbPut_fed {p b : List Byte} {n i : Nat} {r : Result} (hinit : s.inited = true) (hcalls : ProducerCalls s)
    (hring : RingInv (fed ty f s n b i i r)) (hp : p.length < s.cfg.bufSize) :
    ∃ b' i', exec (.rbPut p) (fed ty f s n b i i r) = .next (fed ty f s n b' i' i (.okCount p.length)) ∧
      RingInv (fed ty f s n b' i' i (.okCount p.length)) ∧ ringLive (fed ty f s n b' i' i (.okCount p.length)) = p := by
  have hocc : ringOcc (fed ty f s n b i i r) = 0 := (ringOcc_zero hring).mpr rfl
  have hfits : p.length + ringOcc (fed ty f s n b i i r) < s.cfg.bufSize := hocc ▸ hp
  have hempty : ringLive (fed ty f s n b i i r) = [] := ringLive_empty rfl
  obtain ⟨-, -, hring', hlive⟩ := ringPut_some hring (ringPut_fits hfits)
  rw [hempty, List.nil_append] at hlive
  exact ⟨_, _, rbPut_fits (s := fed ty f s n b i i r) hinit hcalls hfits, hring', hlive⟩

/-- The pieces of what is left of a frame are put into the ring and taken one after the other (R174, R385). -/
theorem parsePieces_fed (hg : GoodFrame s ty f) (hinit : s.inited = true) (hruns : ParserRuns s) (hcalls : ProducerCalls s)
    (pieces : List (List Byte)) :
    ∀ (n i : Nat) (b : List Byte) (r : Result), RingInv (fed ty f s n b i i r) → n ≤ (frameBytes ty f).length →
      (∀ p ∈ pieces, p.length < s.cfg.bufSize) → pieces.flatten = (frameBytes ty f).drop n →
      ∃ b' i' r', parsePieces pieces (fed ty f s n b i i r) = .next (fed ty f s (frameBytes ty f).length b' i' i' r') := by
  induction pieces with
  | nil =>
    intro n i b r _ hn _ hflat
    have hend : n = (frameBytes ty f).length := Nat.le_antisymm hn (List.drop_eq_nil_iff.mp hflat.symm)
    exact ⟨b, i, r, hend ▸ rfl⟩
  | cons p pieces ih =>
    intro n i b r hring hn hshort hflat
    rw [List.flatten_cons] at hflat
    have hlen : p.length ≤ (frameBytes ty f).length - n := by
      rw [← List.length_drop, ← hflat, List.length_append]
      omega
    have hpiece : p = ((frameBytes ty f).drop n).take p.length := by rw [← hflat, List.take_left' rfl]
    have hlater : pieces.flatten = (frameBytes ty f).drop (n + p.length) := by
      rw [← List.drop_drop, ← hflat, List.drop_left' rfl]
    obtain ⟨b₁, i₁, hput, hring₁, hlive⟩ := rbPut_fed hinit hcalls hring (hshort p List.mem_cons_self)
    obtain ⟨r₁, htaken⟩ := parseWhileBytes_drains hg hinit hruns p.length p.length n i _ (Nat.le_refl _) (by omega) hring₁
      (hlive.trans hpiece)
    obtain ⟨b₂, i₂, r₂, hrest⟩ := ih (n + p.length) i₁ b₁ r₁ ⟨hring₁.1, hring₁.2.1, hring₁.2.1⟩ (by omega)
      (fun q hq => hshort q (List.mem_cons_of_mem p hq)) hlater
    refine ⟨b₂, i₂, r₂, ?_⟩
    rw [parsePieces, hput, andThen_of_next, htaken, andThen_of_next, hrest]

/-- The frame in pieces: a parser in SEEK_SYNC over an empty ring takes them all (R174). -/
theorem parse_pieces {pieces : List (List Byte)} (hrun : Running s) (hp : ParserRuns s) (hinv : Inv s) (hps : s.ps = .seekSync)
    (hfits : Fits s payload) (hcalls : ProducerCalls s) (hempty : s.rin = s.rout)
    (hshort : ∀ p ∈ pieces, p.length < s.cfg.bufSize) (hflat : pieces.flatten = wireFrame ty payload) :
    ∃ v, parsePieces pieces s = .next v ∧ HoldsFrame ty payload [] v := by
  obtain ⟨hinit, hengine⟩ := hrun
  have hg := goodFrame_encoded hinv.cfg hfits ty
  have hstart : fed ty (encodedFrame ty payload) s 0 s.rbuf s.rin s.rout s.res = s := by
    rw [fed, partialFrame_zero hps (hinv.parserAgrees hps)]
    rfl
  rw [← hempty] at hstart
  obtain ⟨b, i, r, hparse⟩ := parsePieces_fed hg hinit hp hcalls pieces 0 s.rin s.rbuf s.res
    (hstart.symm ▸ hinv.ring) (Nat.zero_le _) hshort hflat
  have hwhole : fed ty (encodedFrame ty payload) s (frameBytes ty (encodedFrame ty payload)).length b i i r =
      answer r (assembled ty (encodedFrame ty payload) (s.io b i i s.rxq)) := by
    rw [fed, frameBytes_length hg.2.1, partialFrame_whole hg]
    rfl
  rw [hstart, hwhole] at hparse
  have hlive : ringLive (s.io b i i s.rxq) = [] := ringLive_empty rfl
  exact ⟨_, hparse, hlive ▸ holdsFrame_assembled (s := s.io b i i s.rxq) hengine hinv.cfg hfits ty r⟩

/-- Settles O24: the three steps over the whole frame (`parse_whole`), and the run over its pieces (`parse_pieces`). -/
theorem frameRoundTrip : Obligations.FrameRoundTrip := fun _ _ _ hrun hp hinv hps hfits =>
  ⟨fun _ hlive => parse_whole hrun hp hinv hps hfits hlive,
    fun _ hcalls hempty hshort hflat => parse_pieces hrun hp hinv hps hfits hcalls hempty hshort hflat⟩

end Sys2Proof.Machine
end

section
/-! PROOF. What the hardware transmits (spec/42_frame_encoder.md R170, R176, spec/47_ingress_pump.md R306): whole frames that ENCODE
built, and nothing else. -/

namespace Sys2Proof.Machine

variable {s t u : State}

/-! ### The transmit stream -/

/-- From `s` to `t` the transmit stream grows by whole frames of the shape of R306. -/
def AppendsFrames (s t : State) : Prop :=
  ∃ fs : List (List Byte), t.txq = s.txq ++ fs.flatten ∧ ∀ f ∈ fs, FrameShape f

theorem appendsFrames_of_txq_eq (h : t.txq = s.txq) : AppendsFrames s t :=
  ⟨[], by simpa using h, nofun⟩

theorem AppendsFrames.trans (hst : AppendsFrames s t) (htu : AppendsFrames t u) : AppendsFrames s u := by
  obtain ⟨fs, ht, hfs⟩ := hst
  obtain ⟨gs, hu, hgs⟩ := htu
  refine ⟨fs ++ gs, by rw [hu, ht, List.flatten_append, List.append_assoc], fun f hf => ?_⟩
  rcases List.mem_append.mp hf with hf | hf
  · exact hfs f hf
  · exact hgs f hf

/-- ENCODE builds frames of the shape of R306: its table is the generated one, and MAX_FRAME keeps the size in 16 bits (R7). -/
def EncoderReady (s : State) : Prop := s.crcTable = crcTableGen ∧ s.cfg.maxFrame ≤ 65539

theorem Inv.encoderReady (h : Inv s) (hcrc : s.crcInit = true) : EncoderReady s := by
  obtain ⟨-, -, hmax, -⟩ := h.cfg
  exact ⟨h.crc.2 hcrc, hmax⟩

theorem encodeIn_shape {ty : U16} {payload f : List Byte} (h : EncoderReady s) (hf : encodeIn s ty payload = some f) :
    FrameShape f := by
  obtain ⟨htable, hmax⟩ := h
  rw [encodeIn_engine htable] at hf
  split at hf
  · obtain rfl := Option.some.inj hf
    exact wireFrame_shape ty payload (by omega)
  · cases hf

/-! ### Operations that keep the encoder ready and append whole frames -/

/-- An operation from `s` to `t` that neither transmits nor writes what ENCODE reads. -/
structure Silent (s t : State) : Prop where
  txq : t.txq = s.txq
  table : t.crcTable = s.crcTable
  cfg : t.cfg = s.cfg

theorem Silent.trans (hst : Silent s t) (htu : Silent t u) : Silent s u :=
  ⟨htu.txq.trans hst.txq, htu.table.trans hst.table, htu.cfg.trans hst.cfg⟩

/-- An operation from `s` to `t` that transmits whole frames, if any, and leaves the encoder ready. -/
def Transmits (s t : State) : Prop := EncoderReady s → EncoderReady t ∧ AppendsFrames s t

theorem Silent.transmits (h : Silent s t) : Transmits s t := by
  rintro ⟨htable, hmax⟩
  exact ⟨⟨h.table.trans htable, by rw [h.cfg]; exact hmax⟩, appendsFrames_of_txq_eq h.txq⟩

theorem Transmits.trans (hst : Transmits s t) (htu : Transmits t u) : Transmits s u := fun hs =>
  let ⟨ht, hfs⟩ := hst hs
  let ⟨hu, hgs⟩ := htu ht
  ⟨hu, hfs.trans hgs⟩

theorem answer_silent (r : Result) (s : State) : Silent s (answer r s) := ⟨rfl, rfl, rfl⟩

theorem raise_silent (e : Event) (s : State) : Silent s (raise e s) := ⟨rfl, rfl, rfl⟩

theorem Silent.answer (h : Silent s t) (r : Result) : Silent s (answer r t) := h.trans (answer_silent r t)

theorem Transmits.answer (h : Transmits s t) (r : Result) : Transmits s (answer r t) := h.trans (answer_silent r t).transmits

/-- TX of what ENCODE built (R176), with nothing written since that it reads. -/
theorem Silent.transmit {ty : U16} {payload f : List Byte} (h : Silent s t) (hf : encodeIn s ty payload = some f) :
    Transmits s (transmit f t) := fun hs =>
  let ⟨ht, _⟩ := h.transmits hs
  ⟨ht, [f], by simp [Machine.transmit, h.txq], by simpa using encodeIn_shape hs hf⟩

theorem Silent.transmitReply (h : Silent s t) (ty : U16) (payload : List Byte) :
    Transmits s (transmitReply (encodeIn s ty payload) t) := by
  cases hf : encodeIn s ty payload with
  | none => exact h.transmits
  | some f => exact h.transmit hf

/-! ### The silent operations -/

theorem setClass_silent (c : CClass) (r : ClassRegs) (s : State) : Silent s (setClass c r s) := by
  cases c <;> exact ⟨rfl, rfl, rfl⟩

theorem drawBody_silent (body : List Byte) (s : State) : Silent s (drawBody body s).2 := by
  unfold drawBody
  split <;> exact ⟨rfl, rfl, rfl⟩

theorem drawCallback_silent (cb : Handle) (arg : List Byte) (s : State) : Silent s (drawCallback cb arg s).2 := by
  unfold drawCallback
  split <;> exact ⟨rfl, rfl, rfl⟩

theorem corrDeliver_silent (ty : U16) (body : List Byte) (s : State) : Silent s (corrDeliver ty body s) := by
  obtain ⟨c, he⟩ | he := corrDeliver_eq ty body s <;> rw [he]
  · exact ((drawBody_silent body s).trans (setClass_silent c _ _)).answer _
  · exact (raise_silent _ s).answer _

theorem msWrite_silent (addr : U16) (data : List Byte) (s : State) : Silent s (msWrite addr data s) := by
  unfold msWrite
  dsimp only
  split <;> exact ⟨rfl, rfl, rfl⟩

theorem routeEnd_silent (s : State) : Silent s (routeEnd s) := by
  unfold routeEnd
  split <;> exact ⟨rfl, rfl, rfl⟩

theorem ringPut_silent {b : List Byte} (h : ringPut b s = some t) : Silent s t := by
  unfold ringPut at h
  split at h
  · cases h
  · cases h
    exact ⟨rfl, rfl, rfl⟩

theorem rxDeliver_silent (chunk : List Byte) (s : State) : Silent s (rxDeliver chunk s) := by
  unfold rxDeliver
  split
  · rename_i t hput
    exact (ringPut_silent hput).trans ⟨rfl, rfl, rfl⟩
  · split <;> exact ⟨rfl, rfl, rfl⟩

theorem transportTake_silent (k : Nat) (s : State) : Silent s (transportTake k s).2 := by
  rw [transportTake_spec]
  exact ⟨rfl, rfl, rfl⟩

theorem drawRead_silent (s : State) : Silent s (drawRead s).2 := by
  unfold drawRead
  split <;> exact ⟨rfl, rfl, rfl⟩

/-- A step of the RX agent is silent if the read it makes is. -/
theorem rxStepBy_silent {read : State → List Byte × State} (h : Silent s (read s).2) : Silent s (rxStepBy read s) := by
  rw [rxStepBy_eq]
  split
  · exact (rxDeliver_silent _ s).answer _
  · split
    · exact h.answer _
    · exact (h.trans (rxDeliver_silent _ _)).answer _

theorem rxStep_silent (s : State) : Silent s (rxStep s) :=
  rxStepBy_silent ((drawRead_silent s).trans (transportTake_silent _ _))

theorem checkHeader_silent (s : State) : Silent s (checkHeader s) := by
  obtain ⟨e, he⟩ | ⟨_, _, he⟩ := checkHeader_eq s <;> rw [he] <;> exact ⟨rfl, rfl, rfl⟩

theorem collectOn_silent (r : List Byte) (s : State) : Silent s (collectOn r s) := by
  have hassemble : Silent s (assemble r s) := ⟨rfl, rfl, rfl⟩
  unfold collectOn
  split
  · unfold seekSyncOn
    split
    · exact answer_silent _ s
    · split <;> exact ⟨rfl, rfl, rfl⟩
  · unfold readLengthOn
    dsimp only
    split
    · split
      · exact answer_silent _ s
      · exact hassemble.answer _
    · exact (hassemble.trans (checkHeader_silent _)).answer _
  · unfold readBodyOn
    dsimp only
    split
    · exact ⟨rfl, rfl, rfl⟩
    · split
      · exact answer_silent _ s
      · exact hassemble.answer _
  · exact ⟨rfl, rfl, rfl⟩

theorem collectStep_silent (s : State) : Silent s (collectStep s) :=
  Silent.trans (t := (ringGet (wanted s) s).2) ⟨rfl, rfl, rfl⟩ (collectOn_silent _ _)

theorem coopEnd_silent (s : State) : Silent s (coopEnd s) := by
  unfold coopEnd
  split
  · exact ⟨rfl, rfl, rfl⟩
  · split <;> exact answer_silent _ s

/-! ### The operations that transmit -/

theorem msRead_transmits (addr len : U16) (s : State) : Transmits s (msRead addr len s) := by
  unfold msRead
  split
  · exact ((raise_silent _ s).transmitReply _ _).answer _
  · dsimp only
    split
    · exact ((raise_silent _ s).answer _).transmits
    · rename_i f hf
      exact (Silent.transmit (t := s) ⟨rfl, rfl, rfl⟩ hf).answer _

theorem dispatchReply_transmits (code : U16) (ret : List Byte) (s : State) : Transmits s (dispatchReply code ret s) := by
  unfold dispatchReply
  split
  · exact ((raise_silent _ s).answer _).transmits
  · rename_i f hf
    exact (Silent.transmit (t := s) ⟨rfl, rfl, rfl⟩ hf).answer _

theorem dispatchCall_transmits (code : U16) (arg : List Byte) (s : State) : OnNext (Transmits s) (dispatchCall code arg s) := by
  unfold dispatchCall
  split
  · exact ((raise_silent _ s).transmitReply _ _).answer _
  · rename_i cb _
    have hdraw := drawCallback_silent cb arg s
    split
    · rename_i hd
      rw [hd] at hdraw
      exact onNext_ite (fun _ => hdraw.transmits.trans (dispatchReply_transmits _ _ _)) fun _ => trivial
    · rename_i u hd
      rw [hd] at hdraw
      exact (hdraw.trans (u := answer .hold { u with parserStuck := true }) ⟨rfl, rfl, rfl⟩).transmits
    · trivial

theorem routeRequest_transmits (ty : U16) (p : List Byte) (s : State) : OnNext (Transmits s) (routeRequest ty p s) := by
  have hdropped : ∀ e, OnNext (Transmits s) (.next (answer .done (raise e s))) := fun e =>
    ((raise_silent e s).answer _).transmits
  rw [routeRequest_spec]
  refine onNext_ite (fun _ => ?write) fun _ => onNext_ite (fun _ => ?read) fun _ => onNext_ite (fun _ => ?func) fun _ =>
    hdropped _
  case write => exact onNext_ite (fun _ => hdropped _) fun _ => (msWrite_silent _ _ s).transmits
  case read => exact onNext_ite (fun _ => hdropped _) fun _ => msRead_transmits _ _ s
  case func => exact onNext_ite (fun _ => hdropped _) fun _ => dispatchCall_transmits _ _ s

theorem routeStep_transmits (s : State) : OnNext (Transmits s) (routeStep s) :=
  onNext_andThen <| OnNext.mono (P := Transmits s)
    (onNext_ite (fun _ => ((raise_silent _ s).answer _).transmits) fun _ =>
      onNext_ite (fun _ => routeRequest_transmits _ _ s) fun _ => (corrDeliver_silent _ _ s).transmits)
    fun t ht => ht.trans (routeEnd_silent t).transmits

theorem issueCall_transmits (c : CClass) (ty : U16) (payload : List Byte) (echo : U16) (s : State) :
    OnNext (Transmits s) (issueCall c ty payload echo s) :=
  onNext_ite (fun _ => trivial) fun _ => by
    split
    · exact (answer_silent _ s).transmits
    · rename_i f hf
      exact ((setClass_silent c _ s).transmit hf).answer _

theorem execWriteRemoteMemory_transmits (addr len : U16) (data : List Byte) (s : State) :
    OnNext (Transmits s) (execWriteRemoteMemory addr len data s) :=
  onNext_requireInited fun _ => onNext_requireCrc fun _ => onNext_ite (fun _ => trivial) fun _ => by
    split
    · exact (answer_silent _ s).transmits
    · rename_i f hf
      exact (Silent.transmit (t := s) ⟨rfl, rfl, rfl⟩ hf).answer _

/-! ### The runs of steps -/

/-- An operation that transmits whole frames, after one that does. -/
theorem Transmits.onNext {o : Out} (hst : Transmits s t) (ho : OnNext (Transmits t) o) : OnNext (Transmits s) o :=
  ho.mono fun _ htu => hst.trans htu

theorem pump_transmits (fuel : Nat) (s : State) : OnNext (Transmits s) (pump fuel s) := by
  have stay : ∀ u, Transmits u u := fun _ => Silent.transmits ⟨rfl, rfl, rfl⟩
  induction fuel generalizing s with
  | zero => exact stay s
  | succ fuel ih =>
    exact onNext_ite (fun _ => stay s) fun _ =>
      onNext_ite (fun _ => onNext_andThen ((routeStep_transmits s).mono fun t ht => ht.onNext (ih t))) fun _ =>
        onNext_ite (fun _ => (collectStep_silent s).transmits.onNext (ih _)) fun _ =>
          onNext_ite (fun _ => stay s) fun _ =>
            (rxStepBy_silent (transportTake_silent _ s)).transmits.onNext (ih _)

theorem coopParse_transmits (fuel : Nat) (s : State) : OnNext (Transmits s) (coopParse fuel s) := by
  induction fuel generalizing s with
  | zero => exact (answer_silent _ s).transmits
  | succ fuel ih =>
    have hcollect := (collectStep_silent s).transmits
    exact onNext_ite (fun _ => onNext_andThen ((routeStep_transmits s).mono fun _ ht => ht.answer _)) fun _ =>
      onNext_ite (fun _ => hcollect) fun _ => hcollect.onNext (ih _)

theorem receiveBytes_transmits (bs : List Byte) (s : State) : OnNext (Transmits s) (receiveBytes bs s) := by
  have happend : Silent s { s with rxq := s.rxq ++ bs } := ⟨rfl, rfl, rfl⟩
  exact onNext_requireInited fun _ => onNext_requireCrc fun _ =>
    onNext_ite (fun _ => (happend.answer _).transmits) fun _ =>
      onNext_parserAgent (happend.answer _).transmits ((happend.answer _).transmits.onNext (pump_transmits _ _))

theorem execCoopStep_transmits (s : State) : OnNext (Transmits s) (execCoopStep s) :=
  onNext_requireInited fun _ => onNext_requireCrc fun _ => onNext_ite (fun _ => trivial) fun _ =>
    onNext_parserAgent (answer_silent _ s).transmits <|
      onNext_andThen ((coopParse_transmits _ _).mono fun t ht =>
        ((rxStep_silent s).transmits.trans ht).trans (coopEnd_silent t).transmits)

/-! ### The instructions -/

/-- An initialised context has its CRC table (R372), so its encoder is ready. -/
theorem Inv.sends {o : Out} (h : Inv s) (ho : OnNext (Transmits s) (requireInited s o)) :
    OnNext (AppendsFrames s) (requireInited s o) :=
  onNext_requireInited fun hi => by
    rw [requireInited_pos hi] at ho
    exact ho.mono fun _ ht => (ht (h.encoderReady (h.crc.1 hi))).2

/-- Every instruction but TX and INITIALIZE transmits whole frames or nothing. -/
theorem exec_appendsFrames (h : Inv s) (i : Instr) (htx : ∀ f, i ≠ .tx f) (hinit : ∀ a r w, i ≠ .initContext a r w) :
    OnNext (AppendsFrames s) (exec i s) := by
  have same : ∀ {t}, t.txq = s.txq → AppendsFrames s t := appendsFrames_of_txq_eq
  have hold : AppendsFrames s (answer .hold s) := same rfl
  cases i with
  | writeReq f | readReq f | funcReq f | readRsp f | funcRsp f | readErr f | funcErr f =>
    exact h.sends (receiveBytes_transmits _ s)
  | initContext handle readFn writeFn => exact absurd rfl (hinit handle readFn writeFn)
  | writeRemoteMemory addr len data => exact h.sends (execWriteRemoteMemory_transmits addr len data s)
  | readRemoteMemory addr len | callRemoteFunction code arg =>
    exact h.sends (onNext_requireInited fun _ => onNext_requireCrc fun _ => issueCall_transmits _ _ _ _ s)
  | registerFunction code cb => exact onNext_registerFunction (fun _ => same rfl) fun _ _ _ => same rfl
  | listFunctions | rbSize | corrTick | corrValidate c r => exact onNext_requireInited fun _ => same rfl
  | rbPut b =>
    exact onNext_requireInited fun _ => onNext_requireProducer <| by
      split
      · have hput := ringPut_silent ‹_›
        exact same hput.txq
      · exact same rfl
  | rbGet m => exact onNext_requireInited fun _ => onNext_requireConsumer <| onNext_parserAgent hold (same rfl)
  | crcInit => exact same rfl
  | crcChecksum data n => exact onNext_requireCrc fun _ => onNext_ite (fun _ => same rfl) fun _ => trivial
  | crcStore buf total | crcVerify buf total =>
    exact onNext_requireCrc fun _ => onNext_requireTrailer (same rfl)
  | encodeFrame ty payload => exact onNext_requireCrc fun _ => by split <;> exact same rfl
  | parseSeekSync | parseReadLength | parseReadBody =>
    exact onNext_requireInited fun _ => onNext_parse hold (same (collectStep_silent s).txq)
  | parseRoute =>
    exact h.sends (onNext_requireInited fun _ => onNext_requireCrc fun _ =>
      onNext_parse (answer_silent _ s).transmits (routeStep_transmits s))
  | corrDeliver ty payload =>
    exact onNext_requireInited fun _ => onNext_parserAgent hold (same (corrDeliver_silent _ _ s).txq)
  | corrWait c =>
    exact onNext_corrWait (fun _ => same (setClass_silent c _ s).txq) (same (setClass_silent c _ s).txq) hold
  | msWrite addr data => exact onNext_requireInited fun _ => onNext_parserAgent hold (same (msWrite_silent addr data s).txq)
  | msRead addr len =>
    exact h.sends (onNext_requireInited fun _ => onNext_requireCrc fun _ =>
      onNext_parserAgent (answer_silent _ s).transmits (msRead_transmits addr len s))
  | dispatch code arg =>
    exact h.sends (onNext_requireInited fun _ => onNext_requireCrc fun _ =>
      onNext_parserAgent (answer_silent _ s).transmits (dispatchCall_transmits code arg s))
  | rxStep => exact onNext_requireInited fun _ => onNext_onItsOwn hold (same (rxStep_silent s).txq)
  | tx f => exact absurd rfl (htx f)
  | coopStep => exact h.sends (execCoopStep_transmits s)

/-- Settles O12: instruction by instruction (`exec_appendsFrames`). -/
theorem transmitsWholeFrames : Obligations.TransmitsWholeFrames :=
  fun _ t i h ht htx hinit => onNext_iff.mp (exec_appendsFrames h i htx hinit) t ht

end Sys2Proof.Machine
end

section
/-! PROOF. The collecting steps of the parser, PARSE_SEEK_SYNC, PARSE_READ_LENGTH and PARSE_READ_BODY (spec/43_frame_parser.md R192
to R194): one equation per way each of them ends, and what it takes from the ring. -/

namespace Sys2Proof.Machine

variable {s : State} {r : List Byte}

/-! ### What a step takes from the ring -/

/-- A collecting step takes the front of the live bytes, as much as it asks for. -/
theorem collectStep_takes (h : RingInv s) (hr : r = (ringLive s).take (wanted s)) :
    collectStep s = collectOn r { s with rout := (s.rout + r.length) % s.cfg.bufSize } := by
  rw [collectStep_eq h, hr, List.length_take, ringLive_length]

/-- A step that finds none of the bytes it asks for leaves the ring as it is. -/
theorem collectStep_finds_none (h : RingInv s) (hr : [] = (ringLive s).take (wanted s)) :
    collectStep s = collectOn [] s := by
  rw [collectStep_takes h hr, List.length_nil, rout_stays h]

/-! ### SEEK_SYNC (R192) -/

theorem wanted_seekSync (hps : s.ps = .seekSync) : wanted s = 1 := by
  rw [wanted, hps]

theorem collectOn_seekSync (hps : s.ps = .seekSync) : collectOn r s = seekSyncOn r s := by
  rw [collectOn, hps]

theorem seekSyncOn_other {b : Byte} (hb : b ≠ sync1) :
    seekSyncOn (b :: r) s = answer .done (raise (.badSync1 b) s) :=
  if_pos hb

/-- Settles O25: the byte taken is none, another one (`seekSyncOn_other`), or the first sync byte (`collectOn_sync`). -/
theorem seekSyncTakesOneByte : Obligations.SeekSyncTakesOneByte := by
  intro s hinit hruns hinv hps
  have hstep := parseSeekSync_eq hinit hruns hps
  have hfirst : ∀ b rest, ringLive s = b :: rest →
      exec .parseSeekSync s = .next (collectOn [b] { s with rout := (s.rout + 1) % s.cfg.bufSize }) := fun b rest hlive => by
    rw [hstep, collectStep_takes (r := [b]) hinv.ring (by rw [hlive, wanted_seekSync hps]; rfl)]
    rfl
  refine ⟨rfl, fun hempty => ?_, fun b rest hlive hb => ?_, fun rest hlive => ?_⟩
  · rw [hstep, collectStep_finds_none hinv.ring (by rw [hempty, List.take_nil]), collectOn_seekSync hps]
    rfl
  · rw [hfirst b rest hlive, collectOn_seekSync (by exact hps), seekSyncOn_other hb]
    rfl
  · rw [hfirst _ rest hlive, collectOn_sync (by exact hps)]

/-! ### READ_LENGTH (R193) -/

theorem wanted_readLength (hps : s.ps = .readLength) : wanted s = 4 - s.acnt := by
  rw [wanted, hps]

theorem collectOn_readLength (hps : s.ps = .readLength) : collectOn r s = readLengthOn r s := by
  rw [collectOn, hps]

theorem readLengthOn_nil (h : s.acnt < 4) : readLengthOn [] s = answer .hold s :=
  (if_pos h).trans (if_pos rfl)

theorem readLengthOn_progress (hr : r ≠ []) (h : s.acnt + r.length < 4) :
    readLengthOn r s = answer .done (assemble r s) :=
  (if_pos h).trans (if_neg hr)

theorem readLengthOn_header (h : 4 ≤ s.acnt + r.length) :
    readLengthOn r s = answer .done (checkHeader (assemble r s)) :=
  if_neg (Nat.not_lt.mpr h)

theorem checkHeader_badSync2 (hsync : byteAt s.abuf 1 ≠ sync2) :
    checkHeader s = resync (raise (.badSync2 (byteAt s.abuf 1)) s) :=
  if_pos hsync

theorem checkHeader_oversize (hsync : byteAt s.abuf 1 = sync2) (hmax : s.cfg.maxFrame ≤ (u16be s.abuf 2).toNat + 4) :
    checkHeader s = resync (raise (.oversize (u16be s.abuf 2)) s) :=
  (if_neg (not_not.mpr hsync)).trans (if_pos hmax)

theorem checkHeader_undersize (hsync : byteAt s.abuf 1 = sync2) (hmax : (u16be s.abuf 2).toNat + 4 < s.cfg.maxFrame)
    (h6 : (u16be s.abuf 2).toNat < 6) : checkHeader s = resync (raise (.undersize (u16be s.abuf 2)) s) :=
  (if_neg (not_not.mpr hsync)).trans ((if_neg (Nat.not_le.mpr hmax)).trans (if_pos h6))

theorem checkHeader_accepts (hsync : byteAt s.abuf 1 = sync2) (hmax : (u16be s.abuf 2).toNat + 4 < s.cfg.maxFrame)
    (h6 : 6 ≤ (u16be s.abuf 2).toNat) : checkHeader s = { s with asize := u16be s.abuf 2, ps := .readBody } :=
  (if_neg (not_not.mpr hsync)).trans ((if_neg (Nat.not_le.mpr hmax)).trans (if_neg (Nat.not_lt.mpr h6)))

/-- The bytes assembled, and those behind them in the buffer. -/
theorem assemble_eq {b : List Byte} (hb : b = s.abuf.take s.acnt ++ r) (hcount : s.acnt ≤ s.abuf.length) :
    assemble r s = { s with abuf := b ++ s.abuf.drop b.length, acnt := b.length } := by
  have hlen : b.length = s.acnt + r.length := by rw [hb, List.length_append, List.length_take_of_le hcount]
  rw [assemble, splice, hlen, hb]

theorem u16be_append_left {a : List Byte} {i : Nat} (h : i + 1 < a.length) (b : List Byte) :
    u16be (a ++ b) i = u16be a i := by
  rw [u16be, u16be, byteAt_append_left _ _ _ (Nat.lt_of_succ_lt h), byteAt_append_left _ _ _ h]

/-- Settles O26: the step holds (`readLengthOn_nil`), goes on (`readLengthOn_progress`), or has the header, whose checks
(`checkHeader_badSync2` and the three after it) read the four bytes assembled. -/
theorem readLengthChecksHeader : Obligations.ReadLengthChecksHeader := by
  intro s r b hinit hruns hinv hps hr hb
  obtain ⟨-, hframe, -⟩ := hinv.cfg
  obtain ⟨hlow, hhigh⟩ := hinv.parserAgrees hps
  have hcount : s.acnt ≤ s.abuf.length := by rw [hinv.abuf_length]; omega
  have hlen : b.length = s.acnt + r.length := by rw [hb, List.length_append, List.length_take_of_le hcount]
  rw [← wanted_readLength hps] at hr
  have hstep := parseReadLength_eq hinit hruns hps
  have hcollect := (collectStep_takes hinv.ring hr).trans (collectOn_readLength (by exact hps))
  have hassemble := assemble_eq (s := { s with rout := (s.rout + r.length) % s.cfg.bufSize }) hb hcount
  refine ⟨rfl, fun hnil => ?_, _, rfl, fun hne hshort => ?_, ?_⟩
  · rw [hstep, collectStep_finds_none hinv.ring (hnil ▸ hr), collectOn_readLength hps, readLengthOn_nil (by omega)]
    rfl
  · rw [hstep, hcollect, readLengthOn_progress hne (by show s.acnt + _ < 4; omega), hassemble]
    rfl
  have hheader : b.length = 4 → exec .parseReadLength s = .next (answer .done (checkHeader
      { s with
        rout := (s.rout + r.length) % s.cfg.bufSize, abuf := b ++ s.abuf.drop b.length, acnt := b.length })) := fun hfour => by
    rw [hstep, hcollect, readLengthOn_header (by show 4 ≤ s.acnt + _; omega), hassemble]
  have hsync : b.length = 4 → byteAt (b ++ s.abuf.drop b.length) 1 = byteAt b 1 := fun hfour =>
    byteAt_append_left _ _ _ (by omega)
  have hsize : b.length = 4 → u16be (b ++ s.abuf.drop b.length) 2 = u16be b 2 := fun hfour =>
    u16be_append_left (by omega) _
  refine ⟨fun hfour hbad => ?_, fun hfour h90 hmax => ?_, fun hfour h90 hmax h6 => ?_, fun hfour h90 hmax h6 => ?_⟩
  · rw [hheader hfour, checkHeader_badSync2 (by rwa [hsync hfour]), hsync hfour]
    rfl
  · rw [hheader hfour, checkHeader_oversize (by rwa [hsync hfour]) (by rwa [hsize hfour]), hsize hfour]
    rfl
  · rw [hheader hfour, checkHeader_undersize (by rwa [hsync hfour]) (by rwa [hsize hfour]) (by rwa [hsize hfour]), hsize hfour]
    rfl
  · rw [hheader hfour, checkHeader_accepts (by rwa [hsync hfour]) (by rwa [hsize hfour]) (by rwa [hsize hfour]), hsize hfour,
      hfour]
    rfl

/-! ### READ_BODY (R194) -/

theorem wanted_readBody (hps : s.ps = .readBody) : wanted s = s.asize.toNat + 4 - s.acnt := by
  rw [wanted, hps]

theorem collectOn_readBody (hps : s.ps = .readBody) : collectOn r s = readBodyOn r s := by
  rw [collectOn, hps]

theorem readBodyOn_nil (h : s.acnt < s.asize.toNat + 4) : readBodyOn [] s = answer .hold s :=
  (if_neg (Nat.ne_of_lt h)).trans (if_pos rfl)

/-- Bytes obtained are assembled, and ROUTE follows exactly when they complete the frame. -/
theorem readBodyOn_takes (hr : r ≠ []) :
    readBodyOn r s = answer .done
      { assemble r s with ps := if s.acnt + r.length = s.asize.toNat + 4 then .route else s.ps } := by
  by_cases hfull : s.acnt + r.length = s.asize.toNat + 4
  · rw [if_pos hfull]
    exact if_pos hfull
  · rw [if_neg hfull]
    exact (if_neg hfull).trans (if_neg hr)

/-- Settles O27: the step holds (`readBodyOn_nil`) or takes bytes (`readBodyOn_takes`). -/
theorem readBodyCollects : Obligations.ReadBodyCollects := by
  intro s r hinit hruns hinv hps hr
  obtain ⟨-, -, hneeds⟩ := hinv.parserAgrees hps
  rw [← wanted_readBody hps] at hr
  have hstep := parseReadBody_eq hinit hruns hps
  refine ⟨rfl, fun hnil => ?_, fun hne => ?_⟩
  · rw [hstep, collectStep_finds_none hinv.ring (hnil ▸ hr), collectOn_readBody hps, readBodyOn_nil hneeds]
    rfl
  · rw [hstep, collectStep_takes hinv.ring hr, collectOn_readBody (by exact hps), readBodyOn_takes hne, hps]
    rfl

end Sys2Proof.Machine
end

section
/-! PROOF. Routing and delivery (spec/43_frame_parser.md R195 to R198): what PARSE_ROUTE does with a good request or response, and
what CORR_DELIVER does with a body of any length (log entry 22). -/

namespace Sys2Proof.Machine

variable {s : State} {ty : U16} {p body : List Byte}

/-! ### A good trailer (R195) -/

/-- What PARSE_ROUTE asks of a state, and a frame in it whose trailer is the checksum of the bytes before it (R195). -/
structure RoutesGood (s : State) : Prop where
  running : Running s
  runs : ParserRuns s
  ps : s.ps = .route
  trailer : u32be s.abuf s.asize.toNat = crcBitwise (s.abuf.take s.asize.toNat)

theorem RoutesGood.request (h : RoutesGood s) (hty : ty = u16be s.abuf 4) (hp : p = slice s.abuf 6 s.asize.toNat)
    (hreq : typeReq ty = true) :
    exec .parseRoute s = andThen (routeRequest ty p s) fun t => .next (routeEnd t) := by
  rw [parseRoute_eq h.running h.runs h.ps, routeStep_good h.running.2.2 h.trailer, ← hty, ← hp, if_pos hreq]

theorem RoutesGood.response (h : RoutesGood s) (hty : ty = u16be s.abuf 4) (hbody : body = slice s.abuf 4 s.asize.toNat)
    (hreq : typeReq ty = false) :
    exec .parseRoute s = .next (routeEnd (corrDeliver ty body s)) := by
  rw [parseRoute_eq h.running h.runs h.ps, routeStep_good h.running.2.2 h.trailer, ← hty, ← hbody, if_neg (by simp [hreq]),
    andThen_of_next]

/-! ### Requests (R197) -/

/-- The payload disagrees with its own length field, so that a WRITE_REQ or FUNC_REQ is dropped (R197). -/
abbrev LengthDisagrees (p : List Byte) : Prop := p.length < 4 ∨ p.length ≠ 4 + (u16be p 2).toNat

theorem routeRequest_write (hsub : typeSub ty = 0x01) :
    routeRequest ty p s =
      if LengthDisagrees p then .next (answer .done (raise (.malformed 0x01) s))
      else .next (msWrite (u16be p 0) (p.drop 4) s) := by
  rw [routeRequest_spec, if_pos hsub]

theorem routeRequest_read (hsub : typeSub ty = 0x02) :
    routeRequest ty p s =
      if p.length ≠ 4 then .next (answer .done (raise (.malformed 0x02) s))
      else .next (msRead (u16be p 0) (u16be p 2) s) := by
  rw [routeRequest_spec, hsub, if_neg (by decide), if_pos rfl]

theorem routeRequest_func (hsub : typeSub ty = 0x03) :
    routeRequest ty p s =
      if LengthDisagrees p then .next (answer .done (raise (.malformed 0x03) s))
      else dispatchCall (u16be p 0) (p.drop 4) s := by
  rw [routeRequest_spec, hsub, if_neg (by decide), if_neg (by decide), if_pos rfl]

theorem routeRequest_unknown (h1 : typeSub ty ≠ 0x01) (h2 : typeSub ty ≠ 0x02) (h3 : typeSub ty ≠ 0x03) :
    routeRequest ty p s = .next (answer .done (raise (.unknownType ty) s)) := by
  rw [routeRequest_spec, if_neg h1, if_neg h2, if_neg h3]

/-- A payload whose length agrees is served. -/
theorem not_lengthDisagrees (h4 : 4 ≤ p.length) (hlen : p.length = 4 + (u16be p 2).toNat) : ¬ LengthDisagrees p := by
  rintro (hshort | hne)
  · omega
  · exact hne hlen

theorem exec_msWrite (hinit : s.inited = true) (hruns : s.parserStuck = false) (addr : U16) (data : List Byte) :
    exec (.msWrite addr data) s = .next (msWrite addr data s) := by
  rw [exec, execMsWrite, requireInited_pos hinit, parserAgent_runs hruns]

theorem exec_msRead (hrun : Running s) (hruns : s.parserStuck = false) (addr len : U16) :
    exec (.msRead addr len) s = .next (msRead addr len s) := by
  obtain ⟨hinit, hcrc, -⟩ := hrun
  rw [exec, execMsRead, requireInited_pos hinit, requireCrc_pos hcrc, parserAgent_runs hruns]

theorem exec_dispatch (hrun : Running s) (hruns : s.parserStuck = false) (code : U16) (arg : List Byte) :
    exec (.dispatch code arg) s = dispatchCall code arg s := by
  obtain ⟨hinit, hcrc, -⟩ := hrun
  rw [exec, execDispatch, requireInited_pos hinit, requireCrc_pos hcrc, parserAgent_runs hruns]

/-- The end of the step once the request has been served with the parser agent still there. -/
theorem andThen_routeEnd {o : Out} {t : State} (ho : o = .next t) (hruns : t.parserStuck = false) :
    andThen o (fun t => .next (routeEnd t)) = .next { t with acnt := 0, ps := .seekSync } := by
  rw [ho, andThen_of_next, routeEnd_runs hruns]

/-- Settles O29: a good request is routed (`RoutesGood.request`) as its low byte says (`routeRequest_write` and the three after
it), and the step ends in SEEK_SYNC (`andThen_routeEnd`), in the callback (`routeEnd_stuck`), or as the dispatch does. -/
theorem routeServesRequests : Obligations.RouteServesRequests := by
  intro s ty p hrun hparser hps htrailer hty hp hreq
  have hruns := hparser.2
  rw [RoutesGood.request ⟨hrun, hparser, hps, htrailer⟩ hty hp hreq]
  refine ⟨rfl, fun e hdrop => ?dropped, fun hsub h4 hlen => ?write, fun hsub h4 => ?read, fun hsub h4 hlen => ?func⟩
  case dropped =>
    have hdropped : routeRequest ty p s = .next (answer .done (raise e s)) := by
      obtain ⟨hsub, hbad, rfl⟩ | ⟨hsub, hbad, rfl⟩ | ⟨hsub, hbad, rfl⟩ | ⟨h1, h2, h3, rfl⟩ := hdrop
      · rw [routeRequest_write hsub, if_pos hbad]
      · rw [routeRequest_read hsub, if_pos hbad]
      · rw [routeRequest_func hsub, if_pos hbad]
      · exact routeRequest_unknown h1 h2 h3
    exact andThen_routeEnd hdropped hruns
  case write =>
    have hserved := (routeRequest_write (s := s) hsub).trans (if_neg (not_lengthDisagrees h4 hlen))
    exact ⟨_, exec_msWrite hrun.1 hruns _ _, andThen_routeEnd hserved ((msWrite_parserStuck ..).trans hruns)⟩
  case read =>
    have hserved := (routeRequest_read (s := s) hsub).trans (if_neg (not_not.mpr h4))
    exact ⟨_, exec_msRead hrun hruns _ _, andThen_routeEnd hserved ((msRead_parserStuck ..).trans hruns)⟩
  case func =>
    have hserved := (routeRequest_func (s := s) hsub).trans (if_neg (not_lengthDisagrees h4 hlen))
    rw [exec_dispatch hrun hruns, ← hserved]
    refine ⟨fun t ht hback => andThen_routeEnd ht hback, fun t ht hstuck => ?_, fun r hr => ?_⟩
    · rw [ht, andThen_of_next, routeEnd_stuck hstuck]
    · rw [hr, andThen]

/-! ### Responses (R198) -/

/-- A body whose low byte names a class signals it, whatever its length (R198; log entry 22). -/
theorem corrDeliver_class {c : CClass} (hc : responseClass (typeSub ty) = some c) :
    corrDeliver ty body s =
      answer .done (setClass c (signalBody (drawBody body s).1 (classRegs c s)) (drawBody body s).2) := by
  rw [corrDeliver, hc]

theorem corrDeliver_signals {c : CClass} (hc : responseClass (typeSub ty) = some c)
    (hfits : body.length + 9 ≤ s.cfg.maxFrame) :
    corrDeliver ty body s = answer .done (setClass c (signalBody body (classRegs c s)) s) := by
  rw [corrDeliver_class hc, (drawBody_spec body s).1 hfits]

theorem corrDeliver_overlong {c : CClass} (hc : responseClass (typeSub ty) = some c)
    (hlong : s.cfg.maxFrame < body.length + 9) :
    ∃ b : List Byte, b.length ≤ s.cfg.maxFrame - 9 ∧
      corrDeliver ty body s =
        answer .done (setClass c (signalBody b (classRegs c s)) { s with draws := s.draws + 1 }) := by
  obtain ⟨b, hb, hdraw⟩ := (drawBody_spec body s).2 hlong
  exact ⟨b, hb, by rw [corrDeliver_class hc, hdraw]⟩

theorem corrDeliver_unknown (h2 : typeSub ty ≠ 0x02) (h3 : typeSub ty ≠ 0x03) :
    corrDeliver ty body s = answer .done (raise (.unknownType ty) s) := by
  rw [corrDeliver, responseClass_none h2 h3]

/-- The body of an assembled frame, type and payload, is its size less sync and size field, and fits a slot (R30, R31). -/
theorem Inv.body_length (h : Inv s) (hps : s.ps = .route) (hbody : body = slice s.abuf 4 s.asize.toNat) :
    body.length + 4 = s.asize.toNat ∧ body.length + 9 ≤ s.cfg.maxFrame := by
  obtain ⟨⟨h6, hmax⟩, -⟩ := h.parserAgrees hps
  have hbuf := h.abuf_length
  have hlen : body.length = s.asize.toNat - 4 := by
    rw [hbody, slice, List.length_drop, List.length_take_of_le (by omega)]
  omega

/-- Settles O30: a good response is delivered (`RoutesGood.response`), its body fits the slot (`Inv.body_length`), and its low byte
names the class (`corrDeliver_signals`) or none (`corrDeliver_unknown`). -/
theorem routeStoresResponses : Obligations.RouteStoresResponses := by
  intro s ty body hrun hparser hinv hps htrailer hty hbody hreq
  obtain ⟨hlen, hfits⟩ := hinv.body_length hps hbody
  rw [RoutesGood.response ⟨hrun, hparser, hps, htrailer⟩ hty hbody hreq, show s.asize.toNat - 4 = body.length by omega]
  obtain ⟨-, hruns⟩ := hparser
  refine ⟨hlen, fun h2 => ?_, fun h3 => ?_, fun h2 h3 => ?_⟩
  · rw [corrDeliver_signals (responseClass_read h2) hfits, routeEnd_runs (by exact hruns)]
    rfl
  · rw [corrDeliver_signals (responseClass_func h3) hfits, routeEnd_runs (by exact hruns)]
    rfl
  · rw [corrDeliver_unknown h2 h3, routeEnd_runs (by exact hruns)]
    rfl

theorem exec_corrDeliver (hinit : s.inited = true) (hruns : s.parserStuck = false) :
    exec (.corrDeliver ty p) s = .next (corrDeliver ty (be16 ty ++ p) s) := by
  rw [exec, execCorrDeliver, requireInited_pos hinit, parserAgent_runs hruns]

/-- Settles O38: a body fits the slot (`corrDeliver_signals`), is too long for it (`corrDeliver_overlong`), or is of no class
(`corrDeliver_unknown`). -/
theorem corrDeliverSignals : Obligations.CorrDeliverSignals := by
  intro s ty payload hinit hruns
  have hlen : (be16 ty ++ payload).length = payload.length + 2 := by rw [List.length_append, be16_length, Nat.add_comm]
  rw [exec_corrDeliver hinit hruns, ← hlen]
  refine ⟨rfl, fun hfits => ?fits, fun hlong => ?overlong, fun h2 h3 => ?unknown⟩
  case fits =>
    have hfits : (be16 ty ++ payload).length + 9 ≤ s.cfg.maxFrame := by omega
    refine ⟨fun h2 => ?_, fun h3 => ?_⟩
    · rw [corrDeliver_signals (responseClass_read h2) hfits]
      rfl
    · rw [corrDeliver_signals (responseClass_func h3) hfits]
      rfl
  case overlong =>
    have hlong : s.cfg.maxFrame < (be16 ty ++ payload).length + 9 := by omega
    refine ⟨fun h2 => ?_, fun h3 => ?_⟩
    · obtain ⟨b, hb, hdeliver⟩ := corrDeliver_overlong (responseClass_read h2) hlong
      exact ⟨b, hb, congrArg _ hdeliver⟩
    · obtain ⟨b, hb, hdeliver⟩ := corrDeliver_overlong (responseClass_func h3) hlong
      exact ⟨b, hb, congrArg _ hdeliver⟩
  case unknown =>
    rw [corrDeliver_unknown h2 h3]
    rfl

end Sys2Proof.Machine
end

section
/-! PROOF. The Correlation Engine and the calls of the host (spec/44_correlation.md R221 to R232): what a write and the issuing
step of a call transmit, how a body is judged, and how a waiting call ends, by a signalled body or by its counter. -/

namespace Sys2Proof.Machine

variable {s : State} {c : CClass}

/-! ### The requests (R221, R225) -/

/-- A write whose `len` is that of its data (R221): one frame, or none. -/
theorem writeRemoteMemory_eq (h : Running s) {addr len : U16} {data : List Byte} (hlen : len.toNat = data.length) :
    exec (.writeRemoteMemory addr len data) s =
      .next (if data.length + 15 ≤ s.cfg.maxFrame then
        answer .ok (transmit (wireFrame 0xEC01 (be16 addr ++ be16 len ++ data)) s)
      else answer .tooLarge s) := by
  obtain ⟨hinit, hcrc, htable⟩ := h
  have hpayload : (be16 addr ++ be16 len ++ data).length = data.length + 4 := by simp; omega
  rw [exec, execWriteRemoteMemory, requireInited_pos hinit, requireCrc_pos hcrc, if_neg (not_not.mpr hlen),
    encodeIn_engine htable, hpayload]
  by_cases hfits : data.length + 15 ≤ s.cfg.maxFrame
  · rw [if_pos hfits, if_pos (by omega)]
  · rw [if_neg hfits, if_neg (by omega)]

/-- A write whose `len` is another than that of its data is refused (U12). -/
theorem writeRemoteMemory_lengthOperand (h : Running s) (addr : U16) {len : U16} {data : List Byte}
    (hlen : len.toNat ≠ data.length) :
    exec (.writeRemoteMemory addr len data) s = .refused .lengthOperand := by
  obtain ⟨hinit, hcrc, -⟩ := h
  rw [exec, execWriteRemoteMemory, requireInited_pos hinit, requireCrc_pos hcrc, if_pos hlen]

/-- Settles O35: the write is sent or too large (`writeRemoteMemory_eq`), or refused (`writeRemoteMemory_lengthOperand`). -/
theorem writeRemoteMemorySends : Obligations.WriteRemoteMemorySends := by
  intro s addr len data hrun
  refine ⟨rfl, fun hlen hlarge => ?_, fun hlen hfits => ?_, writeRemoteMemory_lengthOperand hrun addr⟩
  · rw [writeRemoteMemory_eq hrun hlen, if_neg (Nat.not_le.mpr hlarge)]
    rfl
  · rw [writeRemoteMemory_eq hrun hlen, if_pos hfits]
    rfl

/-- The issuing step of a call on an idle class (R225): the class waits and one frame is sent, or nothing happens. -/
theorem issueCall_eq (hengine : Engine s) (hidle : (classRegs c s).cstate = .idle) (ty : U16) (payload : List Byte)
    (echo : U16) :
    issueCall c ty payload echo s =
      .next (if Fits s payload then
        answer .issued
          (transmit (wireFrame ty payload) (setClass c (issueRegs echo s.cfg.timeoutTicks (classRegs c s)) s))
      else answer .tooLarge s) := by
  obtain ⟨-, htable⟩ := hengine
  rw [issueCall, if_neg (by rw [hidle]; decide), encodeIn_engine htable]
  by_cases hfits : Fits s payload
  · rw [if_pos hfits, if_pos hfits]
  · rw [if_neg hfits, if_neg hfits]

theorem readReqPayload_fits (addr len : U16) : Fits s (readReqPayload addr len) ↔ 14 < s.cfg.maxFrame := by
  simp [readReqPayload]

theorem keyedPayload_fits (key : U16) (data : List Byte) :
    Fits s (keyedPayload key data) ↔ data.length + 15 ≤ s.cfg.maxFrame := by
  have hlength : (keyedPayload key data).length = data.length + 4 := by simp [keyedPayload]; omega
  rw [Fits, hlength]
  omega

theorem readRemoteMemory_issued (h : Running s) (hidle : s.readCls.cstate = .idle) (hfits : 14 < s.cfg.maxFrame)
    (addr len : U16) :
    exec (.readRemoteMemory addr len) s =
      .next (answer .issued (transmit (wireFrame 0xEC02 (readReqPayload addr len))
        (setClass .read (issueRegs addr s.cfg.timeoutTicks s.readCls) s))) := by
  rw [readRemoteMemory_running h, issueCall_eq (c := .read) h.2 hidle, if_pos ((readReqPayload_fits ..).mpr hfits),
    classRegs_read]

/-- Settles O36: both calls are issued by `issueCall` (`issueCall_eq`), a read request of 14 bytes and a function request of the
length of its argument plus 14. -/
theorem callsAreIssued : Obligations.CallsAreIssued := by
  intro s key len arg hrun
  have hengine : Engine s := hrun.2
  refine ⟨rfl, rfl, fun hidle => ⟨fun hlarge => ?_, fun hfits => readRemoteMemory_issued hrun hidle hfits key len⟩,
    fun hidle => ⟨fun hlarge => ?_, fun hfits => ?_⟩⟩
  · rw [readRemoteMemory_running hrun, issueCall_eq (c := .read) hengine hidle,
      if_neg (mt (readReqPayload_fits ..).mp (Nat.not_lt.mpr hlarge))]
    rfl
  · rw [callRemoteFunction_running hrun, issueCall_eq (c := .func) hengine hidle,
      if_neg (mt (keyedPayload_fits ..).mp (Nat.not_le.mpr hlarge))]
    rfl
  · rw [callRemoteFunction_running hrun, issueCall_eq (c := .func) hengine hidle, if_pos ((keyedPayload_fits ..).mpr hfits)]
    rfl

/-! ### How a body is judged (R230) -/

variable {e : U16} {r : List Byte}

theorem validateBody_short (hlen : r.length < 3) : validateBody c e r = .shortResponse := by
  rw [validateBody, if_pos hlen]

/-- The echo register does not enter into the judgement of an error body. -/
theorem validateBody_error (hlen : 3 ≤ r.length) (hty : u16be r 0 = errType c) :
    validateBody c e r = .peerError (byteAt r 2) := by
  rw [validateBody, if_neg (Nat.not_lt.mpr hlen), if_pos hty]

theorem validateBody_unexpected (hlen : 3 ≤ r.length) (hok : u16be r 0 ≠ okType c) (herr : u16be r 0 ≠ errType c) :
    validateBody c e r = .unexpectedType := by
  rw [validateBody, if_neg (Nat.not_lt.mpr hlen), if_neg herr, if_neg hok]

theorem okType_ne_errType (c : CClass) : okType c ≠ errType c := by
  cases c <;> decide

/-- A body of the success type is judged by length, echo and declared length, in that order. -/
theorem validateBody_success (hlen : 3 ≤ r.length) (hty : u16be r 0 = okType c) :
    validateBody c e r =
      if r.length < 6 then .shortResponse
      else if u16be r 2 ≠ e then .echoMismatch
      else if (u16be r 4).toNat ≠ r.length - 6 then .lengthMismatch
      else .okData (u16be r 4) (r.drop 6) := by
  rw [validateBody, if_neg (Nat.not_lt.mpr hlen), if_neg (hty ▸ okType_ne_errType c), if_pos hty, slice, List.take_length]

theorem validateBody_success_short (hlen : 3 ≤ r.length) (hty : u16be r 0 = okType c) (hshort : r.length < 6) :
    validateBody c e r = .shortResponse := by
  rw [validateBody_success hlen hty, if_pos hshort]

theorem validateBody_echoMismatch (hlen : 6 ≤ r.length) (hty : u16be r 0 = okType c) (hecho : u16be r 2 ≠ e) :
    validateBody c e r = .echoMismatch := by
  rw [validateBody_success (by omega) hty, if_neg (Nat.not_lt.mpr hlen), if_pos hecho]

theorem validateBody_lengthMismatch (hlen : 6 ≤ r.length) (hty : u16be r 0 = okType c) (hecho : u16be r 2 = e)
    (hdecl : (u16be r 4).toNat ≠ r.length - 6) : validateBody c e r = .lengthMismatch := by
  rw [validateBody_success (by omega) hty, if_neg (Nat.not_lt.mpr hlen), if_neg (not_not.mpr hecho), if_pos hdecl]

theorem validateBody_ok (hlen : 6 ≤ r.length) (hty : u16be r 0 = okType c) (hecho : u16be r 2 = e)
    (hdecl : (u16be r 4).toNat = r.length - 6) : validateBody c e r = .okData (u16be r 4) (r.drop 6) := by
  rw [validateBody_success (by omega) hty, if_neg (Nat.not_lt.mpr hlen), if_neg (not_not.mpr hecho),
    if_neg (not_not.mpr hdecl)]

theorem corrValidate_eq (hinit : s.inited = true) (c : CClass) (r : List Byte) :
    exec (.corrValidate c r) s = .next (answer (validateBody c (echoValue c s) r) s) := by
  rw [exec, execCorrValidate, requireInited_pos hinit]

/-- Settles O41: one equation of `validateBody` per clause, against the value the echo register reads as. -/
theorem corrValidateJudges : Obligations.CorrValidateJudges := by
  intro s c hinit
  refine ⟨echoValue c s, echoValue_set, fun r okTy errTy htypes => ?_⟩
  obtain ⟨rfl, rfl⟩ : okTy = okType c ∧ errTy = errType c := by
    obtain ⟨rfl, hok, herr⟩ | ⟨rfl, hok, herr⟩ := htypes
    · exact ⟨hok, herr⟩
    · exact ⟨hok, herr⟩
  exact ⟨rfl, _, corrValidate_eq hinit c r, validateBody_short, validateBody_error, validateBody_success_short,
    validateBody_echoMismatch, validateBody_lengthMismatch, validateBody_ok, validateBody_unexpected⟩

/-- The body of an error frame of the class, whatever has been called (R103, R230). -/
theorem validateBody_errPayload (c : CClass) (e : U16) (code : Byte) :
    validateBody c e (be16 (errType c) ++ [code]) = .peerError code :=
  validateBody_error (Nat.le_refl 3) (u16be_be16 [] (errType c) [code])

/-- The body of a success frame that echoes the call and declares the length of its data (R98, R230). -/
theorem validateBody_keyed (c : CClass) {key : U16} {p data : List Byte}
    (hp : p = be16 key ++ be16 (BitVec.ofNat 16 data.length) ++ data) (hdata : data.length < 65536) :
    validateBody c key (be16 (okType c) ++ p) = .okData (BitVec.ofNat 16 data.length) data := by
  obtain ⟨hkey, hlen, hplen, hdrop⟩ := keyed_fields hp hdata
  have hbody : (be16 (okType c) ++ p).length = data.length + 6 := by rw [List.length_append, be16_length]; omega
  have hdecl : u16be p 2 = BitVec.ofNat 16 data.length := by rw [← hlen, BitVec.ofNat_toNat, BitVec.setWidth_eq]
  calc validateBody c key (be16 (okType c) ++ p) = .okData (u16be p 2) (p.drop 4) :=
        validateBody_ok (by omega) (u16be_be16 [] (okType c) p) hkey
          (hlen.trans (by rw [hbody, Nat.add_sub_cancel]))
    _ = .okData (BitVec.ofNat 16 data.length) data := by rw [hdecl, hdrop]

/-! ### How a waiting call goes on (R227, R228) -/

theorem corrWait_takes (hinit : s.inited = true) (hwait : (classRegs c s).cstate = .waiting)
    (hpend : (classRegs c s).pend = true) :
    exec (.corrWait c) s =
      .next (answer (validateBody c (echoValue c s) (slotBody (classRegs c s)))
        (setClass c (takeBody (classRegs c s)) s)) := by
  rw [exec, execCorrWait, requireInited_pos hinit]
  dsimp only
  rw [if_neg (not_not.mpr hwait), if_pos hpend]

theorem corrWait_times_out (hinit : s.inited = true) (hwait : (classRegs c s).cstate = .waiting)
    (hpend : (classRegs c s).pend = false) (htcnt : (classRegs c s).tcnt = 0) :
    exec (.corrWait c) s = .next (answer .timeout (setClass c { classRegs c s with cstate := .idle } s)) := by
  rw [exec, execCorrWait, requireInited_pos hinit]
  dsimp only
  rw [if_neg (not_not.mpr hwait), if_neg (by simp [hpend]), if_pos htcnt]

theorem corrWait_holds (hinit : s.inited = true) (hwait : (classRegs c s).cstate = .waiting)
    (hpend : (classRegs c s).pend = false) (htcnt : 0 < (classRegs c s).tcnt) :
    exec (.corrWait c) s = .next (answer .hold s) := by
  rw [exec, execCorrWait, requireInited_pos hinit]
  dsimp only
  rw [if_neg (not_not.mpr hwait), if_neg (by simp [hpend]), if_neg (Nat.ne_of_gt htcnt)]

/-- A signalled success body that echoes the call and agrees with its own length is its answer (R228, R230). -/
theorem corrWait_answers (hinit : s.inited = true) (hwait : (classRegs c s).cstate = .waiting)
    (hpend : (classRegs c s).pend = true) (hset : (classRegs c s).echoSet = true) {p data : List Byte}
    (hbody : slotBody (classRegs c s) = be16 (okType c) ++ p)
    (hp : p = be16 (classRegs c s).echo ++ be16 (BitVec.ofNat 16 data.length) ++ data) (hdata : data.length < 65536) :
    ∃ t, exec (.corrWait c) s = .next t ∧ t.res = .okData (BitVec.ofNat 16 data.length) data ∧
      (classRegs c t).cstate = .idle ∧ t.mem = s.mem := by
  refine ⟨_, corrWait_takes hinit hwait hpend, ?_, ?_, setClass_mem ..⟩
  · rw [answer_res, echoValue_set hset, hbody, validateBody_keyed c hp hdata]
  · rw [classRegs_answer, classRegs_setClass, takeBody_cstate]

/-- Settles O39: CORR_WAIT takes what CORR_VALIDATE judges (`corrWait_takes`, `corrValidate_eq`), times out, or holds. -/
theorem corrWaitTakesOrTimesOut : Obligations.CorrWaitTakesOrTimesOut := fun _ _ hinit hwait =>
  ⟨rfl, fun hpend => ⟨_, corrValidate_eq hinit _ _, corrWait_takes hinit hwait hpend⟩, corrWait_times_out hinit hwait,
    corrWait_holds hinit hwait⟩

theorem corrTick_eq (hinit : s.inited = true) :
    exec .corrTick s =
      .next (answer .done { s with readCls := tickRegs s.readCls, funcCls := tickRegs s.funcCls }) := by
  rw [exec, execCorrTick, requireInited_pos hinit]

/-- Settles O40: a tick of each class changes its counter alone (`tickRegs_eq`). -/
theorem corrTickCountsDown : Obligations.CorrTickCountsDown := by
  intro s hinit
  refine ⟨rfl, ?_⟩
  rw [corrTick_eq hinit, tickRegs_eq, tickRegs_eq]
  rfl

/-! ### A call that no response reaches (R229) -/

/-- Ticks count down each class on its own, and write nothing else but the answer. -/
theorem tickTimes_eq (n : Nat) (hinit : s.inited = true) :
    ∃ res, tickTimes n s =
      .next { s with readCls := tickRegs^[n] s.readCls, funcCls := tickRegs^[n] s.funcCls, res := res } := by
  induction n generalizing s with
  | zero => exact ⟨s.res, rfl⟩
  | succ n ih =>
    obtain ⟨res, hticks⟩ :=
      ih (s := answer .done { s with readCls := tickRegs s.readCls, funcCls := tickRegs s.funcCls }) hinit
    refine ⟨res, ?_⟩
    rw [tickTimes, corrTick_eq hinit, andThen_of_next, hticks]
    rfl

/-- The counter of a class that waits after `n` ticks: `n` less, but not below 0 (R227). -/
theorem tickRegs_iterate {r : ClassRegs} (n : Nat) (hwait : r.cstate = .waiting) :
    tickRegs^[n] r = { r with tcnt := r.tcnt - n } := by
  induction n with
  | zero => rfl
  | succ n ih => rw [Function.iterate_succ_apply', ih, tickRegs_eq, if_pos hwait, Nat.sub_sub]

@[simp] theorem setClass_txq (c : CClass) (r : ClassRegs) (s : State) : (setClass c r s).txq = s.txq := by
  cases c <;> rfl

@[simp] theorem setClass_log (c : CClass) (r : ClassRegs) (s : State) : (setClass c r s).log = s.log := by
  cases c <;> rfl

/-- After `n` ticks a class that waits still does, with its counter `n` lower, and nothing is sent, stored or logged. -/
theorem tickTimes_waiting (n : Nat) (hinit : s.inited = true) (hwait : (classRegs c s).cstate = .waiting) :
    ∃ t, tickTimes n s = .next t ∧ classRegs c t = { classRegs c s with tcnt := (classRegs c s).tcnt - n } ∧
      t.inited = true ∧ t.txq = s.txq ∧ t.mem = s.mem ∧ t.log = s.log := by
  obtain ⟨res, hticks⟩ := tickTimes_eq n hinit
  refine ⟨_, hticks, ?_, hinit, rfl, rfl, rfl⟩
  rw [← tickRegs_iterate n hwait]
  cases c <;> rfl

/-- Settles O42: the ticks lower the counter of the class (`tickTimes_waiting`), and by it CORR_WAIT holds (`corrWait_holds`) or
times out (`corrWait_times_out`). -/
theorem unansweredCallTimesOut : Obligations.UnansweredCallTimesOut := by
  intro s c n hinit hwait hpend
  obtain ⟨t, hticks, hregs, hinit', htxq, hmem, hlog⟩ := tickTimes_waiting n hinit hwait
  have hwait' : (classRegs c t).cstate = .waiting := by rw [hregs]; exact hwait
  have hpend' : (classRegs c t).pend = false := by rw [hregs]; exact hpend
  have htcnt : (classRegs c t).tcnt = (classRegs c s).tcnt - n := by rw [hregs]
  refine ⟨t, hticks, fun hfew => corrWait_holds hinit' hwait' hpend' (by omega), fun hmany => ?_⟩
  refine ⟨_, corrWait_times_out hinit' hwait' hpend' (by omega), rfl, ?_, (setClass_txq ..).trans htxq,
    (setClass_mem ..).trans hmem, (setClass_log ..).trans hlog⟩
  rw [classRegs_answer, classRegs_setClass, hregs, Nat.sub_eq_zero_of_le hmany]

/-! ### A call issued over a stale body (R232) -/

/-- A slot that agrees with its length register holds its body (R31). -/
theorem slotBody_eq {c : Config} {r : ClassRegs} (h : ClassInv c r) : slotBody r = r.slot := by
  obtain ⟨hlen, -⟩ := h
  rw [slotBody, ← hlen, List.take_length]

/-- Settles O43: the issuing step leaves signal and slot (`readRemoteMemory_issued`), so the first waiting step takes the stale
body (`corrWait_takes`) and judges it against the new echo. -/
theorem staleBodyIsTaken : Obligations.StaleBodyIsTaken := by
  intro s addr len code data hrun hinv hidle hpend
  have hfits : 14 < s.cfg.maxFrame := maxFrame_ge hinv.cfg
  have hissued := readRemoteMemory_issued hrun hidle hfits addr len
  refine ⟨_, _, hissued, corrWait_takes (c := .read) hrun.1 rfl hpend, rfl, rfl, rfl, fun herr => ?_, fun hok hdata => ?_⟩
  · have hbody : slotBody s.readCls = be16 (errType .read) ++ [code] := (slotBody_eq hinv.readCls).trans herr
    exact (congrArg _ hbody).trans (validateBody_errPayload .read addr code)
  · have hbody : slotBody s.readCls =
        be16 (okType .read) ++ (be16 addr ++ be16 (BitVec.ofNat 16 data.length) ++ data) :=
      (slotBody_eq hinv.readCls).trans hok
    exact (congrArg _ hbody).trans (validateBody_keyed .read rfl hdata)

end Sys2Proof.Machine
end

section
/-! PROOF. Two endpoints (spec/44_correlation.md R221, R222, R230; spec/45_memory_service.md R261, R263): what one context
transmits is a frame the other receives whole, and serves or takes as its answer. -/

namespace Sys2Proof.Machine

variable {s : State}

/-- The type of an encoded frame is put together from its parts as the receiver reads them (R93). -/
theorem frameType_encodedFrame {ty : U16} {req : Bool} {sub : Byte} (hreq : typeReq ty = req) (hsub : typeSub ty = sub)
    (payload : List Byte) : frameType req (encodedFrame ty payload).hi sub = ty := by
  rw [← hreq, ← hsub]
  exact frameType_of_fields ty

/-- A frame encoded for one `MAX_FRAME` passes the checks of a receiver with the same or a larger one. -/
theorem goodFrame_at_peer {t : State} {ty : U16} {req : Bool} {sub : Byte} {payload : List Byte} (hc : configWf s.cfg)
    (hfits : Fits s payload) (hpeer : s.cfg.maxFrame ≤ t.cfg.maxFrame) (hreq : typeReq ty = req) (hsub : typeSub ty = sub) :
    GoodFrame t (frameType req (encodedFrame ty payload).hi sub) (encodedFrame ty payload) := by
  obtain ⟨hmax, hlen, hcrc⟩ := goodFrame_encoded hc hfits ty
  rw [frameType_encodedFrame hreq hsub]
  exact ⟨Nat.lt_of_lt_of_le hmax hpeer, hlen, hcrc⟩

/-- A good response received whole puts its body into the slot of its class with the signal, and stores nothing (R198). -/
theorem receiveFrame_signals {c : CClass} {sub : Byte} {f : Frame} (hsub : responseClass sub = some c) (hr : Receiving s)
    (hg : GoodFrame s (frameType false f.hi sub) f) :
    ∃ m, receiveFrame (frameType false f.hi sub) f s = .next m ∧
      classRegs c m = signalBody (be16 (frameType false f.hi sub) ++ f.payload) (classRegs c s) ∧
      m.inited = true ∧ m.mem = s.mem := by
  obtain ⟨b, hrecv⟩ := receiveFrame_response hsub hr hg
  have hinit : s.inited = true := hr.1.1
  cases c <;> exact ⟨_, hrecv, rfl, hinit, rfl⟩

/-- A success response that echoes the waiting call of its class is its answer (R198, R230): received whole and taken by the
first CORR_WAIT after it. -/
theorem response_answers_call {c : CClass} {sub : Byte} {f : Frame} {data : List Byte} (hsub : responseClass sub = some c)
    (hty : frameType false f.hi sub = okType c) (hr : Receiving s) (hg : GoodFrame s (frameType false f.hi sub) f)
    (hwait : (classRegs c s).cstate = .waiting) (hset : (classRegs c s).echoSet = true)
    (hp : f.payload = be16 (classRegs c s).echo ++ be16 (BitVec.ofNat 16 data.length) ++ data) :
    ∃ m m', receiveFrame (frameType false f.hi sub) f s = .next m ∧ exec (.corrWait c) m = .next m' ∧
      m'.res = .okData (BitVec.ofNat 16 data.length) data ∧ (classRegs c m').cstate = .idle ∧ m'.mem = s.mem := by
  obtain ⟨m, hrecv, hregs, hinit, hmem⟩ := receiveFrame_signals hsub hr hg
  have hbody : slotBody (classRegs c m) = be16 (okType c) ++ f.payload := by
    rw [hregs, hty, slotBody, signalBody_slot, signalBody_slotLen, List.take_length]
  obtain ⟨m', hanswer, hres, hidle, hmem'⟩ := corrWait_answers hinit (by rw [hregs]; exact hwait) (by rw [hregs]; rfl)
    (by rw [hregs]; exact hset) hbody (by rw [hregs]; exact hp) (GoodFrame.data_lt hg hp)
  exact ⟨m, m', hrecv, hanswer, hres, hidle, hmem'.trans hmem⟩

/-- MS_READ of a legal address, where the reply fits a frame whatever is asked for (R263, R265): one READ_RSP frame with the
bytes read. -/
theorem exec_msRead_replies (hrun : Running s) (hruns : s.parserStuck = false) (hcfg : configWf s.cfg)
    (hmemSize : s.cfg.memSize + 15 ≤ s.cfg.maxFrame) {addr : U16} (haddr : addr.toNat < s.cfg.memSize) (len : U16) :
    ∃ data : List Byte, data.length = min len.toNat (s.cfg.memSize - addr.toNat) ∧
      (∀ j < data.length, byteAt data j = memRead s.mem (addr.toNat + j)) ∧
      exec (.msRead addr len) s = .next (answer .ok (transmit (wireFrame 0x6C02 (keyedPayload addr data)) s)) := by
  have hread := (msRead_spec addr len s hrun.2.2 (maxFrame_ge hcfg)).trans (if_neg (Nat.not_le.mpr haddr))
  refine ⟨_, memReadBytes_length .., fun j hj => memReadBytes_byteAt _ _ _ _ (by simpa using hj), ?_⟩
  rw [exec_msRead hrun hruns, hread.trans (if_pos (by simp; omega))]
  rfl

/-- Settles O58: MS_READ answers in one frame (`exec_msRead_replies`), which the master can receive (`goodFrame_at_peer`) and
takes as its answer (`response_answers_call`). -/
theorem remoteReadEndToEnd : Obligations.RemoteReadEndToEnd := by
  intro slave master addr len hrun hruns hcfg hmemSize haddr hr hpeer hwait hset hecho
  obtain ⟨data, hlength, hbytes, hread⟩ := exec_msRead_replies hrun hruns hcfg hmemSize haddr len
  have hroom : data.length + 15 ≤ slave.cfg.maxFrame := by omega
  have hgood := goodFrame_at_peer (ty := 0x6C02) (req := false) (sub := 0x02) hcfg ((keyedPayload_fits addr data).mpr hroom)
    hpeer (by decide) (by decide)
  obtain ⟨m, m', hrecv, hanswer, hres, hidle, hmem⟩ := response_answers_call (c := .read) (data := data) rfl
    (frameType_encodedFrame (by decide) (by decide) _) hr hgood hwait hset (by rw [classRegs_read, hecho]; rfl)
  exact ⟨_, encodedFrame 0x6C02 (keyedPayload addr data), m, m', data, hread, rfl, rfl, hrecv, hanswer, hres, hlength, hbytes,
    hidle, hmem⟩

/-- Settles O59: the write is sent in one frame (`writeRemoteMemory_eq`), which the slave can receive (`goodFrame_at_peer`) and
stores (`writeReqStoresData`), all of it inside its Memory Space. -/
theorem remoteWriteEndToEnd : Obligations.RemoteWriteEndToEnd := by
  intro master slave addr len data hrun hcfg hlen hroom hpeer hr hmemSize
  have hdecl : len = BitVec.ofNat 16 data.length := by rw [← hlen, BitVec.ofNat_toNat, BitVec.setWidth_eq]
  have hsent := (writeRemoteMemory_eq hrun hlen (addr := addr)).trans (congrArg Host.Outcome.next (if_pos hroom))
  have hgood := goodFrame_at_peer (ty := 0xEC01) (req := true) (sub := 0x01) hcfg ((keyedPayload_fits addr data).mpr hroom)
    hpeer (by decide) (by decide)
  obtain ⟨t, hrecv, hmem, hinMem, -⟩ :=
    writeReqStoresData slave (encodedFrame 0xEC01 (keyedPayload addr data)) addr data hr hgood rfl
  have htxq : t.txq = slave.txq := by rw [hinMem (.inr hmemSize)]; rfl
  refine ⟨_, encodedFrame 0xEC01 (keyedPayload addr data), t, hsent, ?_, rfl, hrecv, fun a => ?_, htxq⟩
  · rw [hdecl]
    rfl
  · have hinside : (addr.toNat ≤ a ∧ a < addr.toNat + data.length ∧ a < slave.cfg.memSize) ↔
        addr.toNat ≤ a ∧ a < addr.toNat + data.length := by omega
    rw [hmem a]
    exact if_congr hinside rfl rfl

end Sys2Proof.Machine
end

section
/-! PROOF. The Memory Service as operations of their own (spec/45_memory_service.md R261 to R267): what MS_WRITE stores, what
MS_READ replies, a read after a write, and the host's local read. -/

namespace Sys2Proof.Machine

variable {s : State}

/-! ### MS_WRITE and MS_READ -/

/-- Settles O44: the operation is `msWrite` (`exec_msWrite`), and `msWrite_spec` says all it does. -/
theorem msWriteStoresWhatFits : Obligations.MsWriteStoresWhatFits := fun s addr data hinit hruns =>
  ⟨rfl, _, exec_msWrite hinit hruns addr data, msWrite_spec addr data s⟩

/-- Settles O45: the operation is `msRead` (`exec_msRead`), and each clause is one branch of `msRead_spec`. -/
theorem msReadReplies : Obligations.MsReadReplies := by
  intro s addr len hrun hruns hcfg
  have hread := msRead_spec addr len s hrun.2.2 (maxFrame_ge hcfg)
  rw [exec_msRead hrun hruns]
  refine ⟨rfl, fun haddr => congrArg _ (hread.trans (if_pos haddr)), fun haddr => ?_⟩
  replace hread := hread.trans (if_neg (Nat.not_le.mpr haddr))
  refine ⟨_, memReadBytes_length .., fun j hj => memReadBytes_byteAt _ _ _ _ (by simpa using hj), fun hfit => ?_,
    fun hlarge => ?_⟩
  · exact congrArg _ (hread.trans (if_pos hfit))
  · exact congrArg _ (hread.trans (if_neg (Nat.not_le.mpr hlarge)))

/-! ### A read after a write (R267) -/

theorem eq_of_byteAt_eq {a b : List Byte} (hlen : a.length = b.length) (hbytes : ∀ j < a.length, byteAt a j = byteAt b j) :
    a = b := by
  refine List.ext_getElem hlen fun j ha hb => ?_
  simpa [byteAt, ha, hb] using hbytes j ha

/-- A write that ends inside the Memory Space is OK, changes nothing but the memory, and every byte of it is read back. -/
theorem msWrite_inside {addr : U16} {data : List Byte} (hinside : addr.toNat + data.length ≤ s.cfg.memSize) :
    ∃ m, msWrite addr data s = { s with mem := m, res := .ok } ∧
      ∀ j < data.length, memRead m (addr.toNat + j) = byteAt data j := by
  obtain ⟨hmem, hok, -⟩ := msWrite_spec addr data s
  refine ⟨_, hok (.inr hinside), fun j hj => ?_⟩
  rw [hmem, if_pos (by omega), Nat.add_sub_cancel_left]

/-- Settles O46: the write leaves the data in memory (`msWrite_inside`), and the read transmits as many bytes from there
(`exec_msRead_replies`): they agree one by one. -/
theorem writeThenRead : Obligations.WriteThenRead := by
  intro s addr len data hrun hruns hcfg hroom hlen haddr hinside
  obtain ⟨m, hwrite, hstored⟩ := msWrite_inside hinside
  obtain ⟨read, hlength, hbytes, hread⟩ :=
    exec_msRead_replies (s := { s with mem := m, res := .ok }) hrun hruns hcfg hroom haddr len
  have hunclamped : min len.toNat (s.cfg.memSize - addr.toNat) = data.length := by omega
  have hsame : read.length = data.length := hlength.trans hunclamped
  obtain rfl : read = data :=
    eq_of_byteAt_eq hsame fun j hj => (hbytes j hj).trans (hstored j (hsame ▸ hj))
  obtain rfl : len = len16 read := by rw [len16, ← hlen, BitVec.ofNat_toNat, BitVec.setWidth_eq]
  exact ⟨_, _, (exec_msWrite hrun.1 hruns addr read).trans (congrArg _ hwrite), rfl, rfl, hread, rfl, rfl⟩

/-! ### The host's local read (R266) -/

/-- A port that starts with the host's read is no instruction, and the act it decodes to is performed. -/
theorem step_hostRead {addr : U16} {rest : List Byte} (hport : s.port = 0xF0 :: (be16 addr ++ rest)) :
    step s = execAct (.hostRead addr) { s with port := rest } := by
  have hdecode : decode s.port = .error (.unknownSelect 0xF0 (be16 addr ++ rest)) := by rw [hport]; rfl
  have haddr : getU16 (be16 addr ++ rest) = some (addr, rest) := (codec_u16 _ _ _).mpr ⟨trivial, rfl⟩
  have hact : decodeAct 0xF0 (be16 addr ++ rest) = .ok (.hostRead addr, rest) := congrArg (decodedAct · .hostRead) haddr
  rw [step, hdecode]
  dsimp only
  rw [stepOther, hact]

theorem execAct_hostRead (hinit : s.inited = true) (addr : U16) :
    execAct (.hostRead addr) s =
      if s.cfg.memSize ≤ addr.toNat then .fault (.noSuchAddress addr.toNat)
      else .next (answer (.okBytes [memRead s.mem addr.toNat]) s) := by
  rw [execAct, requireInited_pos hinit]

/-- Settles O13: the step performs the act (`step_hostRead`), which asks only whether the address exists
(`execAct_hostRead`). -/
theorem hostReadsOneByte : Obligations.HostReadsOneByte := by
  intro s addr rest hinit hport
  have hread := (step_hostRead hport).trans (execAct_hostRead (s := { s with port := rest }) hinit addr)
  exact ⟨fun hin => hread.trans (if_neg (Nat.not_le.mpr hin)), fun hout => hread.trans (if_pos hout)⟩

end Sys2Proof.Machine
end

section
/-! PROOF. What no step undoes (spec/46_function_registry.md R288, R290, spec/47_ingress_pump.md R309, spec/60_exceptions.md R350):
every operation but INITIALIZE keeps parameters, initialisation and transport, and only adds to the registry and the log. -/

namespace Sys2Proof.Machine

variable {s t u : State}

/-! ### What an operation adds to -/

/-- The registers INITIALIZE alone writes, with the parameters, which nothing writes (R38, R40). -/
def State.fixed (s : State) : Config × Bool × Handle × Handle × Handle :=
  (s.cfg, s.inited, s.handle, s.readFn, s.writeFn)

/-- From `s` to `t` the fixed registers stay, and the registry and the log only grow (R290, R350). -/
structure Grows (s t : State) : Prop where
  fixed : t.fixed = s.fixed
  reg : s.reg <+: t.reg
  log : s.log <+: t.log

theorem grows_of_eq (hfixed : t.fixed = s.fixed) (hreg : t.reg = s.reg) (hlog : t.log = s.log) : Grows s t :=
  ⟨hfixed, hreg ▸ List.prefix_rfl, hlog ▸ List.prefix_rfl⟩

theorem Grows.trans (hst : Grows s t) (htu : Grows t u) : Grows s u :=
  ⟨htu.fixed.trans hst.fixed, hst.reg.trans htu.reg, hst.log.trans htu.log⟩

/-- An operation that only adds, after one that does. -/
theorem Grows.onNext {o : Out} (hst : Grows s t) (ho : OnNext (Grows t) o) : OnNext (Grows s) o :=
  ho.mono fun _ htu => hst.trans htu

theorem answer_grows (r : Result) (s : State) : Grows s (answer r s) := grows_of_eq rfl rfl rfl

theorem Grows.answer (h : Grows s t) (r : Result) : Grows s (answer r t) := h.trans (answer_grows r t)

/-- An event goes to the end of the log (R350). -/
theorem raise_grows (e : Event) (s : State) : Grows s (raise e s) := ⟨rfl, List.prefix_rfl, List.prefix_append _ _⟩

/-- A registration goes to the end of the registry (R281). -/
theorem register_grows (e : RegEntry) (s : State) : Grows s { s with reg := s.reg ++ [e] } :=
  ⟨rfl, List.prefix_append _ _, List.prefix_rfl⟩

/-- A code once found stays found, with the same callback (R290). -/
theorem Grows.lookup (h : Grows s t) {code : U16} {cb : Handle} (hfound : lookup code s.reg = some cb) :
    lookup code t.reg = some cb := by
  obtain ⟨more, hreg⟩ := h.reg
  rw [← hreg]
  exact lookup_append more hfound

/-! ### The draws, the replies and the classes -/

theorem transmitReply_grows (f : Option (List Byte)) (s : State) : Grows s (transmitReply f s) := by
  cases f <;> exact grows_of_eq rfl rfl rfl

theorem transportTake_grows (k : Nat) (s : State) : Grows s (transportTake k s).2 := by
  rw [transportTake_spec]
  exact grows_of_eq rfl rfl rfl

theorem transportRead_grows (s : State) : Grows s (transportRead s).2 := by
  have hdraw : Grows s (drawRead s).2 := by
    unfold drawRead
    split <;> exact grows_of_eq rfl rfl rfl
  exact hdraw.trans (transportTake_grows _ _)

theorem drawCallback_grows (cb : Handle) (arg : List Byte) (s : State) : Grows s (drawCallback cb arg s).2 := by
  unfold drawCallback
  split <;> exact grows_of_eq rfl rfl rfl

theorem drawBody_grows (body : List Byte) (s : State) : Grows s (drawBody body s).2 := by
  unfold drawBody
  split <;> exact grows_of_eq rfl rfl rfl

theorem setClass_grows (c : CClass) (r : ClassRegs) (s : State) : Grows s (setClass c r s) := by
  cases c <;> exact grows_of_eq rfl rfl rfl

theorem corrDeliver_grows (ty : U16) (body : List Byte) (s : State) : Grows s (corrDeliver ty body s) := by
  obtain ⟨c, he⟩ | he := corrDeliver_eq ty body s <;> rw [he]
  · exact ((drawBody_grows body s).trans (setClass_grows c _ _)).answer _
  · exact (raise_grows _ s).answer _

theorem issueCall_grows (c : CClass) (ty : U16) (payload : List Byte) (echo : U16) (s : State) :
    OnNext (Grows s) (issueCall c ty payload echo s) :=
  onNext_issueCall (answer_grows _ s) fun _ => (setClass_grows c _ s).trans (grows_of_eq rfl rfl rfl)

theorem execCorrWait_grows (c : CClass) (s : State) : OnNext (Grows s) (execCorrWait c s) :=
  onNext_corrWait (fun _ => (setClass_grows c _ s).answer _) ((setClass_grows c _ s).answer _) (answer_grows _ s)

/-! ### The ring, the RX agent and the collecting steps -/

theorem ringPut_grows {b : List Byte} (h : ringPut b s = some t) : Grows s t := by
  unfold ringPut at h
  split at h
  · cases h
  · cases h
    exact grows_of_eq rfl rfl rfl

theorem rxDeliver_grows (chunk : List Byte) (s : State) : Grows s (rxDeliver chunk s) := by
  unfold rxDeliver
  split
  · rename_i t hput
    exact (ringPut_grows hput).trans (grows_of_eq rfl rfl rfl)
  · split
    · exact grows_of_eq rfl rfl rfl
    · have hdropped : Grows s { s with rxHold := [] } := grows_of_eq rfl rfl rfl
      exact hdropped.trans (raise_grows _ _)

/-- A step of the RX agent only adds if the read it makes does. -/
theorem rxStepBy_grows {read : State → List Byte × State} (h : Grows s (read s).2) : Grows s (rxStepBy read s) := by
  rw [rxStepBy_eq]
  split
  · exact (rxDeliver_grows _ s).answer _
  · split
    · exact h.answer _
    · exact (h.trans (rxDeliver_grows _ _)).answer _

theorem rxStep_grows (s : State) : Grows s (rxStep s) := rxStepBy_grows (transportRead_grows s)

theorem resync_grows (s : State) : Grows s (resync s) := grows_of_eq rfl rfl rfl

theorem checkHeader_grows (s : State) : Grows s (checkHeader s) := by
  obtain ⟨e, he⟩ | ⟨_, _, he⟩ := checkHeader_eq s <;> rw [he]
  · exact (raise_grows e s).trans (resync_grows _)
  · exact grows_of_eq rfl rfl rfl

theorem assemble_grows (r : List Byte) (s : State) : Grows s (assemble r s) := grows_of_eq rfl rfl rfl

theorem seekSyncOn_grows (r : List Byte) (s : State) : Grows s (seekSyncOn r s) := by
  unfold seekSyncOn
  split
  · exact answer_grows _ s
  · split
    · exact (raise_grows _ s).answer _
    · exact grows_of_eq rfl rfl rfl

theorem readLengthOn_grows (r : List Byte) (s : State) : Grows s (readLengthOn r s) := by
  unfold readLengthOn
  dsimp only
  split
  · split
    · exact answer_grows _ s
    · exact (assemble_grows r s).answer _
  · exact ((assemble_grows r s).trans (checkHeader_grows _)).answer _

theorem readBodyOn_grows (r : List Byte) (s : State) : Grows s (readBodyOn r s) := by
  unfold readBodyOn
  dsimp only
  split
  · exact (assemble_grows r s).trans (grows_of_eq rfl rfl rfl)
  · split
    · exact answer_grows _ s
    · exact (assemble_grows r s).answer _

theorem collectOn_grows (r : List Byte) (s : State) : Grows s (collectOn r s) := by
  unfold collectOn
  cases s.ps with
  | seekSync => exact seekSyncOn_grows r s
  | readLength => exact readLengthOn_grows r s
  | readBody => exact readBodyOn_grows r s
  | route => exact grows_of_eq rfl rfl rfl

theorem collectStep_grows (s : State) : Grows s (collectStep s) :=
  Grows.trans (t := (ringGet (wanted s) s).2) (grows_of_eq rfl rfl rfl) (collectOn_grows _ _)

/-! ### Serving and routing -/

theorem msWrite_grows (addr : U16) (data : List Byte) (s : State) : Grows s (msWrite addr data s) := by
  obtain ⟨-, hfits, hover⟩ := msWrite_spec addr data s
  by_cases hroom : data = [] ∨ addr.toNat + data.length ≤ s.cfg.memSize
  · rw [hfits hroom]
    exact grows_of_eq rfl rfl rfl
  · obtain ⟨hne, hlong⟩ := not_or.mp hroom
    rw [hover hne (Nat.not_le.mp hlong)]
    exact ⟨rfl, List.prefix_rfl, List.prefix_append _ _⟩

theorem msRead_grows (addr len : U16) (s : State) : Grows s (msRead addr len s) := by
  unfold msRead
  split
  · exact ((raise_grows _ s).trans (transmitReply_grows _ _)).answer _
  · dsimp only
    split
    · exact (raise_grows _ s).answer _
    · exact grows_of_eq rfl rfl rfl

theorem dispatchReply_grows (code : U16) (ret : List Byte) (s : State) : Grows s (dispatchReply code ret s) := by
  unfold dispatchReply
  split
  · exact (raise_grows _ s).answer _
  · exact grows_of_eq rfl rfl rfl

theorem dispatchCall_grows (code : U16) (arg : List Byte) (s : State) : OnNext (Grows s) (dispatchCall code arg s) := by
  unfold dispatchCall
  split
  · exact ((raise_grows _ s).trans (transmitReply_grows _ _)).answer _
  · rename_i cb _
    have hdraw := drawCallback_grows cb arg s
    split <;> rename_i hd <;> rw [hd] at hdraw
    · exact onNext_ite (fun _ => hdraw.trans (dispatchReply_grows _ _ _)) fun _ => trivial
    · exact hdraw.trans (grows_of_eq rfl rfl rfl)
    · trivial

theorem routeRequest_grows (ty : U16) (p : List Byte) (s : State) : OnNext (Grows s) (routeRequest ty p s) := by
  have hdropped : ∀ e, OnNext (Grows s) (.next (answer .done (raise e s))) := fun e => (raise_grows e s).answer _
  rw [routeRequest_spec]
  refine onNext_ite (fun _ => ?write) fun _ => onNext_ite (fun _ => ?read) fun _ => onNext_ite (fun _ => ?func) fun _ =>
    hdropped _
  case write => exact onNext_ite (fun _ => hdropped _) fun _ => msWrite_grows _ _ s
  case read => exact onNext_ite (fun _ => hdropped _) fun _ => msRead_grows _ _ s
  case func => exact onNext_ite (fun _ => hdropped _) fun _ => dispatchCall_grows _ _ s

theorem routeEnd_grows (s : State) : Grows s (routeEnd s) := by
  unfold routeEnd
  split
  · exact grows_of_eq rfl rfl rfl
  · exact resync_grows s

theorem routeStep_grows (s : State) : OnNext (Grows s) (routeStep s) :=
  onNext_andThen <| OnNext.mono (P := Grows s)
    (onNext_ite (fun _ => (raise_grows _ s).answer _) fun _ =>
      onNext_ite (fun _ => routeRequest_grows _ _ s) fun _ => corrDeliver_grows _ _ s)
    fun t ht => ht.trans (routeEnd_grows t)

/-! ### The runs of steps -/

theorem pump_grows (fuel : Nat) (s : State) : OnNext (Grows s) (pump fuel s) := by
  have stay : ∀ u, Grows u u := fun _ => grows_of_eq rfl rfl rfl
  induction fuel generalizing s with
  | zero => exact stay s
  | succ fuel ih =>
    exact onNext_ite (fun _ => stay s) fun _ =>
      onNext_ite (fun _ => onNext_andThen ((routeStep_grows s).mono fun t ht => ht.onNext (ih t))) fun _ =>
        onNext_ite (fun _ => (collectStep_grows s).onNext (ih _)) fun _ =>
          onNext_ite (fun _ => stay s) fun _ => (rxStepBy_grows (transportTake_grows _ s)).onNext (ih _)

theorem coopParse_grows (fuel : Nat) (s : State) : OnNext (Grows s) (coopParse fuel s) := by
  induction fuel generalizing s with
  | zero => exact answer_grows _ s
  | succ fuel ih =>
    have hcollect := collectStep_grows s
    exact onNext_ite (fun _ => onNext_andThen ((routeStep_grows s).mono fun _ ht => ht.answer _)) fun _ =>
      onNext_ite (fun _ => hcollect) fun _ => hcollect.onNext (ih _)

theorem coopEnd_grows (s : State) : Grows s (coopEnd s) := by
  unfold coopEnd
  split
  · exact grows_of_eq rfl rfl rfl
  · split <;> exact answer_grows _ s

theorem receiveBytes_grows (bs : List Byte) (s : State) : OnNext (Grows s) (receiveBytes bs s) := by
  have happend : Grows s { s with rxq := s.rxq ++ bs } := grows_of_eq rfl rfl rfl
  exact onNext_requireInited fun _ => onNext_requireCrc fun _ =>
    onNext_ite (fun _ => happend.answer _) fun _ =>
      onNext_parserAgent (happend.answer _) ((happend.answer _).onNext (pump_grows _ _))

theorem execCoopStep_grows (s : State) : OnNext (Grows s) (execCoopStep s) :=
  onNext_requireInited fun _ => onNext_requireCrc fun _ => onNext_ite (fun _ => trivial) fun _ =>
    onNext_parserAgent (answer_grows _ s) <|
      onNext_andThen ((coopParse_grows _ _).mono fun t ht => ((rxStep_grows s).trans ht).trans (coopEnd_grows t))

/-! ### The instructions -/

/-- Every instruction but INITIALIZE only adds. -/
theorem exec_grows (i : Instr) (s : State) (hinit : ∀ a r w, i ≠ .initContext a r w) : OnNext (Grows s) (exec i s) := by
  have hold : Grows s (answer .hold s) := answer_grows _ s
  cases i with
  | writeReq f | readReq f | funcReq f | readRsp f | funcRsp f | readErr f | funcErr f => exact receiveBytes_grows _ s
  | initContext handle readFn writeFn => exact absurd rfl (hinit handle readFn writeFn)
  | writeRemoteMemory addr len data =>
    exact onNext_requireInited fun _ => onNext_requireCrc fun _ => onNext_ite (fun _ => trivial) fun _ => by
      split <;> exact grows_of_eq rfl rfl rfl
  | readRemoteMemory addr len | callRemoteFunction code arg =>
    exact onNext_requireInited fun _ => onNext_requireCrc fun _ => issueCall_grows _ _ _ _ s
  | registerFunction code cb =>
    exact onNext_registerFunction (fun _ => answer_grows _ s) fun _ _ _ => (register_grows _ s).answer _
  | listFunctions | rbSize | corrTick | corrValidate c r | tx f => exact onNext_requireInited fun _ => grows_of_eq rfl rfl rfl
  | rbPut b =>
    exact onNext_requireInited fun _ => onNext_requireProducer <| by
      split
      · exact (ringPut_grows ‹_›).answer _
      · exact answer_grows _ s
  | rbGet m => exact onNext_requireInited fun _ => onNext_requireConsumer <| onNext_parserAgent hold (grows_of_eq rfl rfl rfl)
  | crcInit => exact grows_of_eq rfl rfl rfl
  | crcChecksum data n => exact onNext_requireCrc fun _ => onNext_ite (fun _ => grows_of_eq rfl rfl rfl) fun _ => trivial
  | crcStore buf total | crcVerify buf total => exact onNext_requireCrc fun _ => onNext_requireTrailer (grows_of_eq rfl rfl rfl)
  | encodeFrame ty payload => exact onNext_requireCrc fun _ => by split <;> exact answer_grows _ s
  | parseSeekSync | parseReadLength | parseReadBody =>
    exact onNext_requireInited fun _ => onNext_parse hold (collectStep_grows s)
  | parseRoute => exact onNext_requireInited fun _ => onNext_requireCrc fun _ => onNext_parse hold (routeStep_grows s)
  | corrDeliver ty payload => exact onNext_requireInited fun _ => onNext_parserAgent hold (corrDeliver_grows _ _ s)
  | corrWait c => exact execCorrWait_grows c s
  | msWrite addr data => exact onNext_requireInited fun _ => onNext_parserAgent hold (msWrite_grows addr data s)
  | msRead addr len =>
    exact onNext_requireInited fun _ => onNext_requireCrc fun _ => onNext_parserAgent hold (msRead_grows addr len s)
  | dispatch code arg =>
    exact onNext_requireInited fun _ => onNext_requireCrc fun _ => onNext_parserAgent hold (dispatchCall_grows code arg s)
  | rxStep => exact onNext_requireInited fun _ => onNext_onItsOwn hold (rxStep_grows s)
  | coopStep => exact execCoopStep_grows s

/-- What the host and the environment do besides instructions only adds. -/
theorem execAct_grows (act : EnvAct) (s : State) : OnNext (Grows s) (execAct act s) := by
  cases act with
  | hostRead addr => exact onNext_requireInited fun _ => onNext_ite (fun _ => trivial) fun _ => answer_grows _ s
  | rxAppend _ | txTake _ | answerRead _ | answerCallback _ | ringCaller _ => exact grows_of_eq rfl rfl rfl

/-! ### The step -/

/-- The parameters stay, and a context once initialised is only added to. INITIALIZE, which sets one up, is refused on one
that is initialised (U13). -/
def ContextGrows (s t : State) : Prop := t.cfg = s.cfg ∧ (s.inited = true → Grows s t)

theorem Grows.context (h : Grows s t) : ContextGrows s t := ⟨congrArg Prod.fst h.fixed, fun _ => h⟩

theorem execInitContext_contextGrows (handle readFn writeFn : Handle) (s : State) :
    OnNext (ContextGrows s) (execInitContext handle readFn writeFn s) :=
  onNext_requireCrc fun _ => onNext_ite (fun _ => trivial) fun hnew => ⟨rfl, fun hinit => absurd hinit hnew⟩

theorem exec_contextGrows (i : Instr) (s : State) : OnNext (ContextGrows s) (exec i s) := by
  by_cases h : ∃ a r w, i = .initContext a r w
  · obtain ⟨a, r, w, rfl⟩ := h
    exact execInitContext_contextGrows a r w s
  · exact (exec_grows i s fun a r w he => h ⟨a, r, w, he⟩).mono fun _ => Grows.context

theorem withPort_grows (rest : List Byte) (s : State) : Grows s { s with port := rest } := grows_of_eq rfl rfl rfl

/-- What a step does at the state whose port is what follows, it does at the state itself. -/
theorem onNext_contextGrows_of_port {o : Out} {rest : List Byte} (h : OnNext (ContextGrows { s with port := rest }) o) :
    OnNext (ContextGrows s) o :=
  h.mono fun _ ⟨hcfg, hgrows⟩ => ⟨hcfg, fun hinit => (withPort_grows rest s).trans (hgrows hinit)⟩

theorem stepOther_contextGrows (e : DecodeError) (s : State) : OnNext (ContextGrows s) (stepOther e s) := by
  have arrives : ∀ bs rest, OnNext (ContextGrows s) (receiveBytes bs { s with port := rest }) := fun bs rest =>
    onNext_contextGrows_of_port ((receiveBytes_grows bs _).mono fun _ => Grows.context)
  cases e with
  | empty => exact ⟨rfl, fun _ => grows_of_eq rfl rfl rfl⟩
  | truncated | badClass _ => trivial
  | truncatedFrame bs => exact arrives bs _
  | falseStart bs rest => exact arrives bs rest
  | unknownType ty f rest => exact arrives _ rest
  | unknownSelect b rest =>
    cases hd : decodeAct b rest with
    | ok p =>
      simp only [stepOther, hd]
      exact onNext_contextGrows_of_port ((execAct_grows p.1 _).mono fun _ => Grows.context)
    | error _ =>
      simp only [stepOther, hd]
      trivial

theorem step_contextGrows (s : State) : OnNext (ContextGrows s) (step s) := by
  unfold step
  cases decode s.port with
  | ok p => exact onNext_contextGrows_of_port (exec_contextGrows p.1 _)
  | error e => exact stepOther_contextGrows e s

/-- Settles O9: every step only adds (`step_contextGrows`), and a longer registry finds what the shorter one does
(`Grows.lookup`). -/
theorem contextOnlyGrows : Obligations.ContextOnlyGrows := by
  intro s t ht
  obtain ⟨hcfg, hgrows⟩ := onNext_iff.mp (step_contextGrows s) t ht
  refine ⟨hcfg, fun hinit => ?_⟩
  have hgrows := hgrows hinit
  have hfixed := hgrows.fixed
  simp only [State.fixed, Prod.mk.injEq] at hfixed
  obtain ⟨-, hinited, hhandle, hread, hwrite⟩ := hfixed
  exact ⟨hinited.trans hinit, hhandle, hread, hwrite, hgrows.reg, hgrows.log, fun _ _ => hgrows.lookup⟩

end Sys2Proof.Machine
end

section
/-! PROOF. The function registry and the dispatcher (spec/46_function_registry.md R281 to R290): what a registration answers, in
what order the codes are listed, and what becomes of a call, up to a parser agent that never comes back from it. -/

namespace Sys2Proof.Machine

variable {s : State}

/-! ### REGISTER_FUNCTION (R281) -/

theorem registerFunction_invalid {cb : Handle} (h : s.inited = false ∨ cb = nullHandle) (code : U16) :
    exec (.registerFunction code cb) s = .next (answer .invalidParam s) := by
  rw [exec, execRegisterFunction, if_pos h]

/-- The tests after the parameters, in the order of R333: a code that is there, then a full registry; an empty one, with room
for the first entry, is asked nothing. -/
theorem registerFunction_valid {cb : Handle} (hinit : s.inited = true) (hcb : cb ≠ nullHandle) (code : U16) :
    exec (.registerFunction code cb) s =
      .next (if ∃ e ∈ s.reg, e.code = code then answer .duplicateCode s
        else if s.reg ≠ [] ∧ s.reg.length = s.cfg.nFunc then answer .allocFailure s
        else answer .ok { s with reg := s.reg ++ [⟨code, cb⟩] }) := by
  rw [exec, execRegisterFunction, if_neg (by simp [hinit, hcb])]
  cases hreg : s.reg with
  | nil => simp
  | cons e rest =>
    dsimp only
    simp only [lookup_some, ne_eq, reduceCtorEq, not_false_eq_true, true_and]
    split
    · rfl
    · split <;> rfl

/-- Settles O47: a registration with invalid parameters (`registerFunction_invalid`), and one branch of
`registerFunction_valid` per other answer. -/
theorem registerFunctionAdds : Obligations.RegisterFunctionAdds := by
  intro s code cb
  refine ⟨rfl, fun h => registerFunction_invalid h code, fun hinit hcb => ?_⟩
  rw [registerFunction_valid hinit hcb]
  refine ⟨fun hempty => ?_, fun hdup => ?_, fun hne hnew hfull => ?_, fun hne hnew hroom => ?_⟩
  · rw [if_neg (by simp [hempty]), if_neg (by simp [hempty]), hempty]
    rfl
  · rw [if_pos hdup]
    rfl
  · rw [if_neg (by simpa using hnew), if_pos ⟨hne, hfull⟩]
    rfl
  · rw [if_neg (by simpa using hnew), if_neg fun h => hroom h.2]
    rfl

/-! ### LIST_FUNCTIONS (R289) -/

/-- Settles O48: the order drawn names a permutation (`pickOrder_perm`). -/
theorem listFunctionsPermutes : Obligations.ListFunctionsPermutes := by
  intro s hinit
  have hperm := pickOrder_perm (Config.listOrder s.draws) (s.reg.map RegEntry.code)
  rw [List.length_map] at hperm
  refine ⟨rfl, _, hperm, ?_⟩
  rw [exec, execListFunctions, requireInited_pos hinit]
  rfl

/-! ### DISPATCH (R284) -/

/-- The largest return value fits a reply (R7). -/
theorem maxRet_fits {c : Config} (h : configWf c) : c.maxRet + 15 ≤ c.maxFrame := by
  obtain ⟨-, -, -, -, -, hret, -⟩ := h
  exact hret

/-- A registered callback that returns within its contract (R285) is answered by one FUNC_RSP frame. -/
theorem exec_dispatch_replies (hrun : Running s) (hruns : s.parserStuck = false) (hcfg : configWf s.cfg) {code : U16}
    (hreg : ∃ e ∈ s.reg, e.code = code) {ret : List Byte} {later : List CbAnswer}
    (hscript : s.cbScript = .returns ret.length ret :: later) (hret : ret.length ≤ s.cfg.maxRet) (arg : List Byte) :
    exec (.dispatch code arg) s =
      .next (answer .ok (transmit (wireFrame 0x6C03 (keyedPayload code ret)) { s with cbScript := later })) := by
  obtain ⟨hreturns, -⟩ := dispatchCall_known code arg s hrun.2.2 (maxRet_fits hcfg) hreg
  rw [exec_dispatch hrun hruns, hreturns _ ret later hscript, if_pos ⟨rfl, hret⟩]
  rfl

/-- Settles O49: the operation is `dispatchCall` (`exec_dispatch`), of a code that is not registered (`dispatchCall_unknown`),
of one whose callback is settled (`exec_dispatch_replies`), and of one whose callback is free (`dispatchCall_known`). -/
theorem dispatchReplies : Obligations.DispatchReplies := by
  intro s code arg hrun hruns hcfg
  have htable : s.crcTable = crcTableGen := hrun.2.2
  refine ⟨rfl, fun hnone => ?_, fun hsome => ⟨fun ret later hscript hret => ?_, fun hscript => ?_⟩⟩
  · rw [exec_dispatch hrun hruns, dispatchCall_unknown code arg s htable (maxFrame_ge hcfg) hnone]
  · exact exec_dispatch_replies hrun hruns hcfg hsome hscript hret arg
  · obtain ⟨-, -, -, hfree⟩ := dispatchCall_known code arg s htable (maxRet_fits hcfg) hsome
    rw [exec_dispatch hrun hruns]
    exact hfree hscript

/-! ### Callbacks outside their contract (R285, R286) -/

/-- A dispatch whose callback has a settled behaviour outside the contract (U4, U5, U6) does not reach the encoder, so it asks
nothing of the parameters. -/
theorem dispatchCall_breach {code : U16} {cb : Handle} (hfound : lookup code s.reg = some cb) (arg : List Byte)
    {a : CbAnswer} {later : List CbAnswer} (hscript : s.cbScript = a :: later)
    (hbreach : callbackKeepsContract s.cfg a = false) :
    dispatchCall code arg s =
      match a with
      | .returns _ _ => .refused .callbackContract
      | .neverReturns => .next (answer .hold { s with cbScript := later, parserStuck := true })
      | .usesContext => .refused .callbackReentry := by
  have hdraw : drawCallback cb arg s = (a, { s with cbScript := later }) := by rw [drawCallback, hscript]
  rw [dispatchCall, hfound]
  dsimp only
  rw [hdraw]
  cases a with
  | returns declared ret => exact if_neg fun h => by simp [callbackKeepsContract, h] at hbreach
  | neverReturns | usesContext => rfl

/-- A parser agent inside a callback that never returns makes no step (R382), and neither does the host agent in its place
(R310). -/
theorem exec_parserStuck (hrun : Running s) (hstuck : s.parserStuck = true) {i : Instr}
    (hi : parserAgentStep s.cfg i = true) (hcalls : ConsumerCalls s) : exec i s = .next { s with res := .hold } := by
  have parse : ∀ p, exec (parseInstr p) s = .next { s with res := .hold } := fun p => by
    obtain ⟨k, hparse⟩ := parseInstr_running hrun p
    rw [hparse, onItsOwn, parserAgent_stuck hstuck, ite_self]
  obtain ⟨hinit, hcrc, -⟩ := hrun
  have holds : ∀ k, requireInited s (parserAgent s k) = .next { s with res := .hold } := fun k => by
    rw [requireInited_pos hinit, parserAgent_stuck hstuck]
  cases i with
  | parseSeekSync => exact parse .seekSync
  | parseReadLength => exact parse .readLength
  | parseReadBody => exact parse .readBody
  | parseRoute => exact parse .route
  | rbGet m => rw [exec, execRbGet, requireConsumer_pos hcalls, holds]
  | corrDeliver ty payload | msWrite addr data => exact holds _
  | msRead addr len => rw [exec, execMsRead, requireCrc_pos hcrc, holds]
  | dispatch code arg => rw [exec, execDispatch, requireCrc_pos hcrc, holds]
  | coopStep =>
    have hsched : s.cfg.sched = .cooperative := of_decide_eq_true hi
    rw [exec, execCoopStep, requireCrc_pos hcrc, if_neg (not_not.mpr hsched), holds]
  | _ => cases hi

/-- Bytes that arrive wait for a parser agent that never comes back from its callback (R382). -/
theorem receiveBytes_parserStuck (hrun : Running s) (hstuck : s.parserStuck = true) (bs : List Byte) :
    receiveBytes bs s = .next { s with rxq := s.rxq ++ bs, res := .hold } := by
  by_cases hsched : s.cfg.sched = .cooperative
  · exact receiveBytes_cooperative hrun hsched bs
  · obtain ⟨hinit, hcrc, -⟩ := hrun
    rw [receiveBytes, requireInited_pos hinit, requireCrc_pos hcrc]
    dsimp only
    rw [if_neg hsched, parserAgent_stuck (by exact hstuck)]

/-- Settles O50: a settled breach of the contract stops the dispatch (`dispatchCall_breach`), and a stuck parser agent steps no
more (`exec_parserStuck`) while what arrives waits (`receiveBytes_parserStuck`). -/
theorem callbackContract : Obligations.CallbackContract := by
  intro s code arg ret declared later hrun
  refine ⟨fun hruns hreg => ?_, fun hstuck i =>
    ⟨exec_parserStuck hrun hstuck, fun hi => by rw [exec_frame hi, receiveBytes_parserStuck hrun hstuck]⟩⟩
  obtain ⟨cb, hfound⟩ := Option.isSome_iff_exists.mp (lookup_some.mpr hreg)
  rw [exec_dispatch hrun hruns]
  refine ⟨fun hscript hbreach => ?_, fun hscript => dispatchCall_breach hfound arg hscript rfl,
    fun hscript => dispatchCall_breach hfound arg hscript rfl⟩
  refine dispatchCall_breach hfound arg hscript ?_
  rcases hbreach with hdeclared | hlong
  · simp [callbackKeepsContract, hdeclared]
  · simp [callbackKeepsContract, hlong]

/-! ### A call, end to end (R290) -/

/-- Settles O60: DISPATCH replies in one frame (`exec_dispatch_replies`), which the master can receive (`goodFrame_at_peer`) and
takes as its answer (`response_answers_call`). -/
theorem remoteCallEndToEnd : Obligations.RemoteCallEndToEnd := by
  intro slave master code arg ret later hrun hruns hcfg hreg hscript hret hr hpeer hwait hset hecho
  have hreply := exec_dispatch_replies hrun hruns hcfg hreg hscript hret arg
  have hroom : ret.length + 15 ≤ slave.cfg.maxFrame := Nat.le_trans (Nat.add_le_add_right hret 15) (maxRet_fits hcfg)
  have hgood := goodFrame_at_peer (ty := 0x6C03) (req := false) (sub := 0x03) hcfg ((keyedPayload_fits code ret).mpr hroom)
    hpeer (by decide) (by decide)
  obtain ⟨m, m', hrecv, hanswer, hres, hidle, -⟩ := response_answers_call (c := .func) (data := ret) rfl
    (frameType_encodedFrame (by decide) (by decide) _) hr hgood hwait hset (by rw [classRegs_func, hecho]; rfl)
  exact ⟨_, encodedFrame 0x6C03 (keyedPayload code ret), m, m', hreply, rfl, rfl, hrecv, hanswer, hres, hidle⟩

end Sys2Proof.Machine
end

section
/-! PROOF. INITIALIZE, TX and the RX agent (spec/47_ingress_pump.md R301 to R308): what each writes, what becomes of a chunk, and that
with `RX_ON_FULL = RETRY` no byte is lost between the transport and the parser. -/

namespace Sys2Proof.Machine

variable {s t u : State} {chunk : List Byte}

/-! ### INITIALIZE and TX -/

/-- Settles O51: the one branch or the other of `execInitContext`, by `inited`. -/
theorem initializeCreatesContext : Obligations.InitializeCreatesContext := by
  intro s h r w hcrc
  rw [exec, execInitContext, requireCrc_pos hcrc]
  refine ⟨rfl, fun hnew => ?_, fun hinit => if_pos hinit⟩
  rw [if_neg (by simp [hnew])]
  rfl

/-- Settles O54: TX asks for an initialised context alone. -/
theorem txAppendsWhole : Obligations.TxAppendsWhole := by
  intro s f hinit
  rw [exec, execTx, requireInited_pos hinit]
  exact ⟨rfl, rfl⟩

/-! ### What becomes of a chunk (R302) -/

/-- Nothing, for none. -/
theorem delivered_nil (s : State) : Delivered [] s (answer .done s) :=
  (if_pos rfl).mpr rfl

theorem delivered_rxDeliver (h : RingInv s) (hne : chunk ≠ []) : Delivered chunk s (answer .done (rxDeliver chunk s)) := by
  rw [Delivered, if_neg hne, rxDeliver]
  by_cases hroom : chunk.length + ringOcc s < s.cfg.bufSize
  · obtain ⟨-, -, -, hlive⟩ := ringPut_some h (ringPut_fits hroom)
    rw [if_pos hroom, ringPut_fits hroom]
    exact ⟨rfl, hlive⟩
  · rw [if_neg hroom, ringPut_none.mpr (Nat.not_lt.mp hroom)]
    dsimp only
    cases s.cfg.rxOnFull <;> rfl

/-- The registers a step of the RX agent writes are those of `u`, the others those of `s` (R302). -/
def State.withRx (s u : State) : State :=
  { s with
    rbuf := u.rbuf, rin := u.rin, rxHold := u.rxHold, rxq := u.rxq, log := u.log, readScript := u.readScript
    draws := u.draws, res := u.res }

theorem Delivered.writes (h : Delivered chunk s t) : t = s.withRx t := by
  unfold Delivered at h
  split at h
  · rw [h]; rfl
  · split at h
    · rw [h.1]; rfl
    · split at h <;> rw [h] <;> rfl

/-- With `RX_ON_FULL = RETRY` a chunk is in the ring or held back, and nothing is logged; before it was the chunk held back, or
there was none. -/
theorem Delivered.keeps_bytes (h : Delivered chunk s t) (hretry : s.cfg.rxOnFull = .retry)
    (hnone : chunk = [] → s.rxHold = []) :
    ringLive t ++ t.rxHold ++ t.rxq = ringLive s ++ chunk ++ s.rxq ∧ t.log = s.log := by
  unfold Delivered at h
  split at h
  · rename_i hnil
    rw [h, hnil, ← hnone hnil]
    exact ⟨rfl, rfl⟩
  · split at h
    · obtain ⟨ht, hlive⟩ := h
      rw [hlive, ht, List.append_nil]
      exact ⟨rfl, rfl⟩
    · rw [hretry] at h
      rw [h]
      exact ⟨rfl, rfl⟩

/-! ### RX_STEP (R302) -/

/-- Either way the environment answers, a transport read takes the front of `rxq`, and the answer leaves its script (R301). -/
theorem transportRead_takes (s : State) :
    ∃ n script draws, transportRead s =
      (s.rxq.take n, { s with rxq := s.rxq.drop n, readScript := script, draws := draws }) := by
  obtain ⟨n, -, hbytes, hscripted, hfree⟩ := transportRead_spec s
  cases hscript : s.readScript with
  | nil => exact ⟨n, _, _, Prod.ext hbytes (hscript ▸ hfree hscript)⟩
  | cons k later => exact ⟨n, _, _, Prod.ext hbytes (hscripted k later hscript).2⟩

/-- A chunk held back is tried again. -/
theorem rxStep_held (h : RingInv s) (hheld : s.rxHold ≠ []) : Delivered s.rxHold s (rxStep s) := by
  rw [rxStep, rxStepBy_eq, if_pos hheld]
  exact delivered_rxDeliver h hheld

/-- With none, one read is made. -/
theorem rxStep_reads (h : RingInv s) (hnone : s.rxHold = []) :
    Delivered (transportRead s).1 (transportRead s).2 (rxStep s) := by
  have hring : RingInv (transportRead s).2 := by
    obtain ⟨n, script, draws, hread⟩ := transportRead_takes s
    rw [hread]
    exact h
  rw [rxStep, rxStepBy_eq, if_neg (not_not.mpr hnone)]
  by_cases hempty : (transportRead s).1 = []
  · rw [if_pos hempty, hempty]
    exact delivered_nil _
  · rw [if_neg hempty]
    exact delivered_rxDeliver hring hempty

/-- RX_STEP writes the registers of the RX agent alone. -/
theorem rxStep_writes (h : RingInv s) : rxStep s = s.withRx (rxStep s) := by
  by_cases hheld : s.rxHold = []
  · obtain ⟨n, script, draws, hread⟩ := transportRead_takes s
    have hwrites := (rxStep_reads h hheld).writes
    rw [hread] at hwrites
    exact hwrites
  · exact (rxStep_held h hheld).writes

/-- Settles O52: the chunk held back (`rxStep_held`), or the one that a read yields (`rxStep_reads`, `transportRead_spec`). -/
theorem rxStepMovesAChunk : Obligations.RxStepMovesAChunk := by
  intro s hinit hruns hring
  refine ⟨rfl, _, rxStep_eq hinit hruns, rxStep_held hring, fun hnone => ?_⟩
  obtain ⟨n, hn, hbytes, hscripted, hfree⟩ := transportRead_spec s
  have hdelivered := rxStep_reads hring hnone
  rw [hbytes] at hdelivered
  refine ⟨n, hn, fun k later hscript => ?_, fun hscript => hfree hscript ▸ hdelivered⟩
  obtain ⟨hsize, hread⟩ := hscripted k later hscript
  exact ⟨hsize, hread ▸ hdelivered⟩

/-- Settles O53: of the held chunk and of the bytes a read moves, none is lost (`Delivered.keeps_bytes`). -/
theorem retryLosesNothing : Obligations.RetryLosesNothing := by
  intro s hinit hruns hring hretry
  refine ⟨_, rxStep_eq hinit hruns, ?_⟩
  by_cases hheld : s.rxHold = []
  · obtain ⟨n, script, draws, hread⟩ := transportRead_takes s
    have hdelivered := rxStep_reads hring hheld
    rw [hread] at hdelivered
    obtain ⟨hbytes, hlog⟩ := hdelivered.keeps_bytes hretry fun _ => hheld
    refine ⟨?_, hlog⟩
    calc ringLive (rxStep s) ++ (rxStep s).rxHold ++ (rxStep s).rxq
        = ringLive s ++ s.rxq.take n ++ s.rxq.drop n := hbytes
      _ = ringLive s ++ s.rxHold ++ s.rxq := by rw [List.append_assoc, List.take_append_drop, hheld, List.append_nil]
  · exact (rxStep_held hring hheld).keeps_bytes hretry fun hnil => absurd hnil hheld

end Sys2Proof.Machine
end

section
/-! PROOF. COOP_STEP (spec/47_ingress_pump.md R307, R310, spec/70_reset_and_hazards.md R389): how one pass of its loop ends, and that
it is the RX step and the parser steps the agents make on their own in the other modes. -/

namespace Sys2Proof.Machine

variable {s t : State} {r : List Byte}

/-! ### The collecting steps, whatever the parser state -/

/-- The registers a collecting step writes besides the ring's tail are those of `u`, the others those of `s` (R192 to R194). -/
def State.withParse (s u : State) : State :=
  { s with ps := u.ps, abuf := u.abuf, acnt := u.acnt, asize := u.asize, log := u.log, res := u.res }

theorem checkHeader_writes (s : State) : checkHeader s = s.withParse (checkHeader s) := by
  obtain ⟨e, he⟩ | ⟨_, _, he⟩ := checkHeader_eq s <;> rw [he] <;> rfl

theorem collectOn_writes (r : List Byte) (s : State) : collectOn r s = s.withParse (collectOn r s) := by
  unfold collectOn
  split
  · unfold seekSyncOn
    split
    · rfl
    · split <;> rfl
  · unfold readLengthOn
    dsimp only
    split
    · split <;> rfl
    · exact congrArg (answer .done) (checkHeader_writes (assemble r s))
  · unfold readBodyOn
    dsimp only
    split
    · rfl
    · split <;> rfl
  · rfl

theorem collectStep_writes (s : State) : collectStep s = (ringGet (wanted s) s).2.withParse (collectStep s) :=
  collectOn_writes _ _

theorem ringLive_collectStep (h : RingInv s) : ringLive (collectStep s) = (ringLive s).drop (wanted s) := by
  obtain ⟨-, -, -, hlive⟩ := ringGet_spec h (wanted s)
  rw [collectStep_writes]
  exact hlive

/-- A step that does not route always has a byte to ask for. -/
theorem wanted_pos (h : Inv s) (hps : s.ps ≠ .route) : 0 < wanted s := by
  unfold wanted
  cases hp : s.ps with
  | seekSync => exact Nat.one_pos
  | readLength =>
    obtain ⟨-, hhigh⟩ := h.parserAgrees hp
    exact Nat.sub_pos_of_lt (Nat.lt_succ_of_le hhigh)
  | readBody =>
    obtain ⟨-, -, hneeds⟩ := h.parserAgrees hp
    exact Nat.sub_pos_of_lt hneeds
  | route => exact absurd hp hps

/-- With no byte obtained the step holds (R190). -/
theorem collectOn_none (h : Inv s) (hps : s.ps ≠ .route) : collectOn [] s = answer .hold s := by
  cases hp : s.ps with
  | seekSync => exact collectOn_seekSync hp
  | readLength =>
    obtain ⟨-, hhigh⟩ := h.parserAgrees hp
    rw [collectOn_readLength hp, readLengthOn_nil (Nat.lt_succ_of_le hhigh)]
  | readBody =>
    obtain ⟨-, -, hneeds⟩ := h.parserAgrees hp
    rw [collectOn_readBody hp, readBodyOn_nil hneeds]
  | route => exact absurd hp hps

/-- With bytes obtained it does not hold. -/
theorem collectOn_done (hr : r ≠ []) (hps : s.ps ≠ .route) : (collectOn r s).res = .done := by
  cases hp : s.ps with
  | seekSync =>
    obtain ⟨b, tail, rfl⟩ := List.exists_cons_of_ne_nil hr
    rw [collectOn_seekSync hp, seekSyncOn]
    split <;> rfl
  | readLength =>
    rw [collectOn_readLength hp]
    by_cases hshort : s.acnt + r.length < 4
    · rw [readLengthOn_progress hr hshort, answer_res]
    · rw [readLengthOn_header (Nat.not_lt.mp hshort), answer_res]
  | readBody => rw [collectOn_readBody hp, readBodyOn_takes hr, answer_res]
  | route => exact absurd hp hps

/-- Over an empty ring a collecting step holds; else it takes a byte and does not hold. -/
theorem collectStep_cases (h : Inv s) (hps : s.ps ≠ .route) :
    (ringOcc s = 0 ∧ collectStep s = answer .hold s) ∨
      ((collectStep s).res = .done ∧ ringOcc (collectStep s) < ringOcc s) := by
  have hwanted := wanted_pos h hps
  rcases Nat.eq_zero_or_pos (ringOcc s) with hempty | hocc
  · have hlive : ringLive s = [] := List.eq_nil_of_length_eq_zero ((ringLive_length s).trans hempty)
    exact .inl ⟨hempty, by rw [collectStep_finds_none h.ring (by rw [hlive, List.take_nil]), collectOn_none h hps]⟩
  · have hbytes : (ringGet (wanted s) s).1 ≠ [] := by
      refine List.ne_nil_of_length_pos ?_
      rw [ringGet, ringPeek_length]
      exact Nat.lt_min.mpr ⟨hwanted, hocc⟩
    refine .inr ⟨collectOn_done hbytes hps, ?_⟩
    rw [← ringLive_length, ringLive_collectStep h.ring, List.length_drop, ringLive_length]
    exact Nat.sub_lt hocc hwanted

/-! ### What ROUTE answers -/

/-- A step of the parser agent that comes back: it does not hold, and the agent is no more stuck than before. -/
def Returns (s t : State) : Prop := t.res ≠ .hold ∧ t.parserStuck = s.parserStuck

theorem dropped_returns (e : Event) (s : State) : Returns s (answer .done (raise e s)) :=
  ⟨Result.noConfusion, rfl⟩

theorem msWrite_returns (addr : U16) (data : List Byte) (s : State) : Returns s (msWrite addr data s) := by
  refine ⟨?_, msWrite_parserStuck addr data s⟩
  unfold msWrite
  dsimp only
  split <;> exact Result.noConfusion

theorem msRead_returns (addr len : U16) (s : State) : Returns s (msRead addr len s) := by
  refine ⟨?_, msRead_parserStuck addr len s⟩
  unfold msRead
  split
  · exact Result.noConfusion
  · dsimp only
    split <;> exact Result.noConfusion

theorem corrDeliver_returns (ty : U16) (body : List Byte) (s : State) : Returns s (corrDeliver ty body s) := by
  have hdraw : (drawBody body s).2.parserStuck = s.parserStuck := by unfold drawBody; split <;> rfl
  obtain ⟨cl, he⟩ | he := corrDeliver_eq ty body s <;> rw [he]
  · exact ⟨Result.noConfusion, by cases cl <;> exact hdraw⟩
  · exact dropped_returns _ s

theorem dispatchReply_returns (code : U16) (ret : List Byte) (s : State) : Returns s (dispatchReply code ret s) := by
  unfold dispatchReply
  split <;> exact ⟨Result.noConfusion, rfl⟩

/-- The step comes back at once, or from a dispatch as that does. -/
def ReturnsOrDispatches (s : State) (o : Out) : Prop :=
  (∃ t, o = .next t ∧ Returns s t) ∨ ∃ code arg, o = dispatchCall code arg s

theorem Returns.next (h : Returns s t) : ReturnsOrDispatches s (.next t) := .inl ⟨t, rfl, h⟩

theorem returnsOrDispatches_ite {p : Prop} [Decidable p] {o o' : Out} (h : ReturnsOrDispatches s o)
    (h' : ReturnsOrDispatches s o') : ReturnsOrDispatches s (if p then o else o') := by
  split
  · exact h
  · exact h'

theorem routeRequest_cases (ty : U16) (p : List Byte) (s : State) : ReturnsOrDispatches s (routeRequest ty p s) := by
  have hdropped : ∀ e, ReturnsOrDispatches s (.next (answer .done (raise e s))) := fun e => (dropped_returns e s).next
  rw [routeRequest_spec]
  refine returnsOrDispatches_ite ?write <| returnsOrDispatches_ite ?read <| returnsOrDispatches_ite ?func (hdropped _)
  case write => exact returnsOrDispatches_ite (hdropped _) (msWrite_returns _ _ s).next
  case read => exact returnsOrDispatches_ite (hdropped _) (msRead_returns _ _ s).next
  case func => exact returnsOrDispatches_ite (hdropped _) (.inr ⟨_, _, rfl⟩)

/-- What ROUTE does before the parser goes back to SEEK_SYNC (R195, R197, R198). -/
theorem routeStep_cases (s : State) :
    ∃ o, routeStep s = andThen o (fun t => .next (routeEnd t)) ∧ ReturnsOrDispatches s o :=
  ⟨_, rfl, returnsOrDispatches_ite (dropped_returns _ s).next <|
    returnsOrDispatches_ite (routeRequest_cases _ _ s) (corrDeliver_returns _ _ s).next⟩

/-- Where the parser agent was not stuck, the step is a hold exactly for a callback that never returns (log entry 16). -/
def HoldsIffStuck (t : State) : Prop := t.res = .hold ↔ t.parserStuck = true

theorem Returns.holdsIffStuck (h : Returns s t) (hruns : s.parserStuck = false) : HoldsIffStuck t := by
  obtain ⟨hres, hstuck⟩ := h
  simp [HoldsIffStuck, hres, hstuck, hruns]

theorem transmitReply_parserStuck (f : Option (List Byte)) (s : State) :
    (transmitReply f s).parserStuck = s.parserStuck := by
  cases f <;> rfl

theorem drawCallback_parserStuck (cb : Handle) (arg : List Byte) (s : State) :
    (drawCallback cb arg s).2.parserStuck = s.parserStuck := by
  unfold drawCallback
  split <;> rfl

theorem dispatchCall_holdsIffStuck (code : U16) (arg : List Byte) (hruns : s.parserStuck = false) :
    OnNext HoldsIffStuck (dispatchCall code arg s) := by
  unfold dispatchCall
  split
  · exact Returns.holdsIffStuck (s := s) ⟨Result.noConfusion, transmitReply_parserStuck _ _⟩ hruns
  · rename_i cb _
    have hdraw := drawCallback_parserStuck cb arg s
    split
    · rename_i hd
      rw [hd] at hdraw
      exact onNext_ite (fun _ => (dispatchReply_returns _ _ _).holdsIffStuck (hdraw.trans hruns)) fun _ => trivial
    · exact ⟨fun _ => rfl, fun _ => rfl⟩
    · trivial

theorem routeEnd_holdsIffStuck (h : HoldsIffStuck t) : HoldsIffStuck (routeEnd t) := by
  unfold routeEnd
  split <;> exact h

theorem routeStep_holdsIffStuck (hruns : s.parserStuck = false) : OnNext HoldsIffStuck (routeStep s) := by
  obtain ⟨o, hroute, hcases⟩ := routeStep_cases s
  have ho : OnNext HoldsIffStuck o := by
    obtain ⟨t, rfl, ht⟩ | ⟨code, arg, rfl⟩ := hcases
    · exact ht.holdsIffStuck hruns
    · exact dispatchCall_holdsIffStuck code arg hruns
  rw [hroute]
  exact onNext_andThen (ho.mono fun _ => routeEnd_holdsIffStuck)

/-- The callbacks the environment has settled keep their contract (R285). -/
abbrev CallbacksKeep (s : State) : Prop := ∀ a ∈ s.cbScript, callbackKeepsContract s.cfg a = true

/-- A callback that keeps its contract returns, settled or free (R285, R286). -/
theorem drawCallback_of_callbacksKeep (h : CallbacksKeep s) (cb : Handle) (arg : List Byte) :
    ∃ ret t, drawCallback cb arg s = (.returns ret.length ret, t) ∧ ret.length ≤ s.cfg.maxRet := by
  unfold drawCallback
  split
  · rename_i a later hscript
    have ha := h a (by rw [hscript]; exact List.mem_cons_self)
    cases a with
    | returns declared ret =>
      obtain ⟨rfl, hret⟩ : declared = ret.length ∧ ret.length ≤ s.cfg.maxRet := by simpa [callbackKeepsContract] using ha
      exact ⟨ret, _, rfl, hret⟩
    | neverReturns | usesContext => cases ha
  · exact ⟨_, _, rfl, List.length_take_le _ _⟩

theorem dispatchCall_of_callbacksKeep (h : CallbacksKeep s) (code : U16) (arg : List Byte) :
    ∃ t, dispatchCall code arg s = .next t ∧ t.parserStuck = s.parserStuck := by
  unfold dispatchCall
  split
  · exact ⟨_, rfl, transmitReply_parserStuck _ _⟩
  · rename_i cb _
    have hstuck := drawCallback_parserStuck cb arg s
    obtain ⟨ret, t, hdraw, hret⟩ := drawCallback_of_callbacksKeep h cb arg
    rw [hdraw] at hstuck ⊢
    obtain ⟨-, hreply⟩ := dispatchReply_returns code ret t
    exact ⟨_, if_pos ⟨rfl, hret⟩, hreply.trans hstuck⟩

/-- Over callbacks that keep their contract ROUTE always ends in SEEK_SYNC. -/
theorem routeStep_of_callbacksKeep (h : CallbacksKeep s) (hruns : s.parserStuck = false) :
    ∃ t, routeStep s = .next t ∧ t.parserStuck = false ∧ t.ps = .seekSync ∧ t.acnt = 0 := by
  obtain ⟨o, hroute, hcases⟩ := routeStep_cases s
  obtain ⟨t, rfl, hstuck⟩ : ∃ t, o = .next t ∧ t.parserStuck = s.parserStuck := by
    obtain ⟨t, rfl, -, hstuck⟩ | ⟨code, arg, rfl⟩ := hcases
    · exact ⟨t, rfl, hstuck⟩
    · exact dispatchCall_of_callbacksKeep h code arg
  rw [hruns] at hstuck
  exact ⟨{ t with acnt := 0, ps := .seekSync }, by rw [hroute, andThen_of_next, routeEnd_runs hstuck], hstuck, rfl, rfl⟩

/-! ### How a pass ends (R310) -/

/-- A pass of the loop is the RX step and the parser's run over what is then in the ring. -/
theorem coopStep_eq (hrun : Running s) (hsched : s.cfg.sched = .cooperative) (hruns : s.parserStuck = false) :
    exec .coopStep s = andThen (coopParse (ringOcc (rxStep s) + 2) (rxStep s)) fun t => .next (coopEnd t) := by
  obtain ⟨hinit, hcrc, -⟩ := hrun
  rw [exec, execCoopStep, requireInited_pos hinit, requireCrc_pos hcrc, if_neg (not_not.mpr hsched), parserAgent_runs hruns]

theorem coopParse_route (n : Nat) (hps : s.ps = .route) :
    coopParse (n + 1) s = andThen (routeStep s) fun t => .next (answer (if t.parserStuck then .hold else .frame) t) :=
  if_pos hps

theorem coopParse_collects (n : Nat) (hps : s.ps ≠ .route) :
    coopParse (n + 1) s = if (collectStep s).res = .hold then .next (collectStep s) else coopParse n (collectStep s) :=
  if_neg hps

/-- What the parser's run of one pass leaves: a frame routed, or a hold over an empty ring. -/
def RunEnds (t : State) : Prop :=
  (t.res = .frame ∧ t.ps = .seekSync ∧ t.acnt = 0) ∨ (ringOcc t = 0 ∧ t.res = .hold ∧ t.parserStuck = false)

/-- As many steps as there are bytes in the ring, and one more, are enough: by induction on them. -/
theorem coopParse_ends (n : Nat) (h : Inv s) (hruns : s.parserStuck = false) (hkeep : CallbacksKeep s)
    (hfuel : ringOcc s < n) : ∃ t, coopParse n s = .next t ∧ RunEnds t := by
  induction n generalizing s with
  | zero => exact absurd hfuel (Nat.not_lt_zero _)
  | succ n ih =>
    by_cases hps : s.ps = .route
    · obtain ⟨t, hroute, hstuck, hseek, hacnt⟩ := routeStep_of_callbacksKeep hkeep hruns
      exact ⟨answer .frame t, by rw [coopParse_route n hps, hroute, andThen_of_next, hstuck]; rfl, .inl ⟨rfl, hseek, hacnt⟩⟩
    · rw [coopParse_collects n hps]
      obtain ⟨hempty, hhold⟩ | ⟨hdone, hless⟩ := collectStep_cases h hps
      · rw [hhold]
        exact ⟨_, if_pos rfl, .inr ⟨hempty, rfl, hruns⟩⟩
      · rw [if_neg (by simp [hdone])]
        have hwrites := collectStep_writes s
        refine ih (collectStep_inv h) ?_ ?_ (by omega)
        · rw [hwrites]; exact hruns
        · rw [hwrites]; exact hkeep

theorem someTimedOut_iff : someTimedOut s = true ↔ ∃ cl, (classRegs cl s).cstate = .waiting ∧ (classRegs cl s).tcnt = 0 := by
  simp only [someTimedOut, Bool.or_eq_true, Bool.and_eq_true, decide_eq_true_eq]
  refine ⟨?_, ?_⟩
  · rintro (h | h)
    · exact ⟨.read, h⟩
    · exact ⟨.func, h⟩
  · rintro ⟨_ | _, h⟩
    · exact .inl h
    · exact .inr h

theorem noneWaiting_iff : noneWaiting s = true ↔ ∀ cl, (classRegs cl s).cstate = .idle := by
  simp only [noneWaiting, Bool.and_eq_true, decide_eq_true_eq]
  exact ⟨fun ⟨hread, hfunc⟩ cl => by cases cl <;> assumption, fun h => ⟨h .read, h .func⟩⟩

theorem waiting_of_not_idle {x : CallState} (h : x ≠ .idle) : x = .waiting := by
  cases x with
  | idle => exact absurd rfl h
  | waiting => rfl

theorem coopEnd_frame (h : s.res = .frame) : coopEnd s = s := if_pos (.inl h)

/-- A run that held ends the loop with NOFRAME, or leaves the host agent holding until its next pass. -/
theorem coopEnd_hold (hres : s.res = .hold) (hruns : s.parserStuck = false) :
    coopEnd s = if someTimedOut s ∨ noneWaiting s then answer .noFrame s else answer .hold s :=
  if_neg (by simp [hres, hruns])

/-- Settles O55: the run of parser steps routes a frame or empties the ring (`coopParse_ends`), and in the second case the class
counters decide (`coopEnd_hold`). -/
theorem coopStepEnds : Obligations.CoopStepEnds := by
  intro s hrun hinv hsched hruns hkeep
  have hwrites := rxStep_writes hinv.ring
  obtain ⟨t, hparse, hends⟩ := coopParse_ends (s := rxStep s) (ringOcc (rxStep s) + 2) (rxStep_inv hinv)
    (by rw [hwrites]; exact hruns) (by rw [hwrites]; exact hkeep) (by omega)
  refine ⟨rfl, coopEnd t, by rw [coopStep_eq hrun hsched hruns, hparse, andThen_of_next], ?_⟩
  obtain ⟨hframe, hparser⟩ | ⟨hempty, hhold, hstuck⟩ := hends
  · rw [coopEnd_frame hframe]
    exact .inl ⟨hframe, hparser⟩
  · rw [coopEnd_hold hhold hstuck]
    by_cases hover : someTimedOut t = true ∨ noneWaiting t = true
    · rw [if_pos hover]
      rw [someTimedOut_iff, noneWaiting_iff] at hover
      exact .inr (.inl ⟨hempty, rfl, hover⟩)
    · rw [if_neg hover]
      obtain ⟨htime, hsome⟩ := not_or.mp hover
      rw [someTimedOut_iff] at htime
      rw [noneWaiting_iff, not_forall] at hsome
      obtain ⟨cl, hcl⟩ := hsome
      exact .inr (.inr ⟨hempty, rfl, ⟨cl, waiting_of_not_idle hcl⟩,
        fun cl hcl => Nat.pos_of_ne_zero fun hzero => htime ⟨cl, hcl, hzero⟩⟩)

end Sys2Proof.Machine
end

section
/-! PROOF. COOP_STEP is the steps of the agents (spec/47_ingress_pump.md R307, R310, spec/70_reset_and_hazards.md R389): the PARSE
instructions they make on their own under another scheduling model, up to a ROUTE step or a hold, with a frame at the front of the
ring as the case R310 shows. -/

namespace Sys2Proof.Machine

variable {s t u v x : State} {ty : U16} {payload rest : List Byte}

/-! ### One pass under another scheduling model -/

theorem Inv.scheduled (h : Inv s) (m : Sched) : Inv (s.scheduled m) :=
  ⟨h.cfg, h.ring, h.parser, h.readCls, h.funcCls, h.registry, h.hold, h.crc, h.mem⟩

theorem coopParse_scheduled (n : Nat) (s : State) (m : Sched) :
    coopParse n (s.scheduled m) = scheduledOut m (coopParse n s) := by
  induction n generalizing s with
  | zero => rfl
  | succ n ih =>
    by_cases hps : s.ps = .route
    · rw [coopParse_route n hps, coopParse_route (s := s.scheduled m) n hps, routeStep_scheduled]
      cases routeStep s <;> rfl
    · rw [coopParse_collects n hps, coopParse_collects (s := s.scheduled m) n hps, collectStep_scheduled, ih]
      by_cases hhold : (collectStep s).res = .hold
      · rw [if_pos hhold]
        exact if_pos hhold
      · rw [if_neg hhold]
        exact if_neg hhold

theorem coopEnd_scheduled (s : State) (m : Sched) : coopEnd (s.scheduled m) = (coopEnd s).scheduled m := by
  show (if s.res = .frame ∨ s.parserStuck then _ else if someTimedOut s ∨ noneWaiting s then _ else _) =
    State.scheduled (if _ then _ else if _ then _ else _) m
  split
  · rfl
  · split <;> rfl

/-! ### The parser's run as PARSE instructions -/

theorem parserSteps_collects (n : Nat) (hinit : s.inited = true) (hruns : ParserRuns s) (hps : s.ps ≠ .route) :
    parserSteps (n + 1) s = if (collectStep s).res = .hold then .next (collectStep s) else parserSteps n (collectStep s) := by
  rw [parserSteps, parseStep_collects hinit hruns hps, andThen_of_next]
  simp only [hps, false_or]

theorem parserSteps_route (n : Nat) (hps : s.ps = .route) : parserSteps (n + 1) s = exec .parseRoute s := by
  have hstep : parseStep s = exec .parseRoute s := by rw [parseStep, hps]
  rw [parserSteps, hstep]
  cases exec .parseRoute s with
  | next t => exact if_pos (.inl hps)
  | fault _ | refused _ => rfl

/-- What a run of parser steps that came to `d` answers COOP_STEP. -/
def runAnswer (d : State) : Result := if d.res = .hold then .hold else .frame

/-- The run inside COOP_STEP is the run of the PARSE instructions. -/
theorem coopParse_eq_parserSteps (n : Nat) (hrun : Running s) (hruns : ParserRuns s) :
    coopParse n s = andThen (parserSteps n s) fun d => .next (answer (runAnswer d) d) := by
  induction n generalizing s with
  | zero => rfl
  | succ n ih =>
    by_cases hps : s.ps = .route
    · rw [coopParse_route n hps, parserSteps_route n hps, parseRoute_eq hrun hruns hps]
      have hholds := routeStep_holdsIffStuck hruns.2
      cases hroute : routeStep s with
      | next t =>
        rw [hroute] at hholds
        have hiff : t.res = .hold ↔ t.parserStuck = true := hholds
        simp only [andThen_of_next, runAnswer, hiff]
      | fault _ | refused _ => rfl
    · rw [coopParse_collects n hps, parserSteps_collects n hrun.1 hruns hps]
      split
      · rename_i hhold
        rw [andThen_of_next, runAnswer, if_pos hhold, ← hhold]
        rfl
      · have hwrites := collectStep_writes s
        exact ih (by rw [hwrites]; exact hrun) (by rw [hwrites]; exact hruns)

/-! ### A pass of COOP_STEP and the steps of the agents -/

/-- A cooperative context that makes a pass, and the state in which the RX agent of R307 would leave it to the parser. -/
structure CoopPass (s u : State) : Prop where
  running : Running s
  inv : Inv s
  sched : s.cfg.sched = .cooperative
  runs : s.parserStuck = false
  rx : exec .rxStep (s.scheduled .preemptive) = .next u

theorem CoopPass.eq (h : CoopPass s u) : u = (rxStep s).scheduled .preemptive := by
  have hrx := h.rx
  rw [rxStep_eq (s := s.scheduled .preemptive) h.running.1 nofun, rxStep_scheduled] at hrx
  exact (Host.Outcome.next.inj hrx).symm

/-- The parser finds the registers RX_STEP does not write as they were. -/
theorem CoopPass.eq_withRx (h : CoopPass s u) : u = (s.withRx u).scheduled .preemptive := by
  have hwrites := congrArg (State.scheduled · .preemptive) (rxStep_writes h.inv.ring)
  rw [h.eq]
  exact hwrites

theorem CoopPass.parser_running (h : CoopPass s u) : Running u ∧ ParserRuns u := by
  rw [h.eq_withRx]
  exact ⟨h.running, nofun, h.runs⟩

theorem CoopPass.parser_inv (h : CoopPass s u) : Inv u := by
  rw [h.eq]
  exact (rxStep_inv h.inv).scheduled _

/-- COOP_STEP is the PARSE instructions at `u`, with the answer of the loop's end (R310). -/
theorem CoopPass.coopStep_eq (h : CoopPass s u) :
    exec .coopStep s = andThen (parserSteps (ringOcc u + 2) u)
      fun d => .next ((coopEnd (answer (runAnswer d) d)).scheduled .cooperative) := by
  obtain ⟨hrun, hruns⟩ := h.parser_running
  have hsame : rxStep s = u.scheduled .cooperative := by
    have hcfg : (rxStep s).cfg = s.cfg := by rw [rxStep_writes h.inv.ring]; rfl
    rw [h.eq, scheduled_scheduled, scheduled_self (hcfg ▸ h.sched)]
  rw [Machine.coopStep_eq h.running h.sched h.runs, hsame, scheduled_ringOcc, coopParse_scheduled,
    coopParse_eq_parserSteps _ hrun hruns]
  cases parserSteps (ringOcc u + 2) u with
  | next d =>
    show Host.Outcome.next (coopEnd ((answer (runAnswer d) d).scheduled .cooperative)) = _
    rw [coopEnd_scheduled]
    rfl
  | fault _ | refused _ => rfl

/-- The end of the loop answers FRAME where the run did, and changes nothing but the answer. -/
theorem coopEnd_answers (s : State) : ∃ r, (r = .frame ↔ s.res = .frame) ∧ coopEnd s = answer r s := by
  unfold coopEnd
  split
  · exact ⟨s.res, Iff.rfl, rfl⟩
  · rename_i hother
    have hframe : s.res ≠ .frame := fun he => hother (.inl he)
    split
    · exact ⟨.noFrame, iff_of_false nofun hframe, rfl⟩
    · exact ⟨.hold, iff_of_false nofun hframe, rfl⟩

theorem runAnswer_frame_iff {d : State} : runAnswer d = .frame ↔ d.res ≠ .hold := by
  unfold runAnswer
  split
  · exact iff_of_false nofun (not_not.mpr ‹_›)
  · exact iff_of_true rfl ‹_›

theorem CoopPass.coopStep_next (h : CoopPass s u) {d : State} (hd : parserSteps (ringOcc u + 2) u = .next d) :
    ∃ r, (r = .frame ↔ d.res ≠ .hold) ∧ exec .coopStep s = .next { d.scheduled .cooperative with res := r } := by
  obtain ⟨r, hr, hend⟩ := coopEnd_answers (answer (runAnswer d) d)
  refine ⟨r, hr.trans runAnswer_frame_iff, ?_⟩
  rw [h.coopStep_eq, hd, andThen_of_next, hend]
  rfl

theorem CoopPass.coopStep_refused (h : CoopPass s u) {q : Refusal} (hq : parserSteps (ringOcc u + 2) u = .refused q) :
    exec .coopStep s = .refused q := by
  rw [h.coopStep_eq, hq]
  rfl

/-! ### A frame at the front of the ring -/

/-- The pass comes to ROUTE at `v`, where the collecting steps have assembled the frame of type `ty` and payload `payload`, with
`rest` behind it in the ring. -/
structure RoutesFrame (s u : State) (ty : U16) (payload rest : List Byte) (v : State) : Prop where
  pass : CoopPass s u
  steps : parserSteps (ringOcc u + 2) u = exec .parseRoute v
  assembled : ∃ i, v = assembled ty (encodedFrame ty payload) { u with rout := i }
  live : ringLive v = rest
  fits : Fits s payload

/-- Three collecting steps take the frame from the ring (R192 to R194), so the run comes to ROUTE. -/
theorem CoopPass.parses (h : CoopPass s u) (hps : s.ps = .seekSync) (hfits : Fits s payload)
    (hlive : ringLive u = wireFrame ty payload ++ rest) :
    ∃ a b c, exec .parseSeekSync u = .next a ∧ exec .parseReadLength a = .next b ∧ exec .parseReadBody b = .next c ∧
      RoutesFrame s u ty payload rest c := by
  obtain ⟨hrun, hruns⟩ := h.parser_running
  have hups : u.ps = .seekSync := by rw [h.eq_withRx]; exact hps
  have hufits : Fits u payload := by rw [h.eq_withRx]; exact hfits
  have hfuel : ringOcc u + 2 = payload.length + rest.length + 8 + 4 := by
    rw [← ringLive_length, hlive, List.length_append, wireFrame_length]
    omega
  obtain ⟨a, b, i, hua, hab, hbc, -, hrest, haps, hbps, hares, hbres, ⟨_, _, ha⟩, ⟨_, _, hb⟩⟩ :=
    collect_ring h.parser_inv.ring hups (goodFrame_encoded h.parser_inv.cfg hufits ty) hlive
  have harun : Running a ∧ ParserRuns a := by rw [ha]; exact ⟨hrun, hruns⟩
  have hbrun : Running b ∧ ParserRuns b := by rw [hb]; exact ⟨hrun, hruns⟩
  refine ⟨a, b, _, hua ▸ parseSeekSync_eq hrun.1 hruns hups, hab ▸ parseReadLength_eq harun.1.1 harun.2 haps,
    hbc ▸ parseReadBody_eq hbrun.1.1 hbrun.2 hbps, ⟨h, ?_, ⟨i, rfl⟩, hrest, hfits⟩⟩
  rw [hfuel, parserSteps_collects _ hrun.1 hruns (by simp [hups]), hua, if_neg (by simp [hares]),
    parserSteps_collects _ harun.1.1 harun.2 (by simp [haps]), hab, if_neg (by simp [hbres]),
    parserSteps_collects _ hbrun.1.1 hbrun.2 (by simp [hbps]), hbc, if_neg Result.noConfusion, parserSteps_route _ rfl]

/-- The parser agent is where it makes the ROUTE step. -/
theorem RoutesFrame.at_route (h : RoutesFrame s u ty payload rest v) : Running v ∧ ParserRuns v ∧ v.ps = .route := by
  obtain ⟨hrun, hruns⟩ := h.pass.parser_running
  obtain ⟨i, hv⟩ := h.assembled
  rw [hv]
  exact ⟨hrun, hruns, rfl⟩

/-- ROUTE serves the frame (R195). -/
theorem RoutesFrame.routeStep_eq (h : RoutesFrame s u ty payload rest v) :
    routeStep v = andThen (Machine.served ty payload v) fun t => .next (routeEnd t) := by
  obtain ⟨hrun, -⟩ := h.pass.parser_running
  have hfits : Fits u payload := by rw [h.pass.eq_withRx]; exact h.fits
  obtain ⟨i, hv⟩ := h.assembled
  rw [hv]
  exact routeStep_assembled hrun.2.2 (goodFrame_encoded (s := { u with rout := i }) h.pass.parser_inv.cfg hfits ty)

/-- COOP_STEP ends with the ROUTE step: FRAME, or a hold for a callback that never returns (R310; log entry 16). -/
theorem RoutesFrame.coopStep_next (h : RoutesFrame s u ty payload rest v) {d : State} (hd : exec .parseRoute v = .next d) :
    exec .coopStep s = .next { d.scheduled .cooperative with res := if d.parserStuck then .hold else .frame } := by
  obtain ⟨hrun, hruns, hps⟩ := h.at_route
  have hholds : d.res = .hold ↔ d.parserStuck = true := by
    rw [parseRoute_eq hrun hruns hps] at hd
    exact onNext_iff.mp (routeStep_holdsIffStuck hruns.2) d hd
  have hend : coopEnd (answer (runAnswer d) d) = answer (if d.parserStuck then .hold else .frame) d := by
    by_cases hstuck : d.parserStuck = true
    · rw [runAnswer, if_pos (hholds.mpr hstuck), if_pos hstuck]
      exact if_pos (.inr hstuck)
    · rw [runAnswer, if_neg fun hhold => hstuck (hholds.mp hhold), if_neg hstuck]
      exact coopEnd_frame rfl
  rw [h.pass.coopStep_eq, h.steps, hd, andThen_of_next, hend]
  rfl

theorem RoutesFrame.coopStep_refused (h : RoutesFrame s u ty payload rest v) {q : Refusal}
    (hq : exec .parseRoute v = .refused q) : exec .coopStep s = .refused q :=
  h.pass.coopStep_refused (h.steps.trans hq)

/-- A frame served with the parser agent still there. -/
theorem RoutesFrame.coopStep_served (h : RoutesFrame s u ty payload rest v) (hserved : Machine.served ty payload v = .next x)
    (hruns : x.parserStuck = false) :
    exec .coopStep s = .next { (resync x).scheduled .cooperative with res := .frame } := by
  obtain ⟨hrun, hparser, hps⟩ := h.at_route
  have hd : exec .parseRoute v = .next (resync x) := by
    rw [parseRoute_eq hrun hparser hps, h.routeStep_eq, hserved, andThen_of_next, routeEnd_runs hruns]
    rfl
  rw [h.coopStep_next hd, if_neg (by simp [hruns])]

/-! ### What the frame is served with -/

/-- The ring's tail and the parser's registers of `u`, all others of `s`. -/
def State.parserOf (s u : State) : State :=
  { s with rout := u.rout, ps := u.ps, abuf := u.abuf, acnt := u.acnt, asize := u.asize }

/-- Memory Service neither reads nor writes the parser's registers, nor the last answer. -/
theorem msRead_parserOf (addr len : U16) (r : Result) (s u : State) :
    msRead addr len (answer r (s.parserOf u)) = (msRead addr len s).parserOf u := by
  show (if s.cfg.memSize ≤ addr.toNat then _ else _) = State.parserOf (if _ then _ else _) u
  split
  · show answer _ (transmitReply (encodeIn s _ _) _) = State.parserOf (answer _ (transmitReply _ _)) u
    cases encodeIn s 0x2C02 (errPayload wireErrorCode) <;> rfl
  · dsimp only
    show (match encodeIn s 0x6C02 (keyedPayload addr (memReadBytes s.mem addr.toNat (msReadLen s.cfg.memSize addr len))) with
      | none => _ | some f => _) = _
    cases encodeIn s 0x6C02 (keyedPayload addr (memReadBytes s.mem addr.toNat (msReadLen s.cfg.memSize addr len))) <;> rfl

theorem msWrite_parserOf (addr : U16) (data : List Byte) (r : Result) (s u : State) :
    msWrite addr data (answer r (s.parserOf u)) = (msWrite addr data s).parserOf u := by
  unfold msWrite
  dsimp only [State.parserOf, answer_cfg, answer_mem]
  split <;> rfl

theorem Quiet.ringLive_eq (h : Quiet s t) : ringLive t = ringLive s := by
  rw [quiet_iff.mp h]
  rfl

theorem ringLive_msWrite (addr : U16) (data : List Byte) (s : State) : ringLive (msWrite addr data s) = ringLive s := by
  unfold msWrite
  dsimp only
  split <;> rfl

/-- Parsing the frame has written the parser's registers alone. -/
theorem RoutesFrame.eq_parserOf (h : RoutesFrame s u ty payload rest v) : v = answer .done (u.parserOf v) := by
  obtain ⟨i, hv⟩ := h.assembled
  rw [hv]
  rfl

theorem RoutesFrame.keeps (h : RoutesFrame s u ty payload rest v) :
    v.cfg.maxFrame = s.cfg.maxFrame ∧ v.readCls = s.readCls ∧ v.funcCls = s.funcCls ∧ v.mem = s.mem ∧ v.txq = s.txq ∧
      v.reg = s.reg ∧ v.log = u.log ∧ v.parserStuck = false := by
  obtain ⟨-, ⟨-, hruns⟩, -⟩ := h.at_route
  have hlog : v.log = u.log := by rw [h.eq_parserOf]; rfl
  have hv : v = answer .done (((s.withRx u).scheduled .preemptive).parserOf v) := by
    rw [← h.pass.eq_withRx]
    exact h.eq_parserOf
  refine ⟨?_, ?_, ?_, ?_, ?_, ?_, hlog, hruns⟩ <;> rw [hv] <;> rfl

/-- A response of class READ is stored and signalled (R198). -/
theorem RoutesFrame.response {hi : BitVec 7} (h : RoutesFrame s u (frameType false hi 0x02) payload rest v) :
    ∃ t, exec .coopStep s = .next t ∧ t.res = .frame ∧ ringLive t = rest ∧ t.ps = .seekSync ∧
      t.readCls = { s.readCls with
        slot := be16 (frameType false hi 0x02) ++ payload, slotLen := payload.length + 2, slotValid := true, pend := true } ∧
      t.mem = s.mem ∧ t.txq = s.txq ∧ t.log = u.log ∧ t.funcCls = s.funcCls ∧ t.reg = s.reg := by
  obtain ⟨hmax, hread, hfunc, hmem, htxq, hreg, hlog, hruns⟩ := h.keeps
  have hserved := served_response (sub := 0x02) (p := payload) hi (responseClass_read rfl) v (hmax ▸ h.fits)
  have hlen : (be16 (frameType false hi 0x02) ++ payload).length = payload.length + 2 := by
    rw [List.length_append, be16_length, Nat.add_comm]
  refine ⟨_, h.coopStep_served hserved hruns, rfl, h.live, rfl, ?_, hmem, htxq, hlog, hfunc, hreg⟩
  rw [← hlen, ← hread]
  rfl

/-- A read request is answered as MS_READ at `u` answers it (R197). -/
theorem RoutesFrame.read {hi : BitVec 7} {addr len : U16}
    (h : RoutesFrame s u (frameType true hi 0x02) payload rest v) (hp : payload = be16 addr ++ be16 len) :
    ∃ t m, exec .coopStep s = .next t ∧ exec (.msRead addr len) u = .next m ∧ t.res = .frame ∧ ringLive t = rest ∧
      t.ps = .seekSync ∧ t.txq = m.txq ∧ t.log = m.log ∧ t.mem = s.mem := by
  obtain ⟨-, -, -, hmem, -, -, -, hruns⟩ := h.keeps
  obtain ⟨hrun, hparser⟩ := h.pass.parser_running
  have hsame : msRead addr len v = (msRead addr len u).parserOf v := by
    rw [← msRead_parserOf addr len .done, ← h.eq_parserOf]
  have hquiet := msRead_quiet addr len v
  refine ⟨_, _, h.coopStep_served (served_read hi hp v) ((msRead_parserStuck ..).trans hruns), exec_msRead hrun hparser.2 _ _,
    rfl, hquiet.ringLive_eq.trans h.live, rfl, (congrArg State.txq hsame :), (congrArg State.log hsame :),
    hquiet.mem_eq.trans hmem⟩

/-- A write request is stored as MS_WRITE at `u` stores it (R197). -/
theorem RoutesFrame.write {hi : BitVec 7} {addr : U16} {data : List Byte}
    (h : RoutesFrame s u (frameType true hi 0x01) payload rest v)
    (hp : payload = be16 addr ++ be16 (BitVec.ofNat 16 data.length) ++ data) :
    ∃ t m, exec .coopStep s = .next t ∧ exec (.msWrite addr data) u = .next m ∧ t.res = .frame ∧ ringLive t = rest ∧
      t.ps = .seekSync ∧ t.mem = m.mem ∧ t.log = m.log ∧ t.txq = s.txq := by
  obtain ⟨-, -, -, -, htxq, -, -, hruns⟩ := h.keeps
  obtain ⟨hrun, hparser⟩ := h.pass.parser_running
  have hdata : data.length < 65536 := by
    obtain ⟨-, -, hmax, -⟩ := h.pass.inv.cfg
    have hfits : payload.length + 10 < s.cfg.maxFrame := h.fits
    rw [hp, List.length_append] at hfits
    omega
  have hsame : msWrite addr data v = (msWrite addr data u).parserOf v := by
    rw [← msWrite_parserOf addr data .done, ← h.eq_parserOf]
  refine ⟨_, _, h.coopStep_served (served_write hi hp hdata v) ((msWrite_parserStuck ..).trans hruns),
    exec_msWrite hrun.1 hparser.2 _ _, rfl, (ringLive_msWrite addr data v).trans h.live, rfl, (congrArg State.mem hsame :),
    (congrArg State.log hsame :), (msWrite_silent addr data v).txq.trans htxq⟩

/-- Settles O56: the pass is the run of the PARSE instructions (`CoopPass.coopStep_eq`), and a frame at the front of the ring is
parsed (`CoopPass.parses`) and served as its type says. -/
theorem coopStepServesResponse : Obligations.CoopStepServesResponse := by
  intro s u hrun hinv hsched hruns hrx
  have hpass : CoopPass s u := ⟨hrun, hinv, hsched, hruns, hrx⟩
  refine ⟨fun d => hpass.coopStep_next, fun q => hpass.coopStep_refused, fun ty payload rest hps hfits hlive => ?_⟩
  obtain ⟨a, b, c, hseek, hlength, hbody, hroutes⟩ := hpass.parses hps hfits hlive
  refine ⟨⟨a, b, c, hseek, hlength, hbody, fun d => hroutes.coopStep_next, fun q => hroutes.coopStep_refused⟩, ?_, ?_, ?_⟩
  · rintro hi rfl
    exact hroutes.response
  · rintro hi addr len rfl hp
    exact hroutes.read hp
  · rintro hi addr data rfl hp
    exact hroutes.write hp

end Sys2Proof.Machine
end

section
/-! PROOF. Exceptions, and the hazards of the CRC engine and the encoder (spec/60_exceptions.md R324, spec/70_reset_and_hazards.md
R372): a frame whose trailer is not its checksum is dropped, and what CRC_CHECKSUM, CRC_STORE, CRC_VERIFY, ENCODE and INITIALIZE
ask of the engine and of their operands. -/

namespace Sys2Proof.Machine

variable {s : State} {data buf : List Byte} {n total : Nat}

/-! ### An integrity error (R195, R324) -/

/-- Settles O28: an agent that steps on its own runs the ROUTE step (`parseRoute_eq`), which drops a frame with a bad trailer
(`routeStep_bad`). -/
theorem routeDropsBadTrailer : Obligations.RouteDropsBadTrailer := by
  intro s hrun hruns hps hbad
  have ⟨_, _, htable⟩ := hrun
  have ⟨_, hstuck⟩ := hruns
  rw [parseRoute_eq hrun hruns hps, routeStep_bad htable hstuck hbad]

/-! ### More bytes than the buffer holds (R153, R156), and no room for a trailer (U9) -/

theorem crcChecksum_beyondBuffer (h : s.crcInit = true) (hn : data.length < n) :
    exec (.crcChecksum data n) s = .refused .beyondBuffer := by
  rw [exec, execCrcChecksum, requireCrc_pos h, if_neg (Nat.not_le.mpr hn)]

theorem requireTrailer_short (h4 : total < 4) (k : Out) : requireTrailer buf total k = .refused .noTrailer :=
  if_pos h4

theorem requireTrailer_beyond (h4 : 4 ≤ total) (hlen : buf.length < total) (k : Out) :
    requireTrailer buf total k = .refused .beyondBuffer := by
  rw [requireTrailer, if_neg (Nat.not_lt.mpr h4), if_pos hlen]

/-- CRC_STORE and CRC_VERIFY are refused alike where the contract of their trailer is (R156, U9). -/
theorem crcTrailer_refused {q : Refusal} (h : s.crcInit = true) (hq : ∀ k, requireTrailer buf total k = .refused q) :
    exec (.crcStore buf total) s = .refused q ∧ exec (.crcVerify buf total) s = .refused q :=
  ⟨(requireCrc_pos h _).trans (hq _), (requireCrc_pos h _).trans (hq _)⟩

/-! ### The refusals -/

/-- Settles O22: each of the five asks for the engine first (`requireCrc_neg`); a ready one refuses by the bytes of the checksum
(`crcChecksum_beyondBuffer`) or by the room for a trailer (`crcTrailer_refused`). -/
theorem crcPreconditions : Obligations.CrcPreconditions := by
  intro s buf n ty handle readFn writeFn
  refine ⟨fun hoff => ?_, fun hready => crcChecksum_beyondBuffer hready,
    fun hready h4 => crcTrailer_refused hready (requireTrailer_short h4),
    fun hready h4 hlen => crcTrailer_refused hready (requireTrailer_beyond h4 hlen)⟩
  have hrefused := requireCrc_neg hoff
  exact ⟨hrefused _, hrefused _, hrefused _, hrefused _, hrefused _⟩

end Sys2Proof.Machine
end
